-- ==== Sys2Proof/Word.lean ====
section
/-! DEFINITION. The data types of 00_scope.md rule R14: bytes, 16-bit token fields, 32-bit words, tokens, glyphs. -/

namespace Sys2Proof

/-- `u8` of R14; bit 7 is the most significant (D26). Also the width `Config.nextBits` of a token's literal (R7). -/
abbrev Byte := BitVec 8

/-- `u16` of R14: a token field, of the widths `Config.offsetBits` and `Config.lengthBits` (R7). -/
abbrev U16 := BitVec 16

/-- The 32-bit word of the primitives (R216). -/
abbrev U32 := BitVec 32

/-- `Bytes` of R14: a finite sequence of bytes, its length part of its value (R50). -/
abbrev Bytes := List Byte

/-- A glyph is one Unicode scalar value (R10, D13), which is exactly what `Char` holds. -/
abbrev Glyph := Char

/-- `Glyphs` of R14: a cipher string, most significant digit first (R82). -/
abbrev Glyphs := List Glyph

/-- A base-5 digit, `0..4` (R18, R80). -/
abbrev Digit := Fin 5

/-- `Token` of R14: one record `(offset, length, next)`; all three fields unsigned (R76). -/
structure Token where
  offset : U16
  length : U16
  next : Byte
deriving DecidableEq, Repr

/-- `Tokens` of R14. -/
abbrev Tokens := List Token

end Sys2Proof
end

