-- ==== Sys2Proof/Config.lean ====
section
/-! DEFINITION. The configuration: the fixed parameters of 00_scope.md rules R7 and R8 as named constants, the open
parameters of R9, R10 and R12 as a record whose type rules out every configuration that R302 calls invalid, and the
bodiless constants that stand for what the spec leaves open. -/

namespace Sys2Proof

namespace Config

/-- `TOKEN_BYTES` (R7). -/
def tokenBytes : Nat := 5

/-- `OFFSET_BITS` (R7): the width of `Token.offset`, whose type is written `U16`; `token_field_widths` says that the two
agree. -/
def offsetBits : Nat := 16

/-- `LENGTH_BITS` (R7): the width of `Token.length`, whose type is written `U16`. -/
def lengthBits : Nat := 16

/-- `NEXT_BITS` (R7): the width of `Token.next`, whose type is written `Byte`. -/
def nextBits : Nat := 8

/-- `MAGIC_LEN` (R7). -/
def magicLen : Nat := 4

/-- `SALT_LEN` (R7). -/
def saltLen : Nat := 16

/-- `NONCE_LEN` (R7). -/
def nonceLen : Nat := 12

/-- `TAG_LEN` (R7). -/
def tagLen : Nat := 16

/-- `DK_LEN` (R7). -/
def dkLen : Nat := 32

/-- `MIN_ENVELOPE` (R7, R181): the acceptance threshold, not the smallest envelope produced (C5). -/
def minEnvelope : Nat := 32

/-- `RADIX` (R7). -/
def radix : Nat := 5

/-- `INFO` (R8): the 11 ASCII bytes of "HaJiMiManbo". -/
def info : Bytes := [0x48, 0x61, 0x4A, 0x69, 0x4D, 0x69, 0x4D, 0x61, 0x6E, 0x62, 0x6F]

/-- The AEAD's own limit on the payload (R247): `2^32 - 1` blocks of 64 bytes. -/
def aeadLimit : Nat := 274877906880

/-- `L <= 255 * 32` (R235): the longest output HKDF defines. -/
def hkdfLimit : Nat := 8160

end Config

/-- `LEN_OVF` (R12): what LZ.COMPRESS does with a selected run longer than 65535 bytes. -/
inductive LenOvf where
  /-- the low 16 bits are kept, silently -/
  | truncate
  /-- the operation fails with `LengthOverflow` -/
  | fault
deriving DecidableEq, Repr

/-- `MAGIC` (R9): four ASCII bytes, the first of them not zero. A magic that breaks either constraint is an invalid
configuration (R302); the type has no such value. -/
structure Magic where
  b0 : Byte
  b1 : Byte
  b2 : Byte
  b3 : Byte
  first_ne_zero : b0 ≠ 0
  ascii : b0 ≤ 0x7F ∧ b1 ≤ 0x7F ∧ b2 ≤ 0x7F ∧ b3 ≤ 0x7F
deriving DecidableEq, Repr

/-- `ALPHABET` (R10): five pairwise distinct code points, `g0` for digit 0 up to `g4` for digit 4. A table with a
repeated glyph is an invalid configuration (R302); the type has no such value. -/
structure Alphabet where
  g0 : Glyph
  g1 : Glyph
  g2 : Glyph
  g3 : Glyph
  g4 : Glyph
  distinct : [g0, g1, g2, g3, g4].Nodup
deriving DecidableEq, Repr

/-- The configuration constants of 10_state.md rule R30 that are parameters. No step writes them. -/
structure Config where
  /-- `WINDOW`, at least 1 (92, open parameters gathered) -/
  window : Nat
  window_pos : 0 < window
  magic : Magic
  alphabet : Alphabet
  lenOvf : LenOvf
deriving DecidableEq, Repr

/-- `MAGIC_EX` of R9, for vectors only: not the real literal. -/
def Magic.example1 : Magic :=
  { b0 := 0x45, b1 := 0x58, b2 := 0x4D, b3 := 0x31, first_ne_zero := by decide, ascii := by decide }

/-- `ALPHABET_EX` of R10, for vectors only: not the real alphabet. -/
def Alphabet.example1 : Alphabet :=
  { g0 := '0', g1 := '1', g2 := '2', g3 := '3', g4 := '4', distinct := by decide }

namespace Config

/-- The magic of this hardware, which the spec does not give (N3): any admissible one (assumption 1). The argument
only says that there is one. -/
opaque chosenMagic [Inhabited Magic] : Magic

/-- The alphabet of this hardware, which the spec does not give (N4): any admissible one (assumption 2). The
argument only says that there is one. -/
opaque chosenAlphabet [Inhabited Alphabet] : Alphabet

/-- What the random source answers to draw number `i` (counted from 0) for `n` bytes, when the state does not
already hold the answer: bytes or a failure, nothing is known of it (R290; assumption 6). -/
opaque randomAnswer (i n : Nat) : Option Bytes

/-- The 64-bit length field of a primitive for a length that does not fit 64 bits: R221 and R245 state none
(assumption 12). -/
opaque wideLength (v : Nat) : BitVec 64

/-- The configuration of this hardware: `WINDOW` 1024, `LEN_OVF` truncate (R7, R12), the open `MAGIC` and
`ALPHABET`. -/
def hardware : Config :=
  { window := 1024
    window_pos := by decide
    magic := @chosenMagic ⟨Magic.example1⟩
    alphabet := @chosenAlphabet ⟨Alphabet.example1⟩
    lenOvf := .truncate }

/-- `CFG_EX` of R11, for vectors only. -/
def example1 : Config :=
  { window := 1024
    window_pos := by decide
    magic := Magic.example1
    alphabet := Alphabet.example1
    lenOvf := .truncate }

end Config

end Sys2Proof
end

