-- ==== Sys2Proof/Syntax.lean ====
section
/-! DEFINITION. The instructions: one constructor per row of opcode_table.json, that is the ten operations of
30_encoding.md rule R85 (no operand field, R86) and the four token forms of rule R77. -/

namespace Sys2Proof

/-- The fourteen instructions. An operation's operands are the buffers the host hands over (R86); a token form
carries the fields of its record. -/
inductive Instr where
  /-- `LZ.COMPRESS`, code 0x10 (R100) -/
  | lzCompress
  /-- `LZ.DECOMPRESS`, code 0x11 (R112) -/
  | lzDecompress
  /-- `TS.TOBYTES`, code 0x20 (R130) -/
  | tsToBytes
  /-- `TS.FROMBYTES`, code 0x21 (R134) -/
  | tsFromBytes
  /-- `Q5.ENCODE`, code 0x30 (R145) -/
  | q5Encode
  /-- `Q5.DECODE`, code 0x31 (R150) -/
  | q5Decode
  /-- `ENV.SEAL`, code 0x40 (R170) -/
  | envSeal
  /-- `ENV.OPEN`, code 0x41 (R180) -/
  | envOpen
  /-- `PIPE.ENCRYPT`, code 0x50 (R195) -/
  | pipeEncrypt
  /-- `PIPE.DECRYPT`, code 0x51 (R200) -/
  | pipeDecrypt
  /-- `T.NULL`: length 0, next 0; the offset is carried and ignored (R77) -/
  | tNull (offset : U16)
  /-- `T.LIT`: length 0, next not 0; the offset is carried and ignored (R77) -/
  | tLit (offset : U16) (next : Byte)
  /-- `T.COPY`: length not 0, next 0 (R77) -/
  | tCopy (offset length : U16)
  /-- `T.COPYLIT`: length not 0, next not 0 (R77) -/
  | tCopyLit (offset length : U16) (next : Byte)
deriving DecidableEq, Repr

/-- `LIT n` of the textual notation (R90). -/
def Token.lit (n : Byte) : Token := { offset := 0, length := 0, next := n }

/-- `COPY o, l` of the textual notation (R90). -/
def Token.copy (o l : U16) : Token := { offset := o, length := l, next := 0 }

/-- `COPYLIT o, l, n` of the textual notation (R90). -/
def Token.copyLit (o l : U16) (n : Byte) : Token := { offset := o, length := l, next := n }

/-- `NUL` of the textual notation (R90). -/
def Token.nul : Token := { offset := 0, length := 0, next := 0 }

end Sys2Proof
end

