-- ==== Sys2Proof/Machine/State.lean ====
section
/-! DEFINITION. The state as plain data: the interface registers of 10_state.md rule R31, the configuration constants
of R30, the working registers of R22 to R28 (which exist only while an operation runs, R40, R41, so they live inside
`Phase.running`), the random source's known answers (R33, R290) and what the host will still do (R295). -/

namespace Sys2Proof.Machine

/-- The statuses of 60_exceptions.md rule R260: `OK` and ten errors. -/
inductive Status where
  | ok
  | randomnessUnavailable
  | keyDerivationFailure
  | cipherInitFailure
  | invalidCharacter
  | formatError
  | magicMismatch
  | decryptionFailed
  | copyOutOfRange
  | lengthOverflow
  | unknownOperation
deriving DecidableEq, Repr

/-- The buffers the host hands over when it starts an operation (R85, R86): each operation reads those of its row.
Every field is present, so a missing or ill-typed argument cannot be written (R330, U16). Tokens cross the boundary as
records, not as their 5-byte serialization: R86 allows either, and this is the model's choice (assumption 23). -/
structure Inputs where
  bytes : Bytes
  tokens : Tokens
  glyphs : Glyphs
  key : Bytes
deriving DecidableEq, Repr

/-- The one whole output buffer of an operation (R85, R16). Tokens are handed out as records, not as their 5-byte
serialization: R86 allows either, and this is the model's choice (assumption 23). -/
inductive Output where
  | tokens (t : Tokens)
  | bytes (b : Bytes)
  | glyphs (g : Glyphs)
deriving DecidableEq, Repr

/-! ## Working registers of LZ (R22, R23) -/

/-- Where LZ.COMPRESS stands in its pseudocode (R100), with the registers of R22 that exist there. -/
inductive CompressStage where
  /-- at the test `pos < N` -/
  | scan
  /-- at the head of the candidate loop -/
  | candidate (lo j bestLen bestOff : Nat)
  /-- in the run loop of candidate `j` -/
  | run (lo j l bestLen bestOff : Nat)
  /-- the search is over and `nxt` is known -/
  | emit (lo bestLen bestOff : Nat) (nxt : Byte)
deriving DecidableEq, Repr

/-- The registers of LZ.COMPRESS (R22). -/
structure CompressRegs where
  input : Bytes
  n : Nat
  pos : Nat
  tok : Tokens
  stage : CompressStage
deriving DecidableEq, Repr

/-- Where LZ.DECOMPRESS stands (R112), with the registers of R23 that exist only while a token is replayed. -/
inductive ReplayStage where
  /-- before token `ti` -/
  | token
  /-- inside token `ti`: `s` is the copy source start, `k` the bytes already copied -/
  | copy (s : Int) (k : Nat)
deriving DecidableEq, Repr

/-- The registers of LZ.DECOMPRESS (R23). -/
structure ReplayRegs where
  tok : Tokens
  ti : Nat
  out : Bytes
  stage : ReplayStage
deriving DecidableEq, Repr

/-! ## Working registers of TS (R25) -/

/-- The registers of TS.TOBYTES (R25). -/
structure ToBytesRegs where
  tok : Tokens
  ti : Nat
  b : Bytes
deriving DecidableEq, Repr

/-- The registers of TS.FROMBYTES (R25). -/
structure FromBytesRegs where
  b : Bytes
  ri : Nat
  tok : Tokens
deriving DecidableEq, Repr

/-! ## Working registers of Q5 (R26) -/

/-- Where Q5.ENCODE stands (R145). -/
inductive EncodeStage where
  /-- at the test `n != 0` -/
  | loop
  /-- after the `divmod`: quotient and remainder -/
  | divided (q : Nat) (r : Digit)
deriving DecidableEq, Repr

/-- The registers of Q5.ENCODE (R26). -/
structure EncodeRegs where
  b : Bytes
  n : Nat
  g : Glyphs
  stage : EncodeStage
deriving DecidableEq, Repr

/-- Where Q5.DECODE stands (R150). -/
inductive DecodeStage where
  /-- before glyph `gi` -/
  | scan
  /-- the digit of glyph `gi` is known -/
  | digit (d : Digit)
  /-- every glyph is read and the output is formed -/
  | write (b : Bytes)
deriving DecidableEq, Repr

/-- The registers of Q5.DECODE (R26). -/
structure DecodeRegs where
  g : Glyphs
  gi : Nat
  n : Nat
  stage : DecodeStage
deriving DecidableEq, Repr

/-! ## Working registers of ENV (R27); the constructor is the `step` register -/

/-- The `step` register of ENV.SEAL and what is known at that step (R27, R170). -/
inductive SealStage where
  | step1
  | step2
  | step3 (salt : Bytes)
  | step4 (salt dk : Bytes)
  | step5 (salt dk : Bytes)
  | step6 (salt dk nonce : Bytes)
  | step7 (salt nonce ct : Bytes)
deriving DecidableEq, Repr

/-- The registers of ENV.SEAL (R27). -/
structure SealRegs where
  payload : Bytes
  key : Bytes
  stage : SealStage
deriving DecidableEq, Repr

/-- The `step` register of ENV.OPEN and what is known at that step (R27, R180). -/
inductive OpenStage where
  | step1
  | step2
  | step3
  | step4
  | step5 (salt nonce ct : Bytes)
  | step6 (salt nonce ct dk : Bytes)
deriving DecidableEq, Repr

/-- The registers of ENV.OPEN (R27). -/
structure OpenRegs where
  raw : Bytes
  key : Bytes
  stage : OpenStage
deriving DecidableEq, Repr

/-! ## Working registers of PIPE (R28): those of the sub-operation in progress -/

/-- The registers of PIPE.ENCRYPT (R28, R195). -/
inductive PipeEncryptRegs where
  /-- step 1, first half -/
  | compress (r : CompressRegs) (key : Bytes)
  /-- step 1, second half -/
  | serialize (r : ToBytesRegs) (key : Bytes)
  /-- steps 2 to 7 -/
  | sealing (r : SealRegs)
  /-- step 8 -/
  | encode (r : EncodeRegs)
deriving DecidableEq, Repr

/-- The registers of PIPE.DECRYPT (R28, R200). -/
inductive PipeDecryptRegs where
  /-- step 1 -/
  | decode (r : DecodeRegs) (key : Bytes)
  /-- steps 2 to 6 -/
  | opening (r : OpenRegs)
  /-- step 7, first half -/
  | parse (r : FromBytesRegs)
  /-- step 7, second half -/
  | replay (r : ReplayRegs)
deriving DecidableEq, Repr

/-- The running operation and its working registers (R22 to R28). -/
inductive Work where
  | lzCompress (r : CompressRegs)
  | lzDecompress (r : ReplayRegs)
  | tsToBytes (r : ToBytesRegs)
  | tsFromBytes (r : FromBytesRegs)
  | q5Encode (r : EncodeRegs)
  | q5Decode (r : DecodeRegs)
  | envSeal (r : SealRegs)
  | envOpen (r : OpenRegs)
  | pipeEncrypt (r : PipeEncryptRegs)
  | pipeDecrypt (r : PipeDecryptRegs)
deriving DecidableEq, Repr

/-- What the block is doing (R40, R300). -/
inductive Phase where
  /-- no operation: no working register, no buffer, no key material exists -/
  | idle
  /-- the host has written OP and handed over the inputs; the operation has not run -/
  | started (inp : Inputs)
  /-- inside an operation -/
  | running (w : Work)
deriving DecidableEq, Repr

/-- The random source as far as the state knows it (R33, R290, R291): the answers already fixed for the next draws,
and how many draws were made. Past the list the answers are `Config.randomAnswer` (assumption 6). -/
structure RandomSource where
  answers : List (Option Bytes)
  drawn : Nat
deriving DecidableEq, Repr

/-- What the host does at the block's interface (R295, R301). -/
inductive HostCommand where
  /-- write OP and hand over the inputs -/
  | start (code : Byte) (inp : Inputs)
  /-- apply reset -/
  | reset
deriving DecidableEq, Repr

/-- The whole state. -/
structure State where
  /-- the configuration constants (R30), read-only -/
  cfg : Config
  /-- `OP` (R31); `none` is the spec's own "holds no value" (R40, R300; assumption 9) -/
  op : Option Byte
  /-- `STATUS` (R31) -/
  status : Byte
  /-- the output that came with `STATUS`, none if the operation ended in an error or none has run (R16, R270) -/
  output : Option Output
  /-- idle, started or running -/
  phase : Phase
  /-- the random source, outside the block -/
  random : RandomSource
  /-- what the host will still do, first command first (assumption 8) -/
  host : List HostCommand
deriving DecidableEq, Repr

/-- Why `exec` stops. `step` answers neither (it runs an operation only when one is started, a token only inside a
replay). The block's own faults are statuses and lead to a next state (R270). -/
inductive Fault where
  /-- raised by the meaning of an operation in a state in which no host has started one: there are no inputs to run on
  (R295, R330). Safe. -/
  | notStarted
  /-- raised by the meaning of a token form outside a replay: there is no OUT to act on (R23, R77). Safe. -/
  | noReplay
deriving DecidableEq, Repr

/-- Why `exec` refuses. -/
inductive Refusal where
  /-- raised by `exec` for an instruction that has no meaning yet. Safe. -/
  | notModelled (mnemonic : String)
  /-- raised by ENV.SEAL, ENV.OPEN, PIPE.ENCRYPT and PIPE.DECRYPT for a payload over the limit of R247, where the
  primitive is undefined and the spec has a model refuse. Safe. -/
  | aeadLimitExceeded
deriving DecidableEq, Repr

/-- The machine right after reset (R40, R300): idle, `STATUS` 0, `OP` without a value, nothing delivered, the
constants at their values; of the random source and the host nothing is known. -/
def State.reset : State :=
  { cfg := Config.hardware
    op := none
    status := 0
    output := none
    phase := .idle
    random := { answers := [], drawn := 0 }
    host := [] }

end Sys2Proof.Machine
end

