-- ==== Sys2Proof/Machine/Flags.lean ====
section
/-! DEFINITION. The three predicates of 10_state.md rule R29 (the block has no flag register) and the status codes of
60_exceptions.md rule R260. -/

namespace Sys2Proof.Machine

/-- `hasLit` (R29): the sentinel 0 means that no literal is appended. -/
def hasLit (next : Byte) : Bool := next != 0

/-- `hasCopy` (R29): with length 0 nothing is read and the offset is ignored. -/
def hasCopy (length : U16) : Bool := length != 0

/-- `improves` (R29, R105): only a strictly longer run replaces the incumbent. -/
def improves (l bestLen : Nat) : Bool := decide (bestLen < l)

/-- The code column of R260. -/
def statusCode : Status → Byte
  | .ok => 0x00
  | .randomnessUnavailable => 0x01
  | .keyDerivationFailure => 0x02
  | .cipherInitFailure => 0x03
  | .invalidCharacter => 0x04
  | .formatError => 0x05
  | .magicMismatch => 0x06
  | .decryptionFailed => 0x07
  | .copyOutOfRange => 0x08
  | .lengthOverflow => 0x09
  | .unknownOperation => 0x0A

end Sys2Proof.Machine
end

