-- ==== Sys2Proof/Machine/Ops.lean ====
section
/-! DEFINITION. The named operations every unit shares: reads and appends on buffers (R55, R56), the number functions
of R14, the draw of R290, ending an operation (R16) and raising an error (R270), and the loop that runs a unit's
pseudocode to its end. -/

namespace Sys2Proof.Machine

/-! ## Buffers -/

/-- `B[a]` (R55): legal only for `0 <= a < |B|`; outside it there is no value. -/
def readByte (b : Bytes) (a : Int) : Option Byte :=
  if 0 ≤ a then b[a.toNat]? else none

/-- `append(B, v)` (R56): one more element, none of the earlier ones changed. -/
def append {α : Type} (b : List α) (v : α) : List α := b ++ [v]

/-- `B[a..e)` (R14). -/
def slice (b : Bytes) (a e : Nat) : Bytes := (b.drop a).take (e - a)

/-! ## Numbers -/

/-- `trunc16` (R14, R141): the one place where a run length loses its high bits. -/
def trunc16 (v : Nat) : U16 := BitVec.ofNat 16 v

/-- `BE(B)` (R14, R146): byte 0 is the most significant; leading zero bytes do not change it. -/
def beNat (b : Bytes) : Nat := b.foldl (fun n x => n * 256 + x.toNat) 0

/-- The big-endian bytes of `n` put before `acc`, by repeated division; `fuel` bounds the number of bytes. -/
def minBELoop : Nat → Nat → Bytes → Bytes
  | 0, _, acc => acc
  | fuel + 1, n, acc => if n = 0 then acc else minBELoop fuel (n / 256) (BitVec.ofNat 8 n :: acc)

/-- `MINBE(n)` (R14, R152): the shortest `B` with `BE(B) = n`; `MINBE(0) = []` (D12). -/
def minBE (n : Nat) : Bytes := minBELoop n n []

/-- `LE(B)` (R216). -/
def leNat : Bytes → Nat
  | [] => 0
  | x :: rest => x.toNat + 256 * leNat rest

/-- The `k` little-endian bytes of `v`, low bytes only (R216). -/
def toLE : Nat → Nat → Bytes
  | 0, _ => []
  | k + 1, v => BitVec.ofNat 8 v :: toLE k (v / 256)

/-- The `k` big-endian bytes of `v`, low bytes only (R216). -/
def toBE (k v : Nat) : Bytes := (toLE k v).reverse

/-- The length fields of R221 and R245 hold a length as 64 bits; for a length that does not fit neither rule states
the field, which is then free (assumption 12). -/
def lengthField (v : Nat) : Nat := if v < 2 ^ 64 then v else (Config.wideLength v).toNat

/-- `M` cut into pieces of `size` bytes, the last one possibly shorter; `fuel` bounds their number. -/
def piecesLoop (size : Nat) : Nat → Bytes → List Bytes
  | 0, _ => []
  | fuel + 1, m => if m.isEmpty then [] else m.take size :: piecesLoop size fuel (m.drop size)

/-- `M` cut into blocks of `size` bytes in order (R221, R242, R244). -/
def pieces (size : Nat) (m : Bytes) : List Bytes := piecesLoop size m.length m

/-! ## The random source -/

/-- What the random source answers to its next draw, for `n` bytes (R290). -/
def nextAnswer (n : Nat) (x : RandomSource) : Option Bytes :=
  match x.answers with
  | a :: _ => a
  | [] => Config.randomAnswer x.drawn n

/-- `draw(n)` (R290): `n` bytes or a failure. An answer of another length counts as a failure. The answer is used up
either way (R271). -/
def draw (n : Nat) (x : RandomSource) : RandomSource × Option Bytes :=
  ({ answers := x.answers.tail, drawn := x.drawn + 1 },
    match nextAnswer n x with
    | some b => if b.length = n then some b else none
    | none => none)

/-! ## Ending an operation -/

/-- End with `OK` and the whole output (R16, R260); the working registers cease to exist (R40). -/
def endOk (s : State) (o : Output) : State :=
  { s with status := statusCode .ok, output := some o, phase := .idle }

/-- `raise E` (R270): the operation ends at once, the output under construction is discarded, the working registers
cease to exist, `STATUS` gets the code of `E` and the block is idle. This is the whole of taking an exception; there
is no return from one (R273). -/
def raise (s : State) (e : Status) : State :=
  { s with status := statusCode e, output := none, phase := .idle }

/-- Reset (R300, R301): the idle condition, whatever was running; a draw already made is not given back. `rest` is
what the host does afterwards. -/
def resetBlock (s : State) (rest : List HostCommand) : State :=
  { s with op := none, status := 0, output := none, phase := .idle, host := rest }

/-- The host starts an operation (R31, R295): it writes OP and hands over the inputs, by value (R71). -/
def accept (s : State) (code : Byte) (inp : Inputs) (rest : List HostCommand) : State :=
  { s with op := some code, phase := .started inp, host := rest }

/-! ## Running a unit's pseudocode -/

/-- What one line of an operation's pseudocode leads to: the next line with the registers `r`, the end with an output,
or a `raise`. -/
inductive Tick (ρ ω : Type) where
  | running (r : ρ)
  | done (o : ω)
  | raised (e : Status)
deriving DecidableEq, Repr

/-- The tick of a sub-operation inside a larger one: its registers wrapped, its output handed to `next`, its error
passed on unchanged (R272). -/
def Tick.andThen {ρ ω ρ' ω' : Type} (t : Tick ρ ω) (wrap : ρ → ρ') (next : ω → Tick ρ' ω') : Tick ρ' ω' :=
  match t with
  | .running r => .running (wrap r)
  | .done o => next o
  | .raised e => .raised e

/-- A unit that makes no draw, beside the random source. -/
def quiet {ρ ω : Type} (f : ρ → Tick ρ ω) (x : RandomSource) (r : ρ) : RandomSource × Tick ρ ω := (x, f r)

/-- Run a unit line by line until it ends, at most `fuel` lines. -/
def runUnit {ρ ω : Type} (f : RandomSource → ρ → RandomSource × Tick ρ ω) :
    Nat → RandomSource → ρ → RandomSource × Tick ρ ω
  | 0, x, r => (x, .running r)
  | fuel + 1, x, r =>
    match f x r with
    | (x', .running r') => runUnit f fuel x' r'
    | (x', .done o) => (x', .done o)
    | (x', .raised e) => (x', .raised e)

/-- Put the outcome of a unit into the state: still running, ended with `OK`, or raised. -/
def conclude {ρ ω : Type} (s : State) (work : ρ → Work) (out : ω → Output) : RandomSource × Tick ρ ω → State
  | (x, .running r) => { s with random := x, phase := .running (work r) }
  | (x, .done o) => endOk { s with random := x } (out o)
  | (x, .raised e) => raise { s with random := x } e

/-- The meaning of an operation runs on the inputs the host handed over (R71, R86); without them it faults. -/
def operate (s : State) (go : Inputs → Host.Outcome State Fault Refusal) : Host.Outcome State Fault Refusal :=
  match s.phase with
  | .started inp => go inp
  | .idle => .fault .notStarted
  | .running _ => .fault .notStarted

end Sys2Proof.Machine
end

