-- ==== Sys2Proof/Machine/Operands.lean ====
section
/-! DEFINITION. The operand forms: which buffer each operation reads and how its working registers start (R22 to R28,
R40, R85), the glyph tables (R30, R80) and the slices of an envelope (R61, R62). -/

namespace Sys2Proof.Machine

/-! ## The glyph tables -/

/-- `ALPHABET[d]` (R30, R80). -/
def glyphOf (a : Alphabet) (d : Digit) : Glyph :=
  match d with
  | 0 => a.g0
  | 1 => a.g1
  | 2 => a.g2
  | 3 => a.g3
  | 4 => a.g4

/-- `INDEX_OF(c)` (R30, R80, R81): the inverse table, none for every other code point. -/
def indexOf (a : Alphabet) (c : Glyph) : Option Digit :=
  if c = a.g0 then some 0
  else if c = a.g1 then some 1
  else if c = a.g2 then some 2
  else if c = a.g3 then some 3
  else if c = a.g4 then some 4
  else none

/-! ## The envelope -/

/-- `MAGIC` as four bytes (R30, R61). -/
def magicBytes (m : Magic) : Bytes := [m.b0, m.b1, m.b2, m.b3]

/-- `raw[0..4)` (R62). -/
def envMagic (raw : Bytes) : Bytes := slice raw 0 4

/-- `raw[4..20)` (R62). -/
def envSalt (raw : Bytes) : Bytes := slice raw 4 20

/-- `raw[20..32)` (R62). -/
def envNonce (raw : Bytes) : Bytes := slice raw 20 32

/-- `raw[32..|raw|)` (R62): possibly empty or shorter than a tag. -/
def envCiphertext (raw : Bytes) : Bytes := raw.drop 32

/-! ## How each operation's registers start -/

/-- R100, R101: `IN`, `N`, `pos` 0, `TOK` empty. -/
def startCompress (b : Bytes) : CompressRegs :=
  { input := b, n := b.length, pos := 0, tok := [], stage := .scan }

/-- R112: `TOK`, `ti` 0, `OUT` empty. -/
def startReplay (t : Tokens) : ReplayRegs := { tok := t, ti := 0, out := [], stage := .token }

/-- R130: `TOK`, `ti` 0, `B` empty. -/
def startToBytes (t : Tokens) : ToBytesRegs := { tok := t, ti := 0, b := [] }

/-- R134: `B`, `ri` 0, `TOK` empty. -/
def startFromBytes (b : Bytes) : FromBytesRegs := { b := b, ri := 0, tok := [] }

/-- R145: `B`, `n` is `BE(B)`, `G` empty. -/
def startEncode (b : Bytes) : EncodeRegs := { b := b, n := beNat b, g := [], stage := .loop }

/-- R150: `G`, `gi` 0, `n` 0. -/
def startDecode (g : Glyphs) : DecodeRegs := { g := g, gi := 0, n := 0, stage := .scan }

/-- R170, R24: `payload`, `key`, `step` 1. -/
def startSeal (payload key : Bytes) : SealRegs := { payload := payload, key := key, stage := .step1 }

/-- R180, R24: `raw`, `key`, `step` 1. -/
def startOpen (raw key : Bytes) : OpenRegs := { raw := raw, key := key, stage := .step1 }

/-- R195: step 1 begins with LZ.COMPRESS of the plaintext. -/
def startEncrypt (plaintext key : Bytes) : PipeEncryptRegs := .compress (startCompress plaintext) key

/-- R200: step 1 is Q5.DECODE of the cipher string. -/
def startDecrypt (g : Glyphs) (key : Bytes) : PipeDecryptRegs := .decode (startDecode g) key

/-! ## The step register (R24) -/

/-- The `step` register of ENV.SEAL. -/
def sealStep : SealStage → Nat
  | .step1 => 1
  | .step2 => 2
  | .step3 _ => 3
  | .step4 _ _ => 4
  | .step5 _ _ => 5
  | .step6 _ _ _ => 6
  | .step7 _ _ _ => 7

/-- The `step` register of ENV.OPEN. -/
def openStep : OpenStage → Nat
  | .step1 => 1
  | .step2 => 2
  | .step3 => 3
  | .step4 => 4
  | .step5 _ _ _ => 5
  | .step6 _ _ _ _ => 6

/-- The `step` register of PIPE.ENCRYPT: steps 2 to 7 are those of ENV.SEAL (R195). -/
def encryptStep : PipeEncryptRegs → Nat
  | .compress _ _ => 1
  | .serialize _ _ => 1
  | .sealing r => sealStep r.stage
  | .encode _ => 8

/-- The `step` register of PIPE.DECRYPT: steps 2 to 6 are those of ENV.OPEN (R200). -/
def decryptStep : PipeDecryptRegs → Nat
  | .decode _ _ => 1
  | .opening r => openStep r.stage
  | .parse _ => 7
  | .replay _ => 7

end Sys2Proof.Machine
end

