-- ==== Sys2Proof/Machine/Compressor.lean ====
section
/-! DEFINITION. Unit LZ (40_lz_compressor.md): LZ.COMPRESS and LZ.DECOMPRESS. -/

namespace Sys2Proof.Machine

/-! ## LZ.COMPRESS -/

/-- The test of the run loop (R104): the byte after a run of `l` is still inside the input and equal at candidate and
position. Both reads are in range when it is reached; outside the range there is no value and the run ends (R55). -/
def runContinues (r : CompressRegs) (j l : Nat) : Bool :=
  decide (r.pos + l < r.n) &&
    match r.input[j + l]?, r.input[r.pos + l]? with
    | some x, some y => x == y
    | _, _ => false

/-- The literal (R106): the byte after the best run, 0 if the run reaches the end of the input. -/
def literalAfter (r : CompressRegs) (bestLen : Nat) : Byte :=
  if r.pos + bestLen < r.n then
    match r.input[r.pos + bestLen]? with
    | some x => x
    | none => 0
  else 0

/-- The token of an iteration (R107): the low 16 bits of the run length, silently. -/
def tokenOf (bestOff bestLen : Nat) (nxt : Byte) : Token :=
  { offset := trunc16 bestOff, length := trunc16 bestLen, next := nxt }

/-- One line of the pseudocode of R100. -/
def tickCompress (cfg : Config) (r : CompressRegs) : Tick CompressRegs Tokens :=
  match r.stage with
  | .scan =>
    if r.pos < r.n then
      .running { r with stage := .candidate (r.pos - cfg.window) (r.pos - cfg.window) 0 0 }
    else .done r.tok
  | .candidate lo j bestLen bestOff =>
    if j < r.pos then .running { r with stage := .run lo j 0 bestLen bestOff }
    else .running { r with stage := .emit lo bestLen bestOff (literalAfter r bestLen) }
  | .run lo j l bestLen bestOff =>
    if runContinues r j l then .running { r with stage := .run lo j (l + 1) bestLen bestOff }
    else if improves l bestLen then .running { r with stage := .candidate lo (j + 1) l (r.pos - j) }
    else .running { r with stage := .candidate lo (j + 1) bestLen bestOff }
  | .emit _ bestLen bestOff nxt =>
    if 65535 < bestLen ∧ cfg.lenOvf = .fault then .raised .lengthOverflow
    else
      .running { r with
        tok := append r.tok (tokenOf bestOff bestLen nxt)
        pos := r.pos + bestLen + 1
        stage := .scan }

/-- A bound on the lines LZ.COMPRESS runs through on `N` bytes (R101, R336). -/
def compressFuel (n : Nat) : Nat := n * (n * (n + 2) + 3) + 1

/-- `LZ.COMPRESS` (R100). -/
def execLzCompress (s : State) : Host.Outcome State Fault Refusal :=
  operate s fun inp =>
    .next (conclude s .lzCompress .tokens
      (runUnit (quiet (tickCompress s.cfg)) (compressFuel inp.bytes.length) s.random (startCompress inp.bytes)))

/-! ## LZ.DECOMPRESS -/

/-- `S = |OUT| - offset` (R113), taken once per token. -/
def copySource (out : Bytes) (offset : U16) : Int := (out.length : Int) - (offset.toNat : Int)

/-- The fault condition of a token (R115): a copy whose source is not inside the bytes written. -/
def copyFaults (out : Bytes) (offset length : U16) : Bool :=
  hasCopy length && (offset == 0 || decide (copySource out offset < 0))

/-- One iteration of the copy loop (R114): byte `k` is read at `S + k` and appended. -/
def copyByte (out : Bytes) (s : Int) (k : Nat) : Option Bytes :=
  match readByte out (s + k) with
  | some x => some (append out x)
  | none => none

/-- The literal (R116): appended unless it is the sentinel 0. -/
def appendLiteral (out : Bytes) (next : Byte) : Bytes := if hasLit next then append out next else out

/-- The registers after a token is replayed: `OUT` and the next token (R24, R120). -/
def nextToken (r : ReplayRegs) (out : Bytes) : ReplayRegs :=
  { r with out := out, ti := r.ti + 1, stage := .token }

/-- One line of the pseudocode of R112. The copy read is in range whenever the check of R115 has passed; a read
outside the range has no value and raises (R55, R263). -/
def tickReplay (r : ReplayRegs) : Tick ReplayRegs Bytes :=
  match r.tok[r.ti]?, r.stage with
  | none, _ => .done r.out
  | some t, .token =>
    if copyFaults r.out t.offset t.length then .raised .copyOutOfRange
    else .running { r with stage := .copy (copySource r.out t.offset) 0 }
  | some t, .copy s k =>
    if k < t.length.toNat then
      match copyByte r.out s k with
      | some out => .running { r with out := out, stage := .copy s (k + 1) }
      | none => .raised .copyOutOfRange
    else .running (nextToken r (appendLiteral r.out t.next))

/-- A bound on the lines LZ.DECOMPRESS runs through (R336): `length + 2` for each token and the last test. -/
def replayFuel (t : Tokens) : Nat := (t.map fun x => x.length.toNat + 2).sum + 1

/-- `LZ.DECOMPRESS` (R112). -/
def execLzDecompress (s : State) : Host.Outcome State Fault Refusal :=
  operate s fun inp =>
    .next (conclude s .lzDecompress .bytes
      (runUnit (quiet tickReplay) (replayFuel inp.tokens) s.random (startReplay inp.tokens)))

end Sys2Proof.Machine
end

