-- ==== Sys2Proof/Machine/Aead.lean ====
section
/-! DEFINITION. ChaCha20, Poly1305 and the AEAD built from them, as 45_crypto_primitives.md rules R240 to R249 define
them (which the spec supplies from general knowledge, G1; assumption 22). -/

namespace Sys2Proof.Machine

/-! ## ChaCha20 -/

/-- The 16-word state (R241). -/
structure ChaChaState where
  w0 : U32
  w1 : U32
  w2 : U32
  w3 : U32
  w4 : U32
  w5 : U32
  w6 : U32
  w7 : U32
  w8 : U32
  w9 : U32
  w10 : U32
  w11 : U32
  w12 : U32
  w13 : U32
  w14 : U32
  w15 : U32
deriving DecidableEq, Repr

/-- The four words of a quarter round. -/
structure Quarter where
  a : U32
  b : U32
  c : U32
  d : U32
deriving DecidableEq, Repr

/-- One half of a quarter round (R240): `a <- a + b; d <- ROTL(d XOR a, m); c <- c + d; b <- ROTL(b XOR c, n)`. -/
def halfQuarter (q : Quarter) (m n : Nat) : Quarter :=
  let a := q.a + q.b
  let d := (q.d ^^^ a).rotateLeft m
  let c := q.c + d
  { a := a, b := (q.b ^^^ c).rotateLeft n, c := c, d := d }

/-- `QR(a, b, c, d)` (R240). -/
def quarterRound (a b c d : U32) : Quarter :=
  halfQuarter (halfQuarter { a := a, b := b, c := c, d := d } 16 12) 8 7

/-- The four column rounds (R241). -/
def columnRounds (s : ChaChaState) : ChaChaState :=
  let q0 := quarterRound s.w0 s.w4 s.w8 s.w12
  let q1 := quarterRound s.w1 s.w5 s.w9 s.w13
  let q2 := quarterRound s.w2 s.w6 s.w10 s.w14
  let q3 := quarterRound s.w3 s.w7 s.w11 s.w15
  { w0 := q0.a, w4 := q0.b, w8 := q0.c, w12 := q0.d
    w1 := q1.a, w5 := q1.b, w9 := q1.c, w13 := q1.d
    w2 := q2.a, w6 := q2.b, w10 := q2.c, w14 := q2.d
    w3 := q3.a, w7 := q3.b, w11 := q3.c, w15 := q3.d }

/-- The four diagonal rounds (R241). -/
def diagonalRounds (s : ChaChaState) : ChaChaState :=
  let q0 := quarterRound s.w0 s.w5 s.w10 s.w15
  let q1 := quarterRound s.w1 s.w6 s.w11 s.w12
  let q2 := quarterRound s.w2 s.w7 s.w8 s.w13
  let q3 := quarterRound s.w3 s.w4 s.w9 s.w14
  { w0 := q0.a, w5 := q0.b, w10 := q0.c, w15 := q0.d
    w1 := q1.a, w6 := q1.b, w11 := q1.c, w12 := q1.d
    w2 := q2.a, w7 := q2.b, w8 := q2.c, w13 := q2.d
    w3 := q3.a, w4 := q3.b, w9 := q3.c, w14 := q3.d }

/-- `k` times the column and the diagonal rounds (R241: ten times). -/
def doubleRounds : Nat → ChaChaState → ChaChaState
  | 0, s => s
  | k + 1, s => doubleRounds k (diagonalRounds (columnRounds s))

/-- `LE32` of each four bytes (R216). -/
def leWords : Bytes → List U32
  | b0 :: b1 :: b2 :: b3 :: rest => (b3 ++ b2 ++ b1 ++ b0 : BitVec 32) :: leWords rest
  | _ => []

/-- `toLE32` (R216). -/
def wordBytesLE (w : U32) : Bytes := toLE 4 w.toNat

/-- The initial state of a block (R241). -/
def chachaInit (key : Bytes) (counter : U32) (nonce : Bytes) : ChaChaState :=
  let k := leWords key
  let n := leWords nonce
  { w0 := 0x61707865, w1 := 0x3320646E, w2 := 0x79622D32, w3 := 0x6B206574
    w4 := k.getD 0 0, w5 := k.getD 1 0, w6 := k.getD 2 0, w7 := k.getD 3 0
    w8 := k.getD 4 0, w9 := k.getD 5 0, w10 := k.getD 6 0, w11 := k.getD 7 0
    w12 := counter, w13 := n.getD 0 0, w14 := n.getD 1 0, w15 := n.getD 2 0 }

/-- The 64 bytes of the word-by-word sum of two states (R241). -/
def chachaOutput (w s : ChaChaState) : Bytes :=
  wordBytesLE (w.w0 + s.w0) ++ wordBytesLE (w.w1 + s.w1) ++ wordBytesLE (w.w2 + s.w2) ++ wordBytesLE (w.w3 + s.w3)
    ++ wordBytesLE (w.w4 + s.w4) ++ wordBytesLE (w.w5 + s.w5) ++ wordBytesLE (w.w6 + s.w6)
    ++ wordBytesLE (w.w7 + s.w7) ++ wordBytesLE (w.w8 + s.w8) ++ wordBytesLE (w.w9 + s.w9)
    ++ wordBytesLE (w.w10 + s.w10) ++ wordBytesLE (w.w11 + s.w11) ++ wordBytesLE (w.w12 + s.w12)
    ++ wordBytesLE (w.w13 + s.w13) ++ wordBytesLE (w.w14 + s.w14) ++ wordBytesLE (w.w15 + s.w15)

/-- `CHACHA20_BLOCK(key, counter, nonce)` (R241). -/
def chachaBlock (key : Bytes) (counter : U32) (nonce : Bytes) : Bytes :=
  chachaOutput (doubleRounds 10 (chachaInit key counter nonce)) (chachaInit key counter nonce)

/-- The pieces of the data, each XORed with its block of the key stream (R242). -/
def xorPieces (key nonce : Bytes) : U32 → List Bytes → Bytes
  | _, [] => []
  | counter, p :: rest =>
    List.zipWith (· ^^^ ·) p (chachaBlock key counter nonce) ++ xorPieces key nonce (counter + 1) rest

/-- `CHACHA20_XOR(key, counter0, nonce, data)` (R242). -/
def chachaXor (key : Bytes) (counter : U32) (nonce data : Bytes) : Bytes :=
  xorPieces key nonce counter (pieces 64 data)

/-! ## Poly1305 -/

/-- `p = 2^130 - 5` (R244). -/
def polyPrime : Nat := 2 ^ 130 - 5

/-- The clamped multiplier `r` (R244). -/
def polyR (otk : Bytes) : Nat := leNat (otk.take 16) &&& 0x0FFFFFFC0FFFFFFC0FFFFFFC0FFFFFFF

/-- One block into the accumulator (R244): one `01` byte above its most significant byte. -/
def polyStep (r acc : Nat) (block : Bytes) : Nat := (acc + leNat (block ++ [0x01])) * r % polyPrime

/-- `POLY1305(otk, M)` (R244). -/
def poly1305 (otk m : Bytes) : Bytes :=
  toLE 16 (((pieces 16 m).foldl (polyStep (polyR otk)) 0 + leNat ((otk.drop 16).take 16)) % 2 ^ 128)

/-! ## The AEAD -/

/-- The one-time authenticator key (R245): counter 0, first 32 bytes. -/
def aeadOtk (key nonce : Bytes) : Bytes := (chachaBlock key 0 nonce).take 32

/-- `pad16(X)` (R245). -/
def pad16 (x : Bytes) : Bytes := List.replicate ((16 - x.length % 16) % 16) 0

/-- `macdata` (R245). -/
def macData (aad body : Bytes) : Bytes :=
  aad ++ pad16 aad ++ body ++ pad16 body ++ toLE 8 (lengthField aad.length) ++ toLE 8 (lengthField body.length)

/-- The tag of a body (R245). -/
def aeadTag (key nonce aad body : Bytes) : Bytes := poly1305 (aeadOtk key nonce) (macData aad body)

/-- `AEAD_SEAL(key, nonce, aad, pt)` (R245): the body, then the 16-byte tag. -/
def aeadSeal (key nonce aad pt : Bytes) : Bytes :=
  chachaXor key 1 nonce pt ++ aeadTag key nonce aad (chachaXor key 1 nonce pt)

/-- The body of a ciphertext (R246): all but the last 16 bytes. -/
def ctBody (ct : Bytes) : Bytes := ct.take (ct.length - Config.tagLen)

/-- The tag of a ciphertext (R246): the last 16 bytes. -/
def ctTag (ct : Bytes) : Bytes := ct.drop (ct.length - Config.tagLen)

/-- `AEAD_OPEN(key, nonce, aad, ct)` (R246): none if the ciphertext is shorter than a tag or the tag does not verify;
nothing of the body is released then. -/
def aeadOpen (key nonce aad ct : Bytes) : Option Bytes :=
  if ct.length < Config.tagLen then none
  else if aeadTag key nonce aad (ctBody ct) = ctTag ct then some (chachaXor key 1 nonce (ctBody ct))
  else none

/-- The AEAD takes a 32-byte key (R188, R245). -/
def aeadKeyOk (key : Bytes) : Bool := key.length == Config.dkLen

end Sys2Proof.Machine
end

