-- ==== Sys2Proof/Machine/Sha256.lean ====
section
/-! DEFINITION. SHA-256, HMAC-SHA-256 and HKDF-SHA-256 as 45_crypto_primitives.md rules R216 to R236 define them (which
the spec supplies from general knowledge, G1; assumption 22). -/

namespace Sys2Proof.Machine

/-! ## SHA-256 -/

/-- The chaining value and the working variables `a` to `h` (R223, R224). -/
structure HashState where
  a : U32
  b : U32
  c : U32
  d : U32
  e : U32
  f : U32
  g : U32
  h : U32
deriving DecidableEq, Repr

/-- `H0` (R220). -/
def shaInit : HashState :=
  { a := 0x6A09E667, b := 0xBB67AE85, c := 0x3C6EF372, d := 0xA54FF53A
    e := 0x510E527F, f := 0x9B05688C, g := 0x1F83D9AB, h := 0x5BE0CD19 }

/-- `K[0..31]` (R220). -/
def shaConstantsLow : List U32 :=
  [0x428A2F98, 0x71374491, 0xB5C0FBCF, 0xE9B5DBA5, 0x3956C25B, 0x59F111F1, 0x923F82A4, 0xAB1C5ED5,
   0xD807AA98, 0x12835B01, 0x243185BE, 0x550C7DC3, 0x72BE5D74, 0x80DEB1FE, 0x9BDC06A7, 0xC19BF174,
   0xE49B69C1, 0xEFBE4786, 0x0FC19DC6, 0x240CA1CC, 0x2DE92C6F, 0x4A7484AA, 0x5CB0A9DC, 0x76F988DA,
   0x983E5152, 0xA831C66D, 0xB00327C8, 0xBF597FC7, 0xC6E00BF3, 0xD5A79147, 0x06CA6351, 0x14292967]

/-- `K[32..63]` (R220). -/
def shaConstantsHigh : List U32 :=
  [0x27B70A85, 0x2E1B2138, 0x4D2C6DFC, 0x53380D13, 0x650A7354, 0x766A0ABB, 0x81C2C92E, 0x92722C85,
   0xA2BFE8A1, 0xA81A664B, 0xC24B8B70, 0xC76C51A3, 0xD192E819, 0xD6990624, 0xF40E3585, 0x106AA070,
   0x19A4C116, 0x1E376C08, 0x2748774C, 0x34B0BCB5, 0x391C0CB3, 0x4ED8AA4A, 0x5B9CCA4F, 0x682E6FF3,
   0x748F82EE, 0x78A5636F, 0x84C87814, 0x8CC70208, 0x90BEFFFA, 0xA4506CEB, 0xBEF9A3F7, 0xC67178F2]

/-- `K[0..63]` (R220). -/
def shaConstants : List U32 := shaConstantsLow ++ shaConstantsHigh

/-- The padded message (R221). -/
def shaPad (m : Bytes) : Bytes :=
  m ++ [0x80] ++ List.replicate ((119 - m.length % 64) % 64) 0 ++ toBE 8 (lengthField (8 * m.length))

/-- `BE32` of each four bytes (R216, R222). -/
def beWords : Bytes → List U32
  | b0 :: b1 :: b2 :: b3 :: rest => (b0 ++ b1 ++ b2 ++ b3 : BitVec 32) :: beWords rest
  | _ => []

/-- `toBE32` (R216). -/
def wordBytesBE (w : U32) : Bytes := toBE 4 w.toNat

/-- `s0` (R222). -/
def shaSmall0 (x : U32) : U32 := x.rotateRight 7 ^^^ x.rotateRight 18 ^^^ (x >>> 3)

/-- `s1` (R222). -/
def shaSmall1 (x : U32) : U32 := x.rotateRight 17 ^^^ x.rotateRight 19 ^^^ (x >>> 10)

/-- `S0` (R223). -/
def shaBig0 (x : U32) : U32 := x.rotateRight 2 ^^^ x.rotateRight 13 ^^^ x.rotateRight 22

/-- `S1` (R223). -/
def shaBig1 (x : U32) : U32 := x.rotateRight 6 ^^^ x.rotateRight 11 ^^^ x.rotateRight 25

/-- `Ch` (R223). -/
def shaCh (x y z : U32) : U32 := (x &&& y) ^^^ (~~~x &&& z)

/-- `Maj` (R223). -/
def shaMaj (x y z : U32) : U32 := (x &&& y) ^^^ (x &&& z) ^^^ (y &&& z)

/-- `k` more words of the schedule (R222), newest first: from `W[t-1], W[t-2], ...` to `W[t+k-1], ...`. -/
def shaExtend : Nat → List U32 → List U32
  | 0, w => w
  | k + 1, w =>
    shaExtend k ((shaSmall1 (w.getD 1 0) + w.getD 6 0 + shaSmall0 (w.getD 14 0) + w.getD 15 0) :: w)

/-- The message schedule `W[0..63]` of one block (R222). -/
def shaSchedule (block : Bytes) : List U32 := (shaExtend 48 (beWords block).reverse).reverse

/-- One of the 64 rounds (R223); `kw` is the pair of `K[t]` and `W[t]`. -/
def shaRound (s : HashState) (kw : U32 × U32) : HashState :=
  let t1 := s.h + shaBig1 s.e + shaCh s.e s.f s.g + kw.1 + kw.2
  let t2 := shaBig0 s.a + shaMaj s.a s.b s.c
  { a := t1 + t2, b := s.a, c := s.b, d := s.c, e := s.d + t1, f := s.e, g := s.f, h := s.g }

/-- The compression of one block into the chaining value (R223). -/
def shaCompress (s : HashState) (block : Bytes) : HashState :=
  let r := (shaConstants.zip (shaSchedule block)).foldl shaRound s
  { a := s.a + r.a, b := s.b + r.b, c := s.c + r.c, d := s.d + r.d
    e := s.e + r.e, f := s.f + r.f, g := s.g + r.g, h := s.h + r.h }

/-- The eight words of a hash state as 32 bytes (R224). -/
def shaOutput (s : HashState) : Bytes :=
  wordBytesBE s.a ++ wordBytesBE s.b ++ wordBytesBE s.c ++ wordBytesBE s.d
    ++ wordBytesBE s.e ++ wordBytesBE s.f ++ wordBytesBE s.g ++ wordBytesBE s.h

/-- `SHA256(M)` (R224). -/
def sha256 (m : Bytes) : Bytes := shaOutput ((pieces 64 (shaPad m)).foldl shaCompress shaInit)

/-! ## HMAC -/

/-- `K0` (R230): the key hashed if longer than a block, padded with zeros to 64 bytes. -/
def hmacKey (k : Bytes) : Bytes :=
  let k1 := if 64 < k.length then sha256 k else k
  k1 ++ List.replicate (64 - k1.length) 0

/-- `HMAC_SHA256(K, M)` (R230). -/
def hmac (k m : Bytes) : Bytes :=
  sha256 ((hmacKey k).map (· ^^^ 0x5C) ++ sha256 ((hmacKey k).map (· ^^^ 0x36) ++ m))

/-! ## HKDF -/

/-- `T(i) ‖ T(i+1) ‖ ...`, `blocks` of them, after `prev = T(i-1)` (R235). -/
def hkdfExpand (prk info : Bytes) : Nat → Nat → Bytes → Bytes
  | 0, _, _ => []
  | blocks + 1, i, prev =>
    let t := hmac prk (prev ++ info ++ [BitVec.ofNat 8 i])
    t ++ hkdfExpand prk info blocks (i + 1) t

/-- The extract step (R235): the salt is the HMAC key, an empty one stands for 32 zero bytes. -/
def hkdfExtract (ikm salt : Bytes) : Bytes :=
  hmac (if salt.isEmpty then List.replicate 32 0 else salt) ikm

/-- `HKDF_SHA256(ikm, salt, info, L)` (R235); undefined, so none, for `L > 8160`. -/
def hkdf (ikm salt info : Bytes) (len : Nat) : Option Bytes :=
  if len ≤ Config.hkdfLimit then
    some ((hkdfExpand (hkdfExtract ikm salt) info ((len + 31) / 32) 1 []).take len)
  else none

/-- `KDF(key, salt)` (R166). -/
def kdf (key salt : Bytes) : Option Bytes := hkdf key salt Config.info Config.dkLen

end Sys2Proof.Machine
end

