-- ==== Sys2Proof/Machine/Envelope.lean ====
section
/-! DEFINITION. Unit ENV (43_envelope_cipher.md): ENV.SEAL and ENV.OPEN. -/

namespace Sys2Proof.Machine

/-- One step of ENV.SEAL (R170). The raise sites of steps 3 and 4 are behind conditions that never hold (R188). -/
def tickSeal (cfg : Config) (x : RandomSource) (r : SealRegs) : RandomSource × Tick SealRegs Bytes :=
  match r.stage with
  | .step1 => (x, .running { r with stage := .step2 })
  | .step2 =>
    match draw Config.saltLen x with
    | (x', some salt) => (x', .running { r with stage := .step3 salt })
    | (x', none) => (x', .raised .randomnessUnavailable)
  | .step3 salt =>
    match kdf r.key salt with
    | some dk => (x, .running { r with stage := .step4 salt dk })
    | none => (x, .raised .keyDerivationFailure)
  | .step4 salt dk =>
    if aeadKeyOk dk then (x, .running { r with stage := .step5 salt dk })
    else (x, .raised .cipherInitFailure)
  | .step5 salt dk =>
    match draw Config.nonceLen x with
    | (x', some nonce) => (x', .running { r with stage := .step6 salt dk nonce })
    | (x', none) => (x', .raised .randomnessUnavailable)
  | .step6 salt dk nonce => (x, .running { r with stage := .step7 salt nonce (aeadSeal dk nonce [] r.payload) })
  | .step7 salt nonce ct => (x, .done (magicBytes cfg.magic ++ salt ++ nonce ++ ct))

/-- One step of ENV.OPEN (R180), the checks in the order of R275. Step 5 derives the key and initialises the AEAD;
its two raise sites are behind conditions that never hold (R188). -/
def tickOpen (cfg : Config) (r : OpenRegs) : Tick OpenRegs Bytes :=
  match r.stage with
  | .step1 => .running { r with stage := .step2 }
  | .step2 =>
    if r.raw.length < Config.minEnvelope then .raised .formatError
    else .running { r with stage := .step3 }
  | .step3 =>
    if envMagic r.raw = magicBytes cfg.magic then .running { r with stage := .step4 }
    else .raised .magicMismatch
  | .step4 =>
    .running { r with stage := .step5 (envSalt r.raw) (envNonce r.raw) (envCiphertext r.raw) }
  | .step5 salt nonce ct =>
    match kdf r.key salt with
    | some dk =>
      if aeadKeyOk dk then .running { r with stage := .step6 salt nonce ct dk }
      else .raised .cipherInitFailure
    | none => .raised .keyDerivationFailure
  | .step6 _ nonce ct dk =>
    match aeadOpen dk nonce [] ct with
    | some payload => .done payload
    | none => .raised .decryptionFailed

/-- A bound on the steps of ENV.SEAL and of ENV.OPEN. -/
def envFuel : Nat := 7

/-- A payload over the limit of R247, which is refused. -/
def sealOverLimit (payload : Bytes) : Bool := decide (Config.aeadLimit < payload.length)

/-- An envelope that would be opened and whose body is over the limit of R247, which is refused. -/
def openOverLimit (cfg : Config) (raw : Bytes) : Bool :=
  decide (Config.aeadLimit + 48 < raw.length) && envMagic raw == magicBytes cfg.magic

/-- `ENV.SEAL` (R170). -/
def execEnvSeal (s : State) : Host.Outcome State Fault Refusal :=
  operate s fun inp =>
    if sealOverLimit inp.bytes then .refused .aeadLimitExceeded
    else .next (conclude s .envSeal .bytes
      (runUnit (tickSeal s.cfg) envFuel s.random (startSeal inp.bytes inp.key)))

/-- `ENV.OPEN` (R180). -/
def execEnvOpen (s : State) : Host.Outcome State Fault Refusal :=
  operate s fun inp =>
    if openOverLimit s.cfg inp.bytes then .refused .aeadLimitExceeded
    else .next (conclude s .envOpen .bytes
      (runUnit (quiet (tickOpen s.cfg)) envFuel s.random (startOpen inp.bytes inp.key)))

end Sys2Proof.Machine
end

