-- ==== Sys2Proof/Machine/Quinary.lean ====
section
/-! DEFINITION. Unit Q5 (42_quinary_codec.md): Q5.ENCODE and Q5.DECODE. -/

namespace Sys2Proof.Machine

/-- `n mod 5` as a digit (R14, R156). -/
def remainder (n : Nat) : Digit := Fin.ofNat 5 n

/-- One line of the pseudocode of R145. -/
def tickEncode (cfg : Config) (r : EncodeRegs) : Tick EncodeRegs Glyphs :=
  match r.stage with
  | .loop =>
    if r.n = 0 then .done r.g
    else .running { r with stage := .divided (r.n / Config.radix) (remainder r.n) }
  | .divided q d => .running { r with n := q, g := glyphOf cfg.alphabet d :: r.g, stage := .loop }

/-- One line of the pseudocode of R150. -/
def tickDecode (cfg : Config) (r : DecodeRegs) : Tick DecodeRegs Bytes :=
  match r.stage with
  | .scan =>
    match r.g[r.gi]? with
    | some c =>
      match indexOf cfg.alphabet c with
      | some d => .running { r with stage := .digit d }
      | none => .raised .invalidCharacter
    | none => .running { r with stage := .write (minBE r.n) }
  | .digit d => .running { r with gi := r.gi + 1, n := r.n * Config.radix + d.val, stage := .scan }
  | .write b => .done b

/-- A bound on the lines of Q5.ENCODE on `m` bytes (R157, R336): at most four digits a byte, two lines a digit. -/
def encodeFuel (m : Nat) : Nat := 8 * m + 1

/-- A bound on the lines of Q5.DECODE on `m` glyphs (R336). -/
def decodeFuel (m : Nat) : Nat := 2 * m + 2

/-- `Q5.ENCODE` (R145). -/
def execQ5Encode (s : State) : Host.Outcome State Fault Refusal :=
  operate s fun inp =>
    .next (conclude s .q5Encode .glyphs
      (runUnit (quiet (tickEncode s.cfg)) (encodeFuel inp.bytes.length) s.random (startEncode inp.bytes)))

/-- `Q5.DECODE` (R150). -/
def execQ5Decode (s : State) : Host.Outcome State Fault Refusal :=
  operate s fun inp =>
    .next (conclude s .q5Decode .bytes
      (runUnit (quiet (tickDecode s.cfg)) (decodeFuel inp.glyphs.length) s.random (startDecode inp.glyphs)))

end Sys2Proof.Machine
end

