-- ==== Sys2Proof/WellFormed.lean ====
section
/-! DEFINITION. Which instructions are well formed: the conditions by which 30_encoding.md rule R77 tells the four
token forms apart. Every operation is well formed. -/

namespace Sys2Proof

/-- The condition column of R77. -/
def Instr.wellFormed : Instr → Bool
  | .lzCompress => true
  | .lzDecompress => true
  | .tsToBytes => true
  | .tsFromBytes => true
  | .q5Encode => true
  | .q5Decode => true
  | .envSeal => true
  | .envOpen => true
  | .pipeEncrypt => true
  | .pipeDecrypt => true
  | .tNull _ => true
  | .tLit _ next => next != 0
  | .tCopy _ length => length != 0
  | .tCopyLit _ length next => length != 0 && next != 0

end Sys2Proof
end

