-- ==== Sys2Proof/Decode.lean ====
section
/-! DEFINITION. The two instruction formats of 30_encoding.md: OP8 (one byte, R85) and TOKEN40 (five bytes, R75, R76,
R91), decoded and encoded. -/

namespace Sys2Proof

/-- Why a byte string is no instruction. -/
inductive DecodeError where
  /-- a single byte that names no operation (R88) -/
  | unknownOperation (code : Byte)
  /-- neither one byte nor five bytes: no format has this length (R83, R85) -/
  | noSuchLength (length : Nat)
deriving DecidableEq, Repr

/-! ## Fields -/

/-- `f[15:8]` (R139): the high byte of a token field. -/
def hiByte (f : U16) : Byte := (f >>> 8).setWidth 8

/-- `f[7:0]` (R139): the low byte of a token field. -/
def loByte (f : U16) : Byte := f.setWidth 8

/-- `hi * 256 + lo` (R76). -/
def joinBytes (hi lo : Byte) : U16 := hi ++ lo

/-- The five bytes of a record in the order of R51 and R75. -/
def recordBytes (t : Token) : Bytes :=
  [hiByte t.offset, loByte t.offset, hiByte t.length, loByte t.length, t.next]

/-- Field assembly (R76). -/
def tokenOfRecord (r0 r1 r2 r3 r4 : Byte) : Token :=
  { offset := joinBytes r0 r1, length := joinBytes r2 r3, next := r4 }

/-- The record as one 40-bit big-endian number, bit 39 being bit 7 of byte 0 (R75). -/
def recordWord (t : Token) : BitVec 40 := t.offset ++ t.length ++ t.next

/-! ## Decoding -/

/-- The code column of R85. -/
def opCodes : List (Byte × Instr) :=
  [(0x10, .lzCompress), (0x11, .lzDecompress), (0x20, .tsToBytes), (0x21, .tsFromBytes), (0x30, .q5Encode),
   (0x31, .q5Decode), (0x40, .envSeal), (0x41, .envOpen), (0x50, .pipeEncrypt), (0x51, .pipeDecrypt)]

/-- OP8 (R85, R88). -/
def decodeOp (code : Byte) : Except DecodeError Instr :=
  match opCodes.find? (fun row => row.1 == code) with
  | some row => .ok row.2
  | none => .error (.unknownOperation code)

/-- TOKEN40: the rows of the table tried in the priority order of R91, each by its mask (every match is 0). No
record is illegal (R79). -/
def decodeToken (t : Token) : Instr :=
  if recordWord t &&& 0x0000FFFFFF#40 = 0 then .tNull t.offset
  else if recordWord t &&& 0x0000FFFF00#40 = 0 then .tLit t.offset t.next
  else if recordWord t &&& 0x00000000FF#40 = 0 then .tCopy t.offset t.length
  else .tCopyLit t.offset t.length t.next

/-- The decoder, total on any bytes: one byte is an OP8, five bytes are a TOKEN40, no other length is a format
(R83). -/
def decode : Bytes → Except DecodeError Instr
  | [code] => decodeOp code
  | [r0, r1, r2, r3, r4] => .ok (decodeToken (tokenOfRecord r0 r1 r2 r3 r4))
  | bytes => .error (.noSuchLength bytes.length)

/-! ## Encoding -/

/-- The token a token form stands for (R77, R90); an operation stands for none. -/
def Instr.token? : Instr → Option Token
  | .tNull o => some { offset := o, length := 0, next := 0 }
  | .tLit o n => some { offset := o, length := 0, next := n }
  | .tCopy o l => some { offset := o, length := l, next := 0 }
  | .tCopyLit o l n => some { offset := o, length := l, next := n }
  | .lzCompress => none
  | .lzDecompress => none
  | .tsToBytes => none
  | .tsFromBytes => none
  | .q5Encode => none
  | .q5Decode => none
  | .envSeal => none
  | .envOpen => none
  | .pipeEncrypt => none
  | .pipeDecrypt => none

/-- The bytes of an instruction: the code of R85 or the record of R75. -/
def encode : Instr → Bytes
  | .lzCompress => [0x10]
  | .lzDecompress => [0x11]
  | .tsToBytes => [0x20]
  | .tsFromBytes => [0x21]
  | .q5Encode => [0x30]
  | .q5Decode => [0x31]
  | .envSeal => [0x40]
  | .envOpen => [0x41]
  | .pipeEncrypt => [0x50]
  | .pipeDecrypt => [0x51]
  | .tNull o => recordBytes { offset := o, length := 0, next := 0 }
  | .tLit o n => recordBytes { offset := o, length := 0, next := n }
  | .tCopy o l => recordBytes { offset := o, length := l, next := 0 }
  | .tCopyLit o l n => recordBytes { offset := o, length := l, next := n }

/-! ## The table's numbering -/

/-- The token whose record, read as one 40-bit number with bit 0 least significant (R75, the table's numbering), is
`w`: stored big-endian, byte 0 is bits 39:32. -/
def tokenOfTableWord (w : Nat) : Token :=
  tokenOfRecord (BitVec.ofNat 8 (w / 2 ^ 32)) (BitVec.ofNat 8 (w / 2 ^ 24)) (BitVec.ofNat 8 (w / 2 ^ 16))
    (BitVec.ofNat 8 (w / 2 ^ 8)) (BitVec.ofNat 8 w)

/-- The instruction bytes of a table word: up to 8 bits are an OP8 byte, more are a 40-bit record (assumption 14). -/
def tableWordBytes (nbits w : Nat) : Bytes :=
  if nbits ≤ 8 then [BitVec.ofNat 8 (w % 2 ^ nbits)] else recordBytes (tokenOfTableWord (w % 2 ^ nbits))

/-- What the decoder reads from an instruction whose bits are `w`, numbered as the table numbers them. -/
def decodeTableWord (nbits w : Nat) : Option Instr :=
  match decode (tableWordBytes nbits w) with
  | .ok i => some i
  | .error _ => none

end Sys2Proof
end

