-- ==== Sys2Proof/Machine/Serializer.lean ====
section
/-! DEFINITION. Unit TS (41_token_serializer.md): TS.TOBYTES and TS.FROMBYTES, over the record format of
30_encoding.md rule R75 (Sys2Proof/Decode.lean). -/

namespace Sys2Proof.Machine

/-- The number of whole records in `m` bytes (R135, R141): a partial record at the end is not counted. -/
def recordCount (m : Nat) : Nat := m / Config.tokenBytes

/-- The record at index `ri` (R134): bytes `5ri .. 5ri+4`, none if they are not all there. -/
def recordAt (b : Bytes) (ri : Nat) : Option Token :=
  match b.drop (Config.tokenBytes * ri) with
  | r0 :: r1 :: r2 :: r3 :: r4 :: _ => some (tokenOfRecord r0 r1 r2 r3 r4)
  | _ => none

/-- One iteration of the loop of R130. -/
def tickToBytes (r : ToBytesRegs) : Tick ToBytesRegs Bytes :=
  match r.tok[r.ti]? with
  | some t => .running { r with ti := r.ti + 1, b := r.b ++ recordBytes t }
  | none => .done r.b

/-- One iteration of the loop of R134; the operation ends when no whole record is left. -/
def tickFromBytes (r : FromBytesRegs) : Tick FromBytesRegs Tokens :=
  match recordAt r.b r.ri with
  | some t => .running { r with ri := r.ri + 1, tok := append r.tok t }
  | none => .done r.tok

/-- A bound on the iterations of TS.TOBYTES (R336). -/
def toBytesFuel (t : Tokens) : Nat := t.length + 1

/-- A bound on the iterations of TS.FROMBYTES (R336). -/
def fromBytesFuel (m : Nat) : Nat := recordCount m + 1

/-- `TS.TOBYTES` (R130). -/
def execTsToBytes (s : State) : Host.Outcome State Fault Refusal :=
  operate s fun inp =>
    .next (conclude s .tsToBytes .bytes
      (runUnit (quiet tickToBytes) (toBytesFuel inp.tokens) s.random (startToBytes inp.tokens)))

/-- `TS.FROMBYTES` (R134). -/
def execTsFromBytes (s : State) : Host.Outcome State Fault Refusal :=
  operate s fun inp =>
    .next (conclude s .tsFromBytes .tokens
      (runUnit (quiet tickFromBytes) (fromBytesFuel inp.bytes.length) s.random (startFromBytes inp.bytes)))

end Sys2Proof.Machine
end

