-- ==== Sys2Proof/Machine/Pipeline.lean ====
section
/-! DEFINITION. Unit PIPE (44_pipeline.md): PIPE.ENCRYPT and PIPE.DECRYPT, each a straight line of sub-operations, the
output of one the input of the next, left on the first error with the same status (R209, R272). -/

namespace Sys2Proof.Machine

/-- The registers of ENV.SEAL at its step 2, where PIPE.ENCRYPT enters it (R195). -/
def enterSeal (payload key : Bytes) : SealRegs := { payload := payload, key := key, stage := .step2 }

/-- The registers of ENV.OPEN at its step 2, where PIPE.DECRYPT enters it (R200). -/
def enterOpen (raw key : Bytes) : OpenRegs := { raw := raw, key := key, stage := .step2 }

/-- One line of PIPE.ENCRYPT (R195): a line of the sub-operation in progress, or the hand-over to the next one. -/
def tickEncrypt (cfg : Config) (x : RandomSource) :
    PipeEncryptRegs → RandomSource × Tick PipeEncryptRegs Glyphs
  | .compress r key =>
    (x, (tickCompress cfg r).andThen (PipeEncryptRegs.compress · key)
      fun tokens => .running (.serialize (startToBytes tokens) key))
  | .serialize r key =>
    (x, (tickToBytes r).andThen (PipeEncryptRegs.serialize · key)
      fun payload => .running (.sealing (enterSeal payload key)))
  | .sealing r =>
    ((tickSeal cfg x r).1, (tickSeal cfg x r).2.andThen PipeEncryptRegs.sealing
      fun env => .running (.encode (startEncode env)))
  | .encode r => (x, (tickEncode cfg r).andThen PipeEncryptRegs.encode Tick.done)

/-- One line of PIPE.DECRYPT (R200). -/
def tickDecrypt (cfg : Config) : PipeDecryptRegs → Tick PipeDecryptRegs Bytes
  | .decode r key =>
    (tickDecode cfg r).andThen (PipeDecryptRegs.decode · key)
      fun raw => .running (.opening (enterOpen raw key))
  | .opening r =>
    (tickOpen cfg r).andThen PipeDecryptRegs.opening
      fun payload => .running (.parse (startFromBytes payload))
  | .parse r =>
    (tickFromBytes r).andThen PipeDecryptRegs.parse
      fun tokens => .running (.replay (startReplay tokens))
  | .replay r => (tickReplay r).andThen PipeDecryptRegs.replay Tick.done

/-- A bound on the lines of PIPE.ENCRYPT on `n` plaintext bytes (R196, R336): at most `n` tokens, `5n` payload bytes
and `48 + 5n` envelope bytes. -/
def encryptFuel (n : Nat) : Nat := compressFuel n + (n + 1) + envFuel + encodeFuel (48 + 5 * n)

/-- A bound on the lines of PIPE.DECRYPT on `m` glyphs (R117, R336): at most `m` bytes, `m` tokens. -/
def decryptFuel (m : Nat) : Nat := decodeFuel m + envFuel + (m + 1) + (65537 * m + 1)

/-- Whether the payload of PIPE.ENCRYPT is over the limit of R247. It has five bytes a token and at most one token a
plaintext byte (R196), so only a plaintext of more than a fifth of the limit can reach it. -/
def encryptOverLimit (cfg : Config) (x : RandomSource) (plaintext : Bytes) : Bool :=
  decide (Config.aeadLimit < 5 * plaintext.length) &&
    match (runUnit (quiet (tickCompress cfg)) (compressFuel plaintext.length) x (startCompress plaintext)).2 with
    | .done tokens => decide (Config.aeadLimit < 5 * tokens.length)
    | _ => false

/-- Whether the envelope of a cipher string is over the limit of R247. It has at most one byte a glyph, so only a
string longer than the limit can reach it. -/
def decryptOverLimit (cfg : Config) (x : RandomSource) (g : Glyphs) : Bool :=
  decide (Config.aeadLimit < g.length) &&
    match (runUnit (quiet (tickDecode cfg)) (decodeFuel g.length) x (startDecode g)).2 with
    | .done raw => openOverLimit cfg raw
    | _ => false

/-- `PIPE.ENCRYPT` (R195). -/
def execPipeEncrypt (s : State) : Host.Outcome State Fault Refusal :=
  operate s fun inp =>
    if encryptOverLimit s.cfg s.random inp.bytes then .refused .aeadLimitExceeded
    else .next (conclude s .pipeEncrypt .glyphs
      (runUnit (tickEncrypt s.cfg) (encryptFuel inp.bytes.length) s.random (startEncrypt inp.bytes inp.key)))

/-- `PIPE.DECRYPT` (R200). -/
def execPipeDecrypt (s : State) : Host.Outcome State Fault Refusal :=
  operate s fun inp =>
    if decryptOverLimit s.cfg s.random inp.glyphs then .refused .aeadLimitExceeded
    else .next (conclude s .pipeDecrypt .bytes
      (runUnit (quiet (tickDecrypt s.cfg)) (decryptFuel inp.glyphs.length) s.random
        (startDecrypt inp.glyphs inp.key)))

end Sys2Proof.Machine
end

