-- ==== Sys2Proof/Machine/Tokens.lean ====
section
/-! DEFINITION. The four token forms (30_encoding.md rule R77) as instructions of a replay in progress: each replays
the whole token `TOK[ti]` that the machine stands before and moves on to the next one (R112, R120). -/

namespace Sys2Proof.Machine

/-- A token form acts on a replay that stands before a token; elsewhere there is no `OUT` to act on. -/
def withReplay (s : State) (go : ReplayRegs → Tick ReplayRegs Bytes) : Host.Outcome State Fault Refusal :=
  match s.phase with
  | .running (.lzDecompress r) =>
    match r.stage with
    | .token => .next (conclude s .lzDecompress .bytes (s.random, go r))
    | .copy _ _ => .fault .noReplay
  | _ => .fault .noReplay

/-- `m` more iterations of the copy loop, from iteration `k` on (R114). -/
def copyBytes : Nat → Int → Nat → Bytes → Option Bytes
  | 0, _, _, out => some out
  | m + 1, s, k, out =>
    match copyByte out s k with
    | some out' => copyBytes m s (k + 1) out'
    | none => none

/-- The copy of a token (R113 to R115): the range check first, then byte by byte. -/
def copyRun (out : Bytes) (offset length : U16) : Option Bytes :=
  if copyFaults out offset length then none
  else copyBytes length.toNat (copySource out offset) 0 out

/-- `T.NULL` (R77): nothing is appended. -/
def execTNull (_offset : U16) (s : State) : Host.Outcome State Fault Refusal :=
  withReplay s fun r => .running (nextToken r r.out)

/-- `T.LIT` (R77, R116): append `next`. -/
def execTLit (_offset : U16) (next : Byte) (s : State) : Host.Outcome State Fault Refusal :=
  withReplay s fun r => .running (nextToken r (appendLiteral r.out next))

/-- `T.COPY` (R77, R113 to R115): copy `length` bytes from distance `offset`. -/
def execTCopy (offset length : U16) (s : State) : Host.Outcome State Fault Refusal :=
  withReplay s fun r =>
    match copyRun r.out offset length with
    | some out => .running (nextToken r out)
    | none => .raised .copyOutOfRange

/-- `T.COPYLIT` (R77, R113 to R116): copy, then append `next`. -/
def execTCopyLit (offset length : U16) (next : Byte) (s : State) : Host.Outcome State Fault Refusal :=
  withReplay s fun r =>
    match copyRun r.out offset length with
    | some out => .running (nextToken r (appendLiteral out next))
    | none => .raised .copyOutOfRange

end Sys2Proof.Machine
end

