-- ==== Sys2Proof/Machine/Sequencer.lean ====
section
/-! DEFINITION. The sequencer (R1): what the machine does when it stands before no instruction, that is one line of
the running operation, or waiting for the host; and the fetch of the next instruction's bytes. -/

namespace Sys2Proof.Machine

/-- A tick of one operation as a tick of the running work. -/
def asWork {ρ ω : Type} (work : ρ → Work) (out : ω → Output) (p : RandomSource × Tick ρ ω) :
    RandomSource × Tick Work Output :=
  (p.1, p.2.andThen work fun o => .done (out o))

/-- One line of the running operation. -/
def tickWork (cfg : Config) (x : RandomSource) : Work → RandomSource × Tick Work Output
  | .lzCompress r => asWork .lzCompress .tokens (quiet (tickCompress cfg) x r)
  | .lzDecompress r => asWork .lzDecompress .bytes (quiet tickReplay x r)
  | .tsToBytes r => asWork .tsToBytes .bytes (quiet tickToBytes x r)
  | .tsFromBytes r => asWork .tsFromBytes .tokens (quiet tickFromBytes x r)
  | .q5Encode r => asWork .q5Encode .glyphs (quiet (tickEncode cfg) x r)
  | .q5Decode r => asWork .q5Decode .bytes (quiet (tickDecode cfg) x r)
  | .envSeal r => asWork .envSeal .bytes (tickSeal cfg x r)
  | .envOpen r => asWork .envOpen .bytes (quiet (tickOpen cfg) x r)
  | .pipeEncrypt r => asWork .pipeEncrypt .glyphs (tickEncrypt cfg x r)
  | .pipeDecrypt r => asWork .pipeDecrypt .bytes (quiet (tickDecrypt cfg) x r)

/-- Whether the running operation holds a payload over the limit of R247. -/
def workOverLimit (cfg : Config) : Work → Bool
  | .envSeal r => sealOverLimit r.payload
  | .envOpen r => openOverLimit cfg r.raw
  | .pipeEncrypt (.sealing r) => sealOverLimit r.payload
  | .pipeDecrypt (.opening r) => openOverLimit cfg r.raw
  | _ => false

/-- What happens when the machine stands before no instruction: a running operation goes one line further; an idle
block takes the host's next start (R295), and without one does nothing (R300); a start whose OP was never written
stays where it is (R40: nothing reads OP before the host writes it). -/
def advance (s : State) : Host.Outcome State Fault Refusal :=
  match s.phase with
  | .running w =>
    if workOverLimit s.cfg w then .refused .aeadLimitExceeded
    else .next (conclude s id id (tickWork s.cfg s.random w))
  | .idle =>
    match s.host with
    | .start code inp :: rest => .next (accept s code inp rest)
    | .reset :: rest => .next (resetBlock s rest)
    | [] => .next s
  | .started _ => .next s

/-- The bytes of the instruction the machine stands before: the byte in OP when an operation is started (R31), the
record of `TOK[ti]` when LZ.DECOMPRESS stands before a token (R75, R86, R112); otherwise none. -/
def fetch (s : State) : Option Bytes :=
  match s.phase with
  | .idle => none
  | .started _ => s.op.map fun code => [code]
  | .running (.lzDecompress r) =>
    match r.stage with
    | .token => (r.tok[r.ti]?).map recordBytes
    | .copy _ _ => none
  | .running _ => none

/-- The host's reset, if that is what the host does next: it takes effect whatever the block is doing (R301). -/
def pendingReset (s : State) : Option (List HostCommand) :=
  match s.host with
  | .reset :: rest => some rest
  | _ => none

/-- The inputs a state holds for an operation about to run; without any, empty ones. -/
def heldInputs (s : State) : Inputs :=
  match s.phase with
  | .started inp => inp
  | _ => { bytes := [], tokens := [], glyphs := [], key := [] }

/-- The state with `code` in OP and an operation started on the inputs it holds. -/
def placeOp (s : State) (code : Byte) : State :=
  { s with
    op := some code
    phase := .started (heldInputs s)
    host := s.host.dropWhile fun c => c == .reset }

/-- The registers of a replay that stands before the token `t`, with the output a replay in progress has. -/
def placeTokenRegs (s : State) (t : Token) : ReplayRegs :=
  match s.phase with
  | .running (.lzDecompress r) =>
    { tok := r.tok.take r.ti ++ [t], ti := (r.tok.take r.ti).length, out := r.out, stage := .token }
  | _ => { tok := [t], ti := 0, out := [], stage := .token }

/-- The state in which LZ.DECOMPRESS (code 0x11 in OP) stands before the token `t`. -/
def placeToken (s : State) (t : Token) : State :=
  { s with
    op := some 0x11
    phase := .running (.lzDecompress (placeTokenRegs s t))
    host := s.host.dropWhile fun c => c == .reset }

/-- The state in which the next step fetches the instruction that the table word `w` spells (assumptions 14, 21). -/
def placeTableWord (s : State) (nbits w : Nat) : State :=
  if nbits ≤ 8 then placeOp s (BitVec.ofNat 8 (w % 2 ^ nbits))
  else placeToken s (tokenOfTableWord (w % 2 ^ nbits))

end Sys2Proof.Machine
end

