-- ==== Sys2Proof/Machine/Dispatch.lean ====
section
/-! DEFINITION. One arm per instruction, each one direct call of its meaning. -/

namespace Sys2Proof.Machine

def exec (i : Instr) (s : State) : Host.Outcome State Fault Refusal :=
  match i with
  | .lzCompress => Sys2Proof.Machine.execLzCompress s
  | .lzDecompress => Sys2Proof.Machine.execLzDecompress s
  | .tsToBytes => Sys2Proof.Machine.execTsToBytes s
  | .tsFromBytes => Sys2Proof.Machine.execTsFromBytes s
  | .q5Encode => Sys2Proof.Machine.execQ5Encode s
  | .q5Decode => Sys2Proof.Machine.execQ5Decode s
  | .envSeal => Sys2Proof.Machine.execEnvSeal s
  | .envOpen => Sys2Proof.Machine.execEnvOpen s
  | .pipeEncrypt => Sys2Proof.Machine.execPipeEncrypt s
  | .pipeDecrypt => Sys2Proof.Machine.execPipeDecrypt s
  | .tNull offset => Sys2Proof.Machine.execTNull offset s
  | .tLit offset next => Sys2Proof.Machine.execTLit offset next s
  | .tCopy offset length => Sys2Proof.Machine.execTCopy offset length s
  | .tCopyLit offset length next => Sys2Proof.Machine.execTCopyLit offset length next s

end Sys2Proof.Machine
end

