-- ==== Sys2Proof/Machine/Step.lean ====
section
/-! DEFINITION. One step of the machine. -/

namespace Sys2Proof.Machine

/-- One step: the host's reset if it comes next (R301); otherwise the instruction the machine stands before is
fetched, decoded and executed, a byte that names no operation being raised as `UnknownOperation` before anything else
(R88, R275); where the machine stands before no instruction it goes on as `advance` says. -/
def step (s : State) : Host.Outcome State Fault Refusal :=
  match pendingReset s with
  | some rest => .next (resetBlock s rest)
  | none =>
    match fetch s with
    | some bytes =>
      match decode bytes with
      | .ok i => exec i s
      | .error _ => .next (raise s .unknownOperation)
    | none => advance s

/-- The state with the instruction of a table word stored where `step` fetches its next instruction: an operation's
code in OP with the operation started, or a token as the next one of a replay. -/
def State.withFetchWord (s : State) (nbits w : Nat) : State := placeTableWord s nbits w

end Sys2Proof.Machine
end

