-- ==== Sys2Proof/Machine/Functions.lean ====
section
/-! DEFINITION. The operations as functions, the second form in which the rules state them (00_scope.md rule R16: the
working registers are there so that a step machine can be checked against the function). Nothing here is called by the
machine; the statements say that the machine computes these functions. -/

namespace Sys2Proof.Machine

/-! ## LZ -/

/-- The length of the longest common prefix of two byte strings. -/
def commonRun : Bytes → Bytes → Nat
  | x :: xs, y :: ys => if x = y then commonRun xs ys + 1 else 0
  | _, _ => 0

/-- The run of candidate `j` at position `pos` (R104): it may overlap `pos` and is bounded by the end of the input
only. -/
def runAt (b : Bytes) (j pos : Nat) : Nat := commonRun (b.drop j) (b.drop pos)

/-- A selected match (R105): where it was selected, its distance (0 if none) and its untruncated run. -/
structure Match where
  pos : Nat
  off : Nat
  len : Nat
deriving DecidableEq, Repr

/-- The candidates at `pos`, oldest first (R103). -/
def candidates (window pos : Nat) : List Nat := List.range' (pos - window) (pos - (pos - window))

/-- Selection and tie-break (R105): a strictly longer run replaces the incumbent. -/
def bestMatch (window : Nat) (b : Bytes) (pos : Nat) : Match :=
  (candidates window pos).foldl
    (fun best j => if best.len < runAt b j pos then { pos := pos, off := pos - j, len := runAt b j pos } else best)
    { pos := pos, off := 0, len := 0 }

/-- The matches selected from `pos` on (R101, R109): each position is one past the byte after the run before it. -/
def matchesFrom (window : Nat) (b : Bytes) : Nat → Nat → List Match
  | 0, _ => []
  | fuel + 1, pos =>
    if pos < b.length then
      bestMatch window b pos :: matchesFrom window b fuel (pos + (bestMatch window b pos).len + 1)
    else []

/-- The matches LZ.COMPRESS selects, in order (R110). -/
def selectedMatches (window : Nat) (b : Bytes) : List Match := matchesFrom window b b.length 0

/-- The token of a match (R106, R107). -/
def matchToken (b : Bytes) (m : Match) : Token := tokenOf m.off m.len (b.getD (m.pos + m.len) 0)

/-- `LZ.COMPRESS` as a function (R110, R108). -/
def compressFn (cfg : Config) (b : Bytes) : Except Status Tokens :=
  if cfg.lenOvf = .fault ∧ ∃ m ∈ selectedMatches cfg.window b, 65535 < m.len then .error .lengthOverflow
  else .ok ((selectedMatches cfg.window b).map (matchToken b))

/-- The bytes a copy appends (R114): the last `offset` bytes repeated cyclically to `length` bytes. -/
def cyclicCopy (out : Bytes) (offset length : Nat) : Bytes :=
  (List.range length).map fun k => out.getD (out.length - offset + k % offset) 0

/-- A token's literal (R116). -/
def literalOf (next : Byte) : Bytes := if next = 0 then [] else [next]

/-- One token as a function (R113 to R116). -/
def replayOne (out : Bytes) (t : Token) : Except Status Bytes :=
  if t.length ≠ 0 ∧ (t.offset = 0 ∨ out.length < t.offset.toNat) then .error .copyOutOfRange
  else .ok (out ++ cyclicCopy out t.offset.toNat t.length.toNat ++ literalOf t.next)

/-- `LZ.DECOMPRESS` as a function (R112). -/
def decompressFn (t : Tokens) : Except Status Bytes := t.foldlM replayOne []

/-! ## TS -/

/-- `TS.TOBYTES` as a function (R130, R131). -/
def toBytesFn (t : Tokens) : Bytes := t.flatMap recordBytes

/-- `TS.FROMBYTES` as a function (R134, R135). -/
def fromBytesFn : Bytes → Tokens
  | r0 :: r1 :: r2 :: r3 :: r4 :: rest => tokenOfRecord r0 r1 r2 r3 r4 :: fromBytesFn rest
  | _ => []

/-! ## Q5 -/

/-- `Q5.ENCODE` as a function (R147): the base-5 numeral of `BE(B)`, most significant digit first. -/
def encodeFn (cfg : Config) (b : Bytes) : Glyphs :=
  ((Nat.digits 5 (beNat b)).map fun d => glyphOf cfg.alphabet (Fin.ofNat 5 d)).reverse

/-- The integer a string of digits stands for, most significant first (R147, R150). -/
def digitsValue (ds : List Digit) : Nat := ds.foldl (fun n d => n * 5 + d.val) 0

/-- `Q5.DECODE` as a function (R150). -/
def decodeFn (cfg : Config) (g : Glyphs) : Except Status Bytes :=
  match g.mapM (indexOf cfg.alphabet) with
  | some ds => .ok (minBE (digitsValue ds))
  | none => .error .invalidCharacter

/-! ## ENV -/

/-- The derived key (R236). -/
def derivedKey (key salt : Bytes) : Bytes := hmac (hmac salt key) (Config.info ++ [0x01])

/-- `SEAL4` (R173): the envelope of a payload under a key and two given draws. -/
def seal4 (cfg : Config) (payload key salt nonce : Bytes) : Bytes :=
  magicBytes cfg.magic ++ salt ++ nonce ++ aeadSeal (derivedKey key salt) nonce [] payload

/-- `ENV.SEAL` as a function of the random source (R170, R173). -/
def sealFn (cfg : Config) (x : RandomSource) (payload key : Bytes) : RandomSource × Except Status Bytes :=
  match draw 16 x with
  | (x1, none) => (x1, .error .randomnessUnavailable)
  | (x1, some salt) =>
    match draw 12 x1 with
    | (x2, none) => (x2, .error .randomnessUnavailable)
    | (x2, some nonce) => (x2, .ok (seal4 cfg payload key salt nonce))

/-- `ENV.OPEN` as a function (R180). -/
def openFn (cfg : Config) (raw key : Bytes) : Except Status Bytes :=
  if raw.length < 32 then .error .formatError
  else if raw.take 4 ≠ magicBytes cfg.magic then .error .magicMismatch
  else
    match aeadOpen (derivedKey key (envSalt raw)) (envNonce raw) [] (envCiphertext raw) with
    | some payload => .ok payload
    | none => .error .decryptionFailed

/-! ## PIPE -/

/-- `PIPE.ENCRYPT` as a function of the random source (R195). -/
def encryptFn (cfg : Config) (x : RandomSource) (plaintext key : Bytes) : RandomSource × Except Status Glyphs :=
  match compressFn cfg plaintext with
  | .error e => (x, .error e)
  | .ok tokens =>
    match sealFn cfg x (toBytesFn tokens) key with
    | (x', .error e) => (x', .error e)
    | (x', .ok env) => (x', .ok (encodeFn cfg env))

/-- `PIPE.DECRYPT` as a function (R200). -/
def decryptFn (cfg : Config) (g : Glyphs) (key : Bytes) : Except Status Bytes := do
  let raw ← decodeFn cfg g
  let payload ← openFn cfg raw key
  decompressFn (fromBytesFn payload)

/-- The state after an operation with the given result: ended with `OK` and its output, or raised (R16, R270). -/
def ended {ω : Type} (s : State) (out : ω → Output) (x : RandomSource) : Except Status ω → State
  | .ok o => endOk { s with random := x } (out o)
  | .error e => raise { s with random := x } e

end Sys2Proof.Machine
end

