-- ==== Sys2Proof/Safety.lean ====
section
/-! DEFINITION. What counts as a good state and a safe run of this machine, in the terms the statements use. -/

namespace Sys2Proof.Machine

/-- The operation code of the running operation (R85). -/
def workCode : Work → Byte
  | .lzCompress _ => 0x10
  | .lzDecompress _ => 0x11
  | .tsToBytes _ => 0x20
  | .tsFromBytes _ => 0x21
  | .q5Encode _ => 0x30
  | .q5Decode _ => 0x31
  | .envSeal _ => 0x40
  | .envOpen _ => 0x41
  | .pipeEncrypt _ => 0x50
  | .pipeDecrypt _ => 0x51

/-- The registers with which operation `i` starts on the inputs; none for a token form. -/
def startWork (i : Instr) (inp : Inputs) : Option Work :=
  match i with
  | .lzCompress => some (.lzCompress (startCompress inp.bytes))
  | .lzDecompress => some (.lzDecompress (startReplay inp.tokens))
  | .tsToBytes => some (.tsToBytes (startToBytes inp.tokens))
  | .tsFromBytes => some (.tsFromBytes (startFromBytes inp.bytes))
  | .q5Encode => some (.q5Encode (startEncode inp.bytes))
  | .q5Decode => some (.q5Decode (startDecode inp.glyphs))
  | .envSeal => some (.envSeal (startSeal inp.bytes inp.key))
  | .envOpen => some (.envOpen (startOpen inp.bytes inp.key))
  | .pipeEncrypt => some (.pipeEncrypt (startEncrypt inp.bytes inp.key))
  | .pipeDecrypt => some (.pipeDecrypt (startDecrypt inp.glyphs inp.key))
  | .tNull _ => none
  | .tLit _ _ => none
  | .tCopy _ _ => none
  | .tCopyLit _ _ _ => none

/-- The ten operations (R5). -/
def isOperation (i : Instr) : Bool := i.token?.isNone

/-- The operations that ask the random source (R21, R33). -/
def isDrawing (i : Instr) : Bool := i == .envSeal || i == .pipeEncrypt

/-- The statuses LZ.COMPRESS can end with (R262). -/
def compressStatuses (ovf : LenOvf) : List Status :=
  match ovf with
  | .truncate => [.ok]
  | .fault => [.ok, .lengthOverflow]

/-- The statuses an operation can end with (R262), without the two formal ones that nothing raises (R188). -/
def allowedStatuses (ovf : LenOvf) : Instr → List Status
  | .lzCompress => compressStatuses ovf
  | .lzDecompress => [.ok, .copyOutOfRange]
  | .tsToBytes => [.ok]
  | .tsFromBytes => [.ok]
  | .q5Encode => [.ok]
  | .q5Decode => [.ok, .invalidCharacter]
  | .envSeal => [.ok, .randomnessUnavailable]
  | .envOpen => [.ok, .formatError, .magicMismatch, .decryptionFailed]
  | .pipeEncrypt => .randomnessUnavailable :: compressStatuses ovf
  | .pipeDecrypt => [.ok, .invalidCharacter, .formatError, .magicMismatch, .decryptionFailed, .copyOutOfRange]
  | .tNull _ => []
  | .tLit _ _ => []
  | .tCopy _ _ => [.copyOutOfRange]
  | .tCopyLit _ _ _ => [.copyOutOfRange]

/-! ## Good registers -/

/-- LZ.COMPRESS (R22, R103 to R105): `N` is `|IN|`, the candidate lies before the position, the run inside the input. -/
def compressOk (cfg : Config) (r : CompressRegs) : Prop :=
  r.n = r.input.length ∧
    match r.stage with
    | .scan => True
    | .candidate lo j bestLen bestOff =>
      r.pos < r.n ∧ lo = r.pos - cfg.window ∧ lo ≤ j ∧ j ≤ r.pos ∧ r.pos + bestLen ≤ r.n ∧ bestOff ≤ cfg.window
    | .run lo j l bestLen bestOff =>
      r.pos < r.n ∧ lo = r.pos - cfg.window ∧ lo ≤ j ∧ j < r.pos ∧ r.pos + l ≤ r.n ∧ r.pos + bestLen ≤ r.n
        ∧ bestOff ≤ cfg.window
    | .emit lo bestLen bestOff _ =>
      r.pos < r.n ∧ lo = r.pos - cfg.window ∧ r.pos + bestLen ≤ r.n ∧ bestOff ≤ cfg.window

/-- LZ.DECOMPRESS (R23, R115, R116): `ti` within the tokens, no zero byte in `OUT`, the copy source inside `OUT`. -/
def replayOk (r : ReplayRegs) : Prop :=
  r.ti ≤ r.tok.length ∧ 0 ∉ r.out ∧
    match r.stage with
    | .token => True
    | .copy s k => ∃ t, r.tok[r.ti]? = some t ∧ k ≤ t.length.toNat ∧ (t.length ≠ 0 → 0 ≤ s ∧ s + k < r.out.length)

/-- TS.TOBYTES (R25, R131): `B` holds the records of the tokens before `ti`. -/
def toBytesOk (r : ToBytesRegs) : Prop := r.ti ≤ r.tok.length ∧ r.b = toBytesFn (r.tok.take r.ti)

/-- TS.FROMBYTES (R25, R135): one token for each record read, and only whole records. -/
def fromBytesOk (r : FromBytesRegs) : Prop := r.tok.length = r.ri ∧ 5 * r.ri ≤ r.b.length

/-- Q5.ENCODE (R26, R156): quotient and remainder are those of `n`. -/
def encodeOk (r : EncodeRegs) : Prop :=
  match r.stage with
  | .loop => True
  | .divided q d => r.n = 5 * q + d.val

/-- Q5.DECODE (R26): `gi` within the glyphs; a digit belongs to a glyph; the output has no leading zero byte (R152). -/
def decodeOk (r : DecodeRegs) : Prop :=
  match r.stage with
  | .scan => r.gi ≤ r.g.length
  | .digit _ => r.gi < r.g.length
  | .write b => b.head? ≠ some 0

/-- ENV.SEAL (R27): the widths of `salt`, `dk` and `nonce`. -/
def sealOk (r : SealRegs) : Prop :=
  match r.stage with
  | .step1 => True
  | .step2 => True
  | .step3 salt => salt.length = 16
  | .step4 salt dk => salt.length = 16 ∧ dk.length = 32
  | .step5 salt dk => salt.length = 16 ∧ dk.length = 32
  | .step6 salt dk nonce => salt.length = 16 ∧ dk.length = 32 ∧ nonce.length = 12
  | .step7 salt nonce ct => salt.length = 16 ∧ nonce.length = 12 ∧ ct.length = r.payload.length + 16

/-- ENV.OPEN (R27, R181, R182): past step 2 the length was checked, past step 3 the magic; the widths of the
registers. -/
def openOk (cfg : Config) (r : OpenRegs) : Prop :=
  match r.stage with
  | .step1 => True
  | .step2 => True
  | .step3 => 32 ≤ r.raw.length
  | .step4 => 32 ≤ r.raw.length ∧ envMagic r.raw = magicBytes cfg.magic
  | .step5 salt nonce ct =>
    32 ≤ r.raw.length ∧ envMagic r.raw = magicBytes cfg.magic ∧ salt.length = 16 ∧ nonce.length = 12
      ∧ r.raw = magicBytes cfg.magic ++ salt ++ nonce ++ ct
  | .step6 salt nonce ct dk =>
    32 ≤ r.raw.length ∧ envMagic r.raw = magicBytes cfg.magic ∧ salt.length = 16 ∧ nonce.length = 12
      ∧ r.raw = magicBytes cfg.magic ++ salt ++ nonce ++ ct ∧ dk.length = 32

/-- The registers of the running operation are good. -/
def workOk (cfg : Config) : Work → Prop
  | .lzCompress r => compressOk cfg r
  | .lzDecompress r => replayOk r
  | .tsToBytes r => toBytesOk r
  | .tsFromBytes r => fromBytesOk r
  | .q5Encode r => encodeOk r
  | .q5Decode r => decodeOk r
  | .envSeal r => sealOk r
  | .envOpen r => openOk cfg r
  | .pipeEncrypt (.compress r _) => compressOk cfg r
  | .pipeEncrypt (.serialize r _) => toBytesOk r
  | .pipeEncrypt (.sealing r) => sealOk r
  | .pipeEncrypt (.encode r) => encodeOk r
  | .pipeDecrypt (.decode r _) => decodeOk r
  | .pipeDecrypt (.opening r) => openOk cfg r
  | .pipeDecrypt (.parse r) => fromBytesOk r
  | .pipeDecrypt (.replay r) => replayOk r

/-! ## Good states -/

/-- The operations whose output is a decompression (R116, R206). -/
def decompresses (code : Byte) : Bool := code == 0x11 || code == 0x51

/-- A good state: what every step keeps. -/
structure Inv (s : State) : Prop where
  /-- only the codes of R260 are ever in STATUS -/
  statusLegal : s.status.toNat ≤ 0x0A
  /-- an error comes with no output (R16, R270) -/
  noPartialResult : s.status ≠ 0 → s.output = none
  /-- OP holds a value unless the block is idle (R31, R40) -/
  opHeld : s.phase ≠ .idle → s.op ≠ none
  /-- the running operation is the one OP names, and its registers are good -/
  workGood : ∀ w, s.phase = .running w → s.op = some (workCode w) ∧ workOk s.cfg w
  /-- what a decompression delivered holds no zero byte (R116) -/
  outputNulFree : ∀ code b, s.phase = .idle → s.op = some code → decompresses code = true →
    s.output = some (.bytes b) → 0 ∉ b

/-- `k` steps from `s` end in `t`. -/
def RunsTo (s : State) (k : Nat) (t : State) : Prop := Sys2Proof.core.run k s = .next t

end Sys2Proof.Machine
end

