-- ==== Sys2Proof/Certificates/Slice0/Obligations.lean ====
section
/-! DEFINITION. The statements for the provers. Each docstring names the rules of spec/ it rests on, and the assumption
log's entries where a clause is the model's own choice. Where a conclusion gives the whole next state, what it says
beyond the rules named (OP keeps its code, inferred from R31, where only the host writes it, against the letter of R300;
the host's list is unchanged) is the model's frame: assumptions 9 and 8. -/

open Sys2Proof Sys2Proof.Machine

/-! ## Encodings -/

/-- Decode and encode agree on every well-formed instruction, with every operand at every value (R75 to R77, R85). -/
def Obligations.DecodeOfEncodeIsTheInstruction : Prop :=
  ∀ i : Instr, i.wellFormed = true → decode (encode i) = .ok i

/-- The other direction: a byte string that decodes is the encoding of a well-formed instruction, so each instruction
has one spelling and no bit is dropped. And R76: the tokens that TS.FROMBYTES delivers have their fields assembled
from the record's bytes, big-endian and unsigned, and the bytes that TS.TOBYTES delivers are those fields' bytes. -/
def Obligations.DecodedBytesAreTheEncoding : Prop :=
  (∀ (bytes : Bytes) (i : Instr), decode bytes = .ok i → i.wellFormed = true ∧ encode i = bytes) ∧
  (∀ (s : State) (inp : Inputs), s.phase = .started inp →
    ∃ t ts, exec .tsFromBytes s = .next t ∧ t.output = some (.tokens ts) ∧
      ∀ i r0 r1 r2 r3 r4, (inp.bytes.drop (5 * i)).take 5 = [r0, r1, r2, r3, r4] →
        ∃ k, ts[i]? = some k ∧ k.offset.toNat = r0.toNat * 256 + r1.toNat ∧
          k.length.toNat = r2.toNat * 256 + r3.toNat ∧ k.next = r4) ∧
  (∀ (s : State) (inp : Inputs), s.phase = .started inp →
    ∃ t b, exec .tsToBytes s = .next t ∧ t.output = some (.bytes b) ∧
      ∀ i k, inp.tokens[i]? = some k →
        ∃ b0 b1 b2 b3, (b.drop (5 * i)).take 5 = [b0, b1, b2, b3, k.next] ∧
          b0.toNat = k.offset.toNat / 256 ∧ b1.toNat = k.offset.toNat % 256 ∧
          b2.toNat = k.length.toNat / 256 ∧ b3.toNat = k.length.toNat % 256)

/-- R88: a byte names an operation exactly when it is one of the ten codes of R85. -/
def Obligations.OnlyTheTenCodesNameAnOperation : Prop :=
  ∀ code : Byte, (∃ i, decode [code] = .ok i) ↔
    code ∈ [0x10, 0x11, 0x20, 0x21, 0x30, 0x31, 0x40, 0x41, 0x50, 0x51]

/-- A few words written out from R75 and R85 decode to the instruction they stand for. -/
def Obligations.WrittenOutWordsDecode : Prop :=
  decode [0x10] = .ok .lzCompress ∧ decode [0x31] = .ok .q5Decode ∧ decode [0x51] = .ok .pipeDecrypt ∧
  decode [0x12, 0x34, 0x00, 0x00, 0x00] = .ok (.tNull 0x1234) ∧
  decode [0xFF, 0xFF, 0x00, 0x00, 0x43] = .ok (.tLit 0xFFFF 0x43) ∧
  decode [0x00, 0x02, 0x00, 0x01, 0x00] = .ok (.tCopy 2 1) ∧
  decode [0x00, 0x02, 0x00, 0x03, 0x43] = .ok (.tCopyLit 2 3 0x43)

/-! ## What each operation computes: started on its inputs, it ends with exactly this state -/

/-- LZ.COMPRESS (R100 to R109): the tokens of the greedy oldest-first matches, or LengthOverflow. That OP keeps its
code and the host's list is unchanged is the model's frame (assumptions 9, 8). -/
def Obligations.LzCompressEmitsTheGreedyMatches : Prop :=
  ∀ (s : State) (inp : Inputs), s.phase = .started inp →
    exec .lzCompress s = .next (ended s .tokens s.random (compressFn s.cfg inp.bytes))

/-- LZ.DECOMPRESS (R112 to R116): every token in order, each copy cyclic, or CopyOutOfRange. (The spec marks R116 as
its own inference.) That OP keeps its code and the host's list is unchanged is the model's frame (assumptions 9, 8).
-/
def Obligations.LzDecompressReplaysTheTokens : Prop :=
  ∀ (s : State) (inp : Inputs), s.phase = .started inp →
    exec .lzDecompress s = .next (ended s .bytes s.random (decompressFn inp.tokens))

/-- TS.TOBYTES (R130, R131): always ends with `OK` (R130); exactly five bytes a token, token `i` at bytes `5i ..
5i+4`, and nothing else in the buffer (R131). That OP keeps its code and the host's list is unchanged is the model's
frame (assumptions 9, 8). -/
def Obligations.TsToBytesWritesFiveBytesAToken : Prop :=
  ∀ (s : State) (inp : Inputs), s.phase = .started inp →
    ∃ b, exec .tsToBytes s = .next (endOk s (.bytes b)) ∧ b.length = 5 * inp.tokens.length ∧
      ∀ i t, inp.tokens[i]? = some t → (b.drop (5 * i)).take 5 = recordBytes t

/-- TS.FROMBYTES (R134, R135): always ends with `OK`; exactly `floor(|B| / 5)` tokens, token `i` assembled from bytes
`5i .. 5i+4`; a partial record at the end is read by nothing. That OP keeps its code and the host's list is unchanged
is the model's frame (assumptions 9, 8). -/
def Obligations.TsFromBytesReadsWholeRecords : Prop :=
  ∀ (s : State) (inp : Inputs), s.phase = .started inp →
    ∃ ts, exec .tsFromBytes s = .next (endOk s (.tokens ts)) ∧ ts.length = inp.bytes.length / 5 ∧
      ∀ i t, ts[i]? = some t → recordBytes t = (inp.bytes.drop (5 * i)).take 5

/-- Q5.ENCODE (R145, R147): always `OK`, the base-5 numeral of the buffer's integer. (The spec marks R147 as its own
inference.) That OP keeps its code and the host's list is unchanged is the model's frame (assumptions 9, 8). -/
def Obligations.Q5EncodeWritesTheNumeral : Prop :=
  ∀ (s : State) (inp : Inputs), s.phase = .started inp →
    exec .q5Encode s = .next (endOk s (.glyphs (encodeFn s.cfg inp.bytes)))

/-- Q5.DECODE (R150 to R152): the minimal bytes of the integer, or InvalidCharacter; a string of alphabet glyphs
always decodes. That OP keeps its code and the host's list is unchanged is the model's frame (assumptions 9, 8). -/
def Obligations.Q5DecodeReadsTheNumeral : Prop :=
  ∀ (s : State) (inp : Inputs), s.phase = .started inp →
    exec .q5Decode s = .next (ended s .bytes s.random (decodeFn s.cfg inp.glyphs)) ∧
    ∀ ds : List Digit, inp.glyphs = ds.map (glyphOf s.cfg.alphabet) →
      exec .q5Decode s = .next (endOk s (.bytes (minBE (digitsValue ds))))

/-- ENV.SEAL (R170, R173): the two draws in order, then the envelope of SEAL4; a failed draw ends it. (The spec marks
R173 as its own inference.) That OP keeps its code and the host's list is unchanged is the model's frame (assumptions
9, 8). -/
def Obligations.EnvSealFramesAndEncrypts : Prop :=
  ∀ (s : State) (inp : Inputs), s.phase = .started inp → inp.bytes.length ≤ Config.aeadLimit →
    exec .envSeal s = .next
      (ended s .bytes (sealFn s.cfg s.random inp.bytes inp.key).1 (sealFn s.cfg s.random inp.bytes inp.key).2)

/-- ENV.OPEN (R180): length, magic, tag, in this order; then the payload. Only an envelope with the right magic and a
body over the AEAD's limit is left out (assumption 11). That OP keeps its code and the host's list is unchanged is the
model's frame (assumptions 9, 8). -/
def Obligations.EnvOpenChecksAndDecrypts : Prop :=
  ∀ (s : State) (inp : Inputs), s.phase = .started inp →
    (inp.bytes.length ≤ Config.aeadLimit + 48 ∨ inp.bytes.take 4 ≠ magicBytes s.cfg.magic) →
    exec .envOpen s = .next (ended s .bytes s.random (openFn s.cfg inp.bytes inp.key))

/-- PIPE.ENCRYPT (R195): compress, serialize, seal, encode, left on the first error, for every plaintext whose payload
is within the AEAD's limit. That OP keeps its code and the host's list is unchanged is the model's frame (assumptions
9, 8). -/
def Obligations.PipeEncryptChainsTheUnits : Prop :=
  ∀ (s : State) (inp : Inputs), s.phase = .started inp →
    (∀ ts, compressFn s.cfg inp.bytes = .ok ts → 5 * ts.length ≤ Config.aeadLimit) →
    exec .pipeEncrypt s = .next
      (ended s .glyphs (encryptFn s.cfg s.random inp.bytes inp.key).1
        (encryptFn s.cfg s.random inp.bytes inp.key).2)

/-- PIPE.DECRYPT (R200): decode, open, parse, decompress, left on the first error, for every string but those that
decode to an envelope which ENV.OPEN refuses. That OP keeps its code and the host's list is unchanged is the model's
frame (assumptions 9, 8). -/
def Obligations.PipeDecryptChainsTheUnits : Prop :=
  ∀ (s : State) (inp : Inputs), s.phase = .started inp →
    (∀ raw, decodeFn s.cfg inp.glyphs = .ok raw →
      raw.length ≤ Config.aeadLimit + 48 ∨ raw.take 4 ≠ magicBytes s.cfg.magic) →
    exec .pipeDecrypt s = .next (ended s .bytes s.random (decryptFn s.cfg inp.glyphs inp.key))

/-! ## What each token form does to a replay that stands before it -/

/-- T.NULL (R77): nothing is appended; the replay stands before the next token and nothing else changed. That OP keeps
its code and the host's list is unchanged is the model's frame (assumptions 9, 8). -/
def Obligations.NullTokenOnlyMovesOn : Prop :=
  ∀ (s : State) (r : ReplayRegs) (o : U16), s.phase = .running (.lzDecompress r) → r.stage = .token →
    exec (.tNull o) s = .next { s with phase := .running (.lzDecompress { r with ti := r.ti + 1 }) }

/-- T.LIT (R77, R116): its byte is appended to OUT and nothing else changed, whatever the offset. (The spec marks R116
as its own inference.) That OP keeps its code and the host's list is unchanged is the model's frame (assumptions 9,
8). -/
def Obligations.LiteralTokenAppendsItsByte : Prop :=
  ∀ (s : State) (r : ReplayRegs) (o : U16) (n : Byte), s.phase = .running (.lzDecompress r) → r.stage = .token →
    n ≠ 0 →
    exec (.tLit o n) s = .next
      { s with phase := .running (.lzDecompress { r with ti := r.ti + 1, out := r.out ++ [n] }) }

/-- T.COPY and T.COPYLIT with a source inside OUT (R114, R116): the last `offset` bytes repeated cyclically to
`length` bytes, then the literal; nothing else changed. (The spec marks R116 as its own inference.) That OP keeps its
code and the host's list is unchanged is the model's frame (assumptions 9, 8). -/
def Obligations.CopyTokensRepeatTheLastBytes : Prop :=
  ∀ (s : State) (r : ReplayRegs) (o l : U16) (n : Byte), s.phase = .running (.lzDecompress r) → r.stage = .token →
    o ≠ 0 → o.toNat ≤ r.out.length → n ≠ 0 →
    exec (.tCopy o l) s = .next
      { s with phase := .running (.lzDecompress
        { r with ti := r.ti + 1, out := r.out ++ cyclicCopy r.out o.toNat l.toNat }) } ∧
    exec (.tCopyLit o l n) s = .next
      { s with phase := .running (.lzDecompress
        { r with ti := r.ti + 1, out := r.out ++ cyclicCopy r.out o.toNat l.toNat ++ [n] }) }

/-- R115, R270: a copy whose source is not inside OUT ends the operation with CopyOutOfRange, no output, the replay's
registers gone and nothing else changed. That OP keeps its code and the host's list is unchanged is the model's frame
(assumptions 9, 8). -/
def Obligations.CopyOutOfRangeEndsTheReplay : Prop :=
  ∀ (s : State) (r : ReplayRegs) (o l : U16) (n : Byte), s.phase = .running (.lzDecompress r) → r.stage = .token →
    l ≠ 0 → (o = 0 ∨ r.out.length < o.toNat) →
    exec (.tCopy o l) s = .next { s with status := 0x08, output := none, phase := .idle } ∧
    exec (.tCopyLit o l n) s = .next { s with status := 0x08, output := none, phase := .idle }

/-! ## The step -/

/-- A step runs the instruction that the fetched bytes decode to, unless the host resets the block first (the model's
grain of a step, assumptions 7, 8 and 20). -/
def Obligations.StepRunsTheDecodedInstruction : Prop :=
  ∀ (s : State) (bytes : Bytes) (i : Instr), pendingReset s = none → fetch s = some bytes → decode bytes = .ok i →
    step s = exec i s

/-- Where the machine stands before an instruction (R31, R112; the reading as a fetch is the model's, assumption 7):
OP of a started operation, or the next record of a replay. -/
def Obligations.FetchReadsOpOrTheNextRecord : Prop :=
  (∀ (s : State) (inp : Inputs) (code : Byte), s.phase = .started inp → s.op = some code → fetch s = some [code]) ∧
  (∀ (s : State) (r : ReplayRegs) (t : Token), s.phase = .running (.lzDecompress r) → r.stage = .token →
    r.tok[r.ti]? = some t → fetch s = some (recordBytes t))

/-- A code that names no operation is refused with UnknownOperation and no output, and nothing runs, so no draw is
made (R88); the block is idle then (R270). That no reset comes first is a premise on the model's host list
(assumptions 8, 20). That OP keeps its code and the host's list is unchanged is the model's frame (assumptions 9, 8).
-/
def Obligations.UnknownCodeIsRefusedWithItsStatus : Prop :=
  ∀ (s : State) (inp : Inputs) (code : Byte), pendingReset s = none → s.phase = .started inp → s.op = some code →
    code ∉ [0x10, 0x11, 0x20, 0x21, 0x30, 0x31, 0x40, 0x41, 0x50, 0x51] →
    step s = .next { s with status := 0x0A, output := none, phase := .idle }

/-- R300, R301: reset takes effect whatever the block is doing; the operation is abandoned without status or output,
the constants stay and no draw is given back (the host's list is the model's, assumptions 8 and 20). -/
def Obligations.ResetAbandonsWhateverRuns : Prop :=
  ∀ (s : State) (rest : List HostCommand), s.host = .reset :: rest →
    step s = .next { s with op := none, status := 0, output := none, phase := .idle, host := rest }

/-- R31, R295, R300 and the model's host list (assumption 8): an idle block takes the host's start, and does nothing
without one. -/
def Obligations.IdleBlockWaitsForTheHost : Prop :=
  (∀ (s : State) (code : Byte) (inp : Inputs) (rest : List HostCommand), s.phase = .idle →
    s.host = .start code inp :: rest →
    step s = .next { s with op := some code, phase := .started inp, host := rest }) ∧
  (∀ s : State, s.phase = .idle → s.host = [] → step s = .next s)

/-- The model's reading of a start (assumptions 7, 8): from idle, two steps take the host's start and run the whole
operation. -/
def Obligations.HostStartRunsTheWholeOperation : Prop :=
  ∀ (s : State) (code : Byte) (inp : Inputs) (rest : List HostCommand) (i : Instr), s.phase = .idle →
    s.host = .start code inp :: rest → rest.head? ≠ some .reset → decode [code] = .ok i →
    Sys2Proof.core.run 2 s = exec i (accept s code inp rest)

/-- R24, R112: after its last token a replay ends with `OK` and OUT (as one step of its own: assumption 7). That OP
keeps its code and the host's list is unchanged is the model's frame (assumptions 9, 8). -/
def Obligations.ReplayEndsAfterTheLastToken : Prop :=
  ∀ (s : State) (r : ReplayRegs), pendingReset s = none → s.phase = .running (.lzDecompress r) → r.stage = .token →
    r.ti = r.tok.length →
    step s = .next { s with status := 0, output := some (.bytes r.out), phase := .idle }

/-- What `exec` answers outside its phase, a choice of the model (assumption 13): an operation nobody started and a
token outside a replay fault. -/
def Obligations.ExecFaultsOutsideItsPhase : Prop :=
  ∀ (i : Instr) (s : State),
    (isOperation i = true → (∀ inp, s.phase ≠ .started inp) → exec i s = .fault .notStarted) ∧
    (isOperation i = false → (∀ r, s.phase ≠ .running (.lzDecompress r)) → exec i s = .fault .noReplay)

/-- No step faults, from any state whatever: the block's own faults are statuses (R260, R270); the model's two faults
(assumption 13) are out of a step's reach. -/
def Obligations.StepNeverFaults : Prop :=
  ∀ (s : State) (f : Fault), step s ≠ .fault f

/-- R247: a payload over the AEAD's limit is refused, sealed or opened, alone or in the pipeline (which envelope is
refused on opening is the model's choice, assumption 11). -/
def Obligations.OverlongPayloadIsRefused : Prop :=
  ∀ (s : State) (inp : Inputs), s.phase = .started inp →
    (Config.aeadLimit < inp.bytes.length → exec .envSeal s = .refused .aeadLimitExceeded) ∧
    (Config.aeadLimit + 48 < inp.bytes.length → inp.bytes.take 4 = magicBytes s.cfg.magic →
      exec .envOpen s = .refused .aeadLimitExceeded) ∧
    (∀ ts, compressFn s.cfg inp.bytes = .ok ts → Config.aeadLimit < 5 * ts.length →
      exec .pipeEncrypt s = .refused .aeadLimitExceeded) ∧
    (∀ raw, decodeFn s.cfg inp.glyphs = .ok raw → Config.aeadLimit + 48 < raw.length →
      raw.take 4 = magicBytes s.cfg.magic → exec .pipeDecrypt s = .refused .aeadLimitExceeded)

/-! ## Invariants and frames -/

/-- Every step keeps the good states: a legal STATUS (R260), no output beside an error (R16, R270), working registers
in their bounds (R22 to R28), no zero byte in what is decompressed (R116, which the spec marks as its own inference).
-/
def Obligations.EveryStepKeepsTheInvariant : Prop :=
  ∀ s t : State, Inv s → step s = .next t → Inv t

/-- The state after reset is good (R40, R300). -/
def Obligations.ResetStateIsGood : Prop := Inv State.reset

/-- R40, R300: what reset leaves: idle, `STATUS` 0, OP without a value, no output (assumption 10), `WINDOW` 1024 and
`LEN_OVF` truncate (R7, R12). -/
def Obligations.ResetLeavesTheBlockIdle : Prop :=
  State.reset.phase = .idle ∧ State.reset.status = 0 ∧ State.reset.op = none ∧ State.reset.output = none ∧
  State.reset.cfg.window = 1024 ∧ State.reset.cfg.lenOvf = .truncate

/-- R30: no step writes a configuration constant. -/
def Obligations.ConstantsAreNeverWritten : Prop :=
  ∀ s t : State, step s = .next t → t.cfg = s.cfg

/-- The frame of the ten operations: when one has run the block is idle, so no working register and no key exists
(R40), the constants are unchanged (R20, R30), and only ENV.SEAL and PIPE.ENCRYPT touch the random source (R33). Two
clauses are the model's: OP keeps its code (assumption 9: inferred from R31, where only the host writes OP, against
the letter of R300), and the host's list is unchanged (assumption 8: the list itself is the model's). -/
def Obligations.OperationsEndIdleAndKeepTheRest : Prop :=
  ∀ (i : Instr) (s t : State), isOperation i = true → exec i s = .next t →
    t.phase = .idle ∧ t.cfg = s.cfg ∧ t.op = s.op ∧ t.host = s.host ∧
    (isDrawing i = false → t.random = s.random)

/-- The frame of the four token forms (R56, R69, R113): the token sequence is not written, OUT only grows, `ti` moves
on by one; STATUS and output change only when the replay ends (R115, R270). Two clauses are the model's, also where
the replay ends with CopyOutOfRange: OP keeps its code (assumption 9: inferred from R31) and the host's list is
unchanged (assumption 8). -/
def Obligations.TokensOnlyAppend : Prop :=
  ∀ (i : Instr) (s t : State), isOperation i = false → exec i s = .next t →
    t.cfg = s.cfg ∧ t.op = s.op ∧ t.host = s.host ∧ t.random = s.random ∧
    ((t.phase = .idle ∧ t.status = 0x08 ∧ t.output = none) ∨
      (t.status = s.status ∧ t.output = s.output ∧
        ∃ r r', s.phase = .running (.lzDecompress r) ∧ t.phase = .running (.lzDecompress r') ∧
          r'.tok = r.tok ∧ r'.ti = r.ti + 1 ∧ r'.stage = .token ∧ r.out <+: r'.out))

/-- R262, without the two formal statuses (R188): which statuses an operation can end with; and `OK` is the one that
comes with an output (R16, R260). (The spec marks R262 as its own inference.) -/
def Obligations.OperationsEndOnlyWithTheirStatuses : Prop :=
  ∀ (i : Instr) (s t : State), isOperation i = true → exec i s = .next t →
    (∃ e ∈ allowedStatuses s.cfg.lenOvf i, t.status = statusCode e) ∧ (t.status = 0 ↔ t.output ≠ none)

/-- Two starts with the same inputs, constants and random source: if `exec` ends one, it ends the other, with the same status
and the same output, whatever status, output, OP and host list stood there before (R66, R36, R303). That what is left
of the random source is the same too rests on the model's random source (assumption 6). -/
def Obligations.ResultDependsOnInputsOnly : Prop :=
  ∀ (i : Instr) (s s' t : State), isOperation i = true → s.cfg = s'.cfg → s.phase = s'.phase →
    s.random = s'.random → exec i s = .next t →
    ∃ t', exec i s' = .next t' ∧ t.status = t'.status ∧ t.output = t'.output ∧ t.random = t'.random

/-- R16: run line by line from its working registers, every operation reaches the state that `exec` gives it, whatever
starts the host has in store, as long as no reset comes first (the grain of a line is the model's, assumption 7; the
host's list, assumption 8). For LZ.DECOMPRESS these are steps over its tokens. -/
def Obligations.LineByLineReachesTheSameEnd : Prop :=
  ∀ (i : Instr) (s t : State) (inp : Inputs) (w : Work), s.phase = .started inp → pendingReset s = none →
    startWork i inp = some w → exec i s = .next t →
    ∃ k, RunsTo { s with phase := .running w } k t

/-- R112, R120: LZ.DECOMPRESS is its token stream run as a program: within one step a token and one more (assumption
7), the machine placed before the first token is where `exec` leaves it, whatever starts the host has in store, as
long as no reset comes first (assumption 8). -/
def Obligations.TokenStreamRunsAsAProgram : Prop :=
  ∀ (s t : State) (inp : Inputs), s.phase = .started inp → pendingReset s = none →
    exec .lzDecompress s = .next t →
    ∃ k, k ≤ inp.tokens.length + 1 ∧
      RunsTo { s with phase := .running (.lzDecompress (startReplay inp.tokens)) } k t

/-! ## Unit LZ -/

/-- R104: the run of a candidate is the largest `l` with `pos + l <= N` and equal bytes, so it may reach past `pos`
and has no other bound; it stops at the first mismatch or at the end of the input, and every index compared is inside
the input. -/
def Obligations.RunIsTheLongestCommonOne : Prop :=
  ∀ (b : Bytes) (j pos : Nat), j < pos → pos ≤ b.length →
    pos + runAt b j pos ≤ b.length ∧
    (∀ i, i < runAt b j pos → b[j + i]? = b[pos + i]?) ∧
    (pos + runAt b j pos = b.length ∨ b[j + runAt b j pos]? ≠ b[pos + runAt b j pos]?) ∧
    (∀ l, pos + l < b.length → j + l < b.length) ∧
    (∀ l, pos + l ≤ b.length → (∀ i, i < l → b[j + i]? = b[pos + i]?) → l ≤ runAt b j pos)

/-- R103, R105: the candidates are the indices from `pos - WINDOW` (or 0) to `pos - 1`, oldest first; a candidate
replaces the incumbent exactly when its run is strictly longer; so the selected run is the maximum over the window,
and its distance the largest that attains it, distance 0 and run 0 coming together. Every match that LZ.COMPRESS
selects is the one selected at its position. -/
def Obligations.SelectionIsLongestThenOldest : Prop :=
  ∀ (window : Nat) (b : Bytes) (pos : Nat),
    (∀ j, j ∈ candidates window pos ↔ pos - window ≤ j ∧ j < pos) ∧ (candidates window pos).Pairwise (· < ·) ∧
    (∃ inc : Nat → Match, inc 0 = { pos := pos, off := 0, len := 0 } ∧
      (∀ k j, (candidates window pos)[k]? = some j →
        inc (k + 1) =
          if (inc k).len < runAt b j pos then { pos := pos, off := pos - j, len := runAt b j pos } else inc k) ∧
      bestMatch window b pos = inc (candidates window pos).length) ∧
    (∀ m ∈ selectedMatches window b, m = bestMatch window b m.pos) ∧
    (∀ j, pos - window ≤ j → j < pos → runAt b j pos ≤ (bestMatch window b pos).len) ∧
    ((bestMatch window b pos).len = 0 ↔ (bestMatch window b pos).off = 0) ∧
    ((bestMatch window b pos).len ≠ 0 →
      (bestMatch window b pos).off ≤ window ∧ (bestMatch window b pos).off ≤ pos ∧
      runAt b (pos - (bestMatch window b pos).off) pos = (bestMatch window b pos).len ∧
      ∀ j, pos - window ≤ j → j < pos - (bestMatch window b pos).off →
        runAt b j pos < (bestMatch window b pos).len)

/-- R110: the tokens partition the input: each match starts one past the byte after the run before it, the first at 0,
and the last one covers the end. (The spec marks R110 as its own inference.) -/
def Obligations.MatchesPartitionTheInput : Prop :=
  ∀ (window : Nat) (b : Bytes),
    ((selectedMatches window b).map Match.pos).head? = (if b = [] then none else some 0) ∧
    (∀ i m m', (selectedMatches window b)[i]? = some m → (selectedMatches window b)[i + 1]? = some m' →
      m'.pos = m.pos + m.len + 1) ∧
    (∀ m ∈ selectedMatches window b, m.pos < b.length ∧ m.pos + m.len ≤ b.length) ∧
    (∀ m, (selectedMatches window b).getLast? = some m → b.length ≤ m.pos + m.len + 1)

/-- R78, R101, R105: what LZ.COMPRESS can emit: at most one token a byte, offsets within the window, and length 0
wherever the offset is 0. (The spec marks R78, R101 as its own inference.) -/
def Obligations.EmittedTokensStayInTheWindow : Prop :=
  ∀ (s t : State) (inp : Inputs) (ts : Tokens), s.phase = .started inp → s.cfg.window = 1024 →
    exec .lzCompress s = .next t → t.output = some (.tokens ts) →
    ts.length ≤ inp.bytes.length ∧ ∀ k ∈ ts, k.offset.toNat ≤ 1024 ∧ (k.offset = 0 → k.length = 0)

/-- R107, R109, R313: a byte repeated `n >= 2` times gives two tokens, the run cut to its low 16 bits and the scan
advanced past the whole of it. (The spec marks R313 as its own inference.) That OP keeps its code and the host's list
is unchanged is the model's frame (assumptions 9, 8). -/
def Obligations.LongRunIsTruncatedSilently : Prop :=
  ∀ (s : State) (inp : Inputs) (n : Nat) (a : Byte), s.phase = .started inp → s.cfg.lenOvf = .truncate → 2 ≤ n →
    inp.bytes = List.replicate n a →
    exec .lzCompress s = .next (endOk s (.tokens
      [{ offset := 0, length := 0, next := a }, { offset := 1, length := BitVec.ofNat 16 (n - 1), next := 0 }]))

/-- R108, R197: under `LEN_OVF = fault` a selected run over 65535 ends LZ.COMPRESS, and PIPE.ENCRYPT before any draw,
with LengthOverflow and no output. That OP keeps its code and the host's list is unchanged is the model's frame
(assumptions 9, 8). -/
def Obligations.LongRunFaultsUnderFault : Prop :=
  ∀ (s : State) (inp : Inputs), s.phase = .started inp → s.cfg.lenOvf = .fault →
    (∃ m ∈ selectedMatches s.cfg.window inp.bytes, 65535 < m.len) →
    exec .lzCompress s = .next { s with status := 0x09, output := none, phase := .idle } ∧
    exec .pipeEncrypt s = .next { s with status := 0x09, output := none, phase := .idle }

/-- R119, R313: an input of at most 65536 bytes has no selected run over 65535. (The spec marks R119, R313 as its own
inference.) -/
def Obligations.ShortInputHasNoLongRun : Prop :=
  ∀ (window : Nat) (b : Bytes), b.length ≤ 65536 → ∀ m ∈ selectedMatches window b, m.len ≤ 65535

/-- R119: for an input without zero byte in which no selected run exceeds 65535, LZ.DECOMPRESS of what LZ.COMPRESS
gives is the input (for every window whose distances fit the 16-bit offset; WINDOW is 1024, R7). (The spec marks R119
as its own inference.) That OP keeps its code and the host's list is unchanged is the model's frame (assumptions 9,
8). -/
def Obligations.DecompressUndoesCompress : Prop :=
  ∀ (s : State) (inp : Inputs), s.phase = .started inp → s.cfg.window ≤ 65535 → 0 ∉ inp.bytes →
    (∀ m ∈ selectedMatches s.cfg.window inp.bytes, m.len ≤ 65535) →
    ∃ ts, exec .lzCompress s = .next (endOk s (.tokens ts)) ∧
      ∀ (s' : State) (inp' : Inputs), s'.phase = .started inp' → inp'.tokens = ts →
        exec .lzDecompress s' = .next (endOk s' (.bytes inp.bytes))

/-- R116, R117, R206: what LZ.DECOMPRESS or PIPE.DECRYPT delivers holds no zero byte, and a stream of `m` tokens gives
at most `65536 * m` bytes. (The spec marks R116, R206 as its own inference.) -/
def Obligations.DecompressedBytesAreNulFree : Prop :=
  ∀ (s t : State) (inp : Inputs) (b : Bytes), s.phase = .started inp → t.output = some (.bytes b) →
    (exec .lzDecompress s = .next t → 0 ∉ b ∧ b.length ≤ 65536 * inp.tokens.length) ∧
    (exec .pipeDecrypt s = .next t → 0 ∉ b)

/-! ## Unit TS -/

/-- R138: TS.FROMBYTES undoes TS.TOBYTES, and TS.TOBYTES of TS.FROMBYTES gives the whole records back. (The spec marks
R138 as its own inference.) That OP keeps its code and the host's list is unchanged is the model's frame (assumptions
9, 8). -/
def Obligations.SerializerRoundTrips : Prop :=
  (∀ (s s' : State) (inp inp' : Inputs) (b : Bytes), s.phase = .started inp → s'.phase = .started inp' →
    exec .tsToBytes s = .next (endOk s (.bytes b)) → inp'.bytes = b →
    exec .tsFromBytes s' = .next (endOk s' (.tokens inp.tokens))) ∧
  (∀ (s s' : State) (inp inp' : Inputs) (ts : Tokens), s.phase = .started inp → s'.phase = .started inp' →
    exec .tsFromBytes s = .next (endOk s (.tokens ts)) → inp'.tokens = ts →
    exec .tsToBytes s' = .next (endOk s' (.bytes (inp.bytes.take (5 * (inp.bytes.length / 5))))))

/-! ## Unit Q5 -/

/-- R147: the cipher string is the base-5 numeral of the integer: empty for 0, otherwise of `floor(log_5 n) + 1`
glyphs of which the first is not the zero glyph, and its digits have the value. (The spec marks R147 as its own
inference.) That OP keeps its code and the host's list is unchanged is the model's frame (assumptions 9, 8). -/
def Obligations.NumeralHasNoLeadingZeroGlyph : Prop :=
  ∀ (s : State) (inp : Inputs), s.phase = .started inp →
    ∃ ds : List Digit, exec .q5Encode s = .next (endOk s (.glyphs (ds.map (glyphOf s.cfg.alphabet)))) ∧
      digitsValue ds = beNat inp.bytes ∧
      (beNat inp.bytes = 0 → ds = []) ∧
      (beNat inp.bytes ≠ 0 → ds.length = Nat.log 5 (beNat inp.bytes) + 1 ∧ ds.head? ≠ some 0)

/-- R155: decoding an encoded buffer strips its leading zero bytes, and encoding a decoded string of alphabet glyphs
strips its leading zero glyphs. (The spec marks R155 as its own inference.) That OP keeps its code and the host's list
is unchanged is the model's frame (assumptions 9, 8). -/
def Obligations.QuinaryRoundTrips : Prop :=
  (∀ (s s' : State) (inp inp' : Inputs) (g : Glyphs), s.phase = .started inp → s'.phase = .started inp' →
    s'.cfg = s.cfg → exec .q5Encode s = .next (endOk s (.glyphs g)) → inp'.glyphs = g →
    exec .q5Decode s' = .next (endOk s' (.bytes (inp.bytes.dropWhile (· == 0))))) ∧
  (∀ (s s' : State) (inp inp' : Inputs) (b : Bytes), s.phase = .started inp → s'.phase = .started inp' →
    s'.cfg = s.cfg → exec .q5Decode s = .next (endOk s (.bytes b)) → inp'.bytes = b →
    exec .q5Encode s' = .next (endOk s' (.glyphs (inp.glyphs.dropWhile (· == s.cfg.alphabet.g0)))))

/-- R153, R316: zero glyphs put in front of a string change nothing of what Q5.DECODE or PIPE.DECRYPT answers. (The
spec marks R153, R316 as its own inference.) -/
def Obligations.LeadingZeroGlyphsChangeNothing : Prop :=
  ∀ (s s' : State) (inp inp' : Inputs) (k : Nat), s.phase = .started inp → s'.phase = .started inp' →
    s'.cfg = s.cfg → inp'.key = inp.key →
    inp'.glyphs = List.replicate k s.cfg.alphabet.g0 ++ inp.glyphs →
    (∀ raw, decodeFn s.cfg inp.glyphs = .ok raw →
      raw.length ≤ Config.aeadLimit + 48 ∨ raw.take 4 ≠ magicBytes s.cfg.magic) →
    ∃ t t' u u', exec .q5Decode s = .next t ∧ exec .q5Decode s' = .next t' ∧
      t'.status = t.status ∧ t'.output = t.output ∧
      exec .pipeDecrypt s = .next u ∧ exec .pipeDecrypt s' = .next u' ∧
      u'.status = u.status ∧ u'.output = u.output

/-! ## Unit ENV and the primitives -/

/-- R61, R172: with both draws successful the envelope is the magic, the drawn salt, the drawn nonce and `|payload| +
16` more bytes, and its first byte is not zero. (The spec marks R172 as its own inference.) That OP keeps its code and
the host's list is unchanged is the model's frame (assumptions 9, 8). -/
def Obligations.EnvelopeHasItsLayout : Prop :=
  ∀ (s : State) (inp : Inputs) (x y : RandomSource) (salt nonce : Bytes), s.phase = .started inp →
    inp.bytes.length ≤ Config.aeadLimit → draw 16 s.random = (x, some salt) → draw 12 x = (y, some nonce) →
    ∃ env, exec .envSeal s = .next (endOk { s with random := y } (.bytes env)) ∧
      env.length = inp.bytes.length + 48 ∧ slice env 0 4 = magicBytes s.cfg.magic ∧ slice env 4 20 = salt ∧
      slice env 20 32 = nonce ∧ env.head? ≠ some 0

/-- R169, R171, R271: a failed draw ends ENV.SEAL with RandomnessUnavailable and no output; the draws already made
stay made, and after a failed salt draw no nonce is drawn. (The spec marks R271 as its own inference.) That OP keeps
its code and the host's list is unchanged is the model's frame (assumptions 9, 8). -/
def Obligations.FailedDrawEndsTheSeal : Prop :=
  ∀ (s : State) (inp : Inputs) (x y : RandomSource) (salt : Bytes), s.phase = .started inp →
    inp.bytes.length ≤ Config.aeadLimit →
    (draw 16 s.random = (x, none) →
      exec .envSeal s = .next { s with status := 0x01, output := none, phase := .idle, random := x }) ∧
    (draw 16 s.random = (x, some salt) → draw 12 x = (y, none) →
      exec .envSeal s = .next { s with status := 0x01, output := none, phase := .idle, random := y })

/-- R181, R182, R183: the first failing check is reported: a short buffer FormatError whatever it holds, a wrong magic
MagicMismatch, a ciphertext shorter than a tag DecryptionFailed. That OP keeps its code and the host's list is
unchanged is the model's frame (assumptions 9, 8). -/
def Obligations.FirstFailingCheckIsReported : Prop :=
  ∀ (s : State) (inp : Inputs), s.phase = .started inp →
    (inp.bytes.length < 32 →
      exec .envOpen s = .next { s with status := 0x05, output := none, phase := .idle }) ∧
    (32 ≤ inp.bytes.length → inp.bytes.take 4 ≠ magicBytes s.cfg.magic →
      exec .envOpen s = .next { s with status := 0x06, output := none, phase := .idle }) ∧
    (32 ≤ inp.bytes.length → inp.bytes.take 4 = magicBytes s.cfg.magic → inp.bytes.length < 48 →
      exec .envOpen s = .next { s with status := 0x07, output := none, phase := .idle })

/-- R186: what ENV.SEAL seals ENV.OPEN opens, for every payload, key and pair of successful draws. (The spec marks
R186 as its own inference.) That OP keeps its code and the host's list is unchanged is the model's frame (assumptions
9, 8). -/
def Obligations.OpenUndoesSeal : Prop :=
  ∀ (s s' : State) (inp inp' : Inputs) (x y : RandomSource) (salt nonce : Bytes), s.phase = .started inp →
    s'.phase = .started inp' → s'.cfg = s.cfg → inp.bytes.length ≤ Config.aeadLimit →
    draw 16 s.random = (x, some salt) → draw 12 x = (y, some nonce) →
    ∃ env, exec .envSeal s = .next (endOk { s with random := y } (.bytes env)) ∧
      (inp'.bytes = env → inp'.key = inp.key → exec .envOpen s' = .next (endOk s' (.bytes inp.bytes)))

/-- R168, R250: the named properties of the primitives: KDF_TOTAL, SEAL_LEN, OPEN_SEAL, OPEN_SHORT, OPEN_LEN. (The
spec marks R168, R250 as its own inference.) -/
def Obligations.PrimitivesHaveTheNamedProperties : Prop :=
  (∀ key salt : Bytes, ∃ dk, kdf key salt = some dk ∧ dk.length = 32) ∧
  (∀ dk nonce aad pt : Bytes, (aeadSeal dk nonce aad pt).length = pt.length + 16) ∧
  (∀ dk nonce aad pt : Bytes, aeadOpen dk nonce aad (aeadSeal dk nonce aad pt) = some pt) ∧
  (∀ dk nonce aad ct : Bytes, ct.length < 16 → aeadOpen dk nonce aad ct = none) ∧
  (∀ dk nonce aad ct pt : Bytes, aeadOpen dk nonce aad ct = some pt → pt.length + 16 = ct.length)

/-- R236: with `L = 32` one expand block suffices. (The spec marks R236 as its own inference, from general knowledge:
assumption 22.) -/
def Obligations.KeyDerivationIsTwoHmacs : Prop :=
  ∀ key salt : Bytes, salt.length = 16 →
    kdf key salt = some (hmac (hmac salt key) (Config.info ++ [0x01]))

/-! ## Unit PIPE -/

/-- R201, R203, R275: a glyph outside the alphabet anywhere gives InvalidCharacter, before any other check, alone and
in the pipeline; and the empty string gives FormatError. (The spec marks R203, R275 as its own inference.) That OP
keeps its code and the host's list is unchanged is the model's frame (assumptions 9, 8). -/
def Obligations.InvalidGlyphComesFirst : Prop :=
  ∀ (s : State) (inp : Inputs), s.phase = .started inp →
    ((∃ c ∈ inp.glyphs, indexOf s.cfg.alphabet c = none) →
      exec .q5Decode s = .next { s with status := 0x04, output := none, phase := .idle } ∧
      exec .pipeDecrypt s = .next { s with status := 0x04, output := none, phase := .idle }) ∧
    (inp.glyphs = [] → exec .pipeDecrypt s = .next { s with status := 0x05, output := none, phase := .idle })

/-- R205: for a plaintext without zero byte in which no selected run exceeds 65535, every key and every pair of
successful draws, PIPE.DECRYPT of what PIPE.ENCRYPT gives is the plaintext (WINDOW is 1024, R7). (The spec marks R205
as its own inference.) That OP keeps its code and the host's list is unchanged is the model's frame (assumptions 9,
8). -/
def Obligations.DecryptUndoesEncrypt : Prop :=
  ∀ (s s' : State) (inp inp' : Inputs) (x y : RandomSource) (salt nonce : Bytes), s.phase = .started inp →
    s'.phase = .started inp' → s'.cfg = s.cfg → s.cfg.window ≤ 65535 →
    (∀ ts, compressFn s.cfg inp.bytes = .ok ts → 5 * ts.length ≤ Config.aeadLimit) → 0 ∉ inp.bytes →
    (∀ m ∈ selectedMatches s.cfg.window inp.bytes, m.len ≤ 65535) →
    draw 16 s.random = (x, some salt) → draw 12 x = (y, some nonce) →
    ∃ g, exec .pipeEncrypt s = .next (endOk { s with random := y } (.glyphs g)) ∧
      (inp'.glyphs = g → inp'.key = inp.key → exec .pipeDecrypt s' = .next (endOk s' (.bytes inp.bytes)))

/-- R291: two encryptions that draw different salts or nonces give different cipher strings. (The spec marks R291 as
its own inference.) -/
def Obligations.DifferentDrawsGiveDifferentStrings : Prop :=
  ∀ (s s' : State) (inp inp' : Inputs) (x y x' y' : RandomSource) (salt nonce salt' nonce' : Bytes)
    (g g' : Glyphs), s.phase = .started inp → s'.phase = .started inp' → s'.cfg = s.cfg →
    draw 16 s.random = (x, some salt) → draw 12 x = (y, some nonce) →
    draw 16 s'.random = (x', some salt') → draw 12 x' = (y', some nonce') →
    exec .pipeEncrypt s = .next (endOk { s with random := y } (.glyphs g)) →
    exec .pipeEncrypt s' = .next (endOk { s' with random := y' } (.glyphs g')) →
    (salt ≠ salt' ∨ nonce ≠ nonce') → g ≠ g'
end

