-- ==== Sys2Proof/Laws/State.lean ====
section
/-! SUPPORT. One lemma per field per update of the state, so that no later proof unfolds a record update; and what each
shared operation that ends or continues an operation can do. -/

namespace Sys2Proof.Machine

/-! ## endOk -/

@[simp] theorem endOk_cfg (s : State) (o : Output) : (endOk s o).cfg = s.cfg := rfl
@[simp] theorem endOk_op (s : State) (o : Output) : (endOk s o).op = s.op := rfl
@[simp] theorem endOk_status (s : State) (o : Output) : (endOk s o).status = 0 := rfl
@[simp] theorem endOk_output (s : State) (o : Output) : (endOk s o).output = some o := rfl
@[simp] theorem endOk_phase (s : State) (o : Output) : (endOk s o).phase = .idle := rfl
@[simp] theorem endOk_random (s : State) (o : Output) : (endOk s o).random = s.random := rfl
@[simp] theorem endOk_host (s : State) (o : Output) : (endOk s o).host = s.host := rfl

/-! ## raise -/

@[simp] theorem raise_cfg (s : State) (e : Status) : (raise s e).cfg = s.cfg := rfl
@[simp] theorem raise_op (s : State) (e : Status) : (raise s e).op = s.op := rfl
@[simp] theorem raise_status (s : State) (e : Status) : (raise s e).status = statusCode e := rfl
@[simp] theorem raise_output (s : State) (e : Status) : (raise s e).output = none := rfl
@[simp] theorem raise_phase (s : State) (e : Status) : (raise s e).phase = .idle := rfl
@[simp] theorem raise_random (s : State) (e : Status) : (raise s e).random = s.random := rfl
@[simp] theorem raise_host (s : State) (e : Status) : (raise s e).host = s.host := rfl

/-! ## resetBlock -/

@[simp] theorem resetBlock_cfg (s : State) (h : List HostCommand) : (resetBlock s h).cfg = s.cfg := rfl
@[simp] theorem resetBlock_op (s : State) (h : List HostCommand) : (resetBlock s h).op = none := rfl
@[simp] theorem resetBlock_status (s : State) (h : List HostCommand) : (resetBlock s h).status = 0 := rfl
@[simp] theorem resetBlock_output (s : State) (h : List HostCommand) : (resetBlock s h).output = none := rfl
@[simp] theorem resetBlock_phase (s : State) (h : List HostCommand) : (resetBlock s h).phase = .idle := rfl
@[simp] theorem resetBlock_random (s : State) (h : List HostCommand) : (resetBlock s h).random = s.random := rfl
@[simp] theorem resetBlock_host (s : State) (h : List HostCommand) : (resetBlock s h).host = h := rfl

/-! ## accept -/

section
variable (s : State) (c : Byte) (i : Inputs) (h : List HostCommand)

@[simp] theorem accept_cfg : (accept s c i h).cfg = s.cfg := rfl
@[simp] theorem accept_op : (accept s c i h).op = some c := rfl
@[simp] theorem accept_status : (accept s c i h).status = s.status := rfl
@[simp] theorem accept_output : (accept s c i h).output = s.output := rfl
@[simp] theorem accept_phase : (accept s c i h).phase = .started i := rfl
@[simp] theorem accept_random : (accept s c i h).random = s.random := rfl
@[simp] theorem accept_host : (accept s c i h).host = h := rfl
end

/-! ## conclude -/

section
variable {ρ ω : Type} (s : State) (work : ρ → Work) (out : ω → Output) (p : RandomSource × Tick ρ ω)

@[simp] theorem conclude_cfg : (conclude s work out p).cfg = s.cfg := by
  rcases p with ⟨x, _ | _ | _⟩ <;> rfl

@[simp] theorem conclude_op : (conclude s work out p).op = s.op := by
  rcases p with ⟨x, _ | _ | _⟩ <;> rfl

@[simp] theorem conclude_random : (conclude s work out p).random = p.1 := by
  rcases p with ⟨x, _ | _ | _⟩ <;> rfl

@[simp] theorem conclude_host : (conclude s work out p).host = s.host := by
  rcases p with ⟨x, _ | _ | _⟩ <;> rfl

@[simp] theorem conclude_running (x : RandomSource) (r : ρ) :
    conclude s work out (x, .running r) = { s with random := x, phase := .running (work r) } := rfl

@[simp] theorem conclude_done (x : RandomSource) (o : ω) :
    conclude s work out (x, .done o) = endOk { s with random := x } (out o) := rfl

@[simp] theorem conclude_raised (x : RandomSource) (e : Status) :
    conclude s work out (x, .raised e) = raise { s with random := x } e := rfl

/-- Everything `conclude` can do: the operation still runs, or it has ended with `OK`, or with an error. -/
theorem conclude_cases :
    (∃ r, p.2 = .running r ∧ (conclude s work out p).phase = .running (work r)
        ∧ (conclude s work out p).status = s.status ∧ (conclude s work out p).output = s.output) ∨
    (∃ o, p.2 = .done o ∧ (conclude s work out p).phase = .idle
        ∧ (conclude s work out p).status = 0 ∧ (conclude s work out p).output = some (out o)) ∨
    (∃ e, p.2 = .raised e ∧ (conclude s work out p).phase = .idle
        ∧ (conclude s work out p).status = statusCode e ∧ (conclude s work out p).output = none) := by
  rcases p with ⟨x, r | o | e⟩
  · exact .inl ⟨r, rfl, rfl, rfl, rfl⟩
  · exact .inr (.inl ⟨o, rfl, rfl, rfl, rfl⟩)
  · exact .inr (.inr ⟨e, rfl, rfl, rfl, rfl⟩)
end

/-! ## operate -/

/-- What an operation's meaning does where one is started: it runs on the inputs handed over. -/
theorem operate_started {s : State} {inp : Inputs} (h : s.phase = .started inp)
    (go : Inputs → Host.Outcome State Fault Refusal) : operate s go = go inp := by
  simp [operate, h]

/-- An operation's meaning gives a next state only where one is started. -/
theorem operate_next {s t : State} {go : Inputs → Host.Outcome State Fault Refusal} (h : operate s go = .next t) :
    ∃ inp, s.phase = .started inp ∧ go inp = .next t := by
  unfold operate at h
  split at h
  · exact ⟨_, ‹_›, h⟩
  · cases h
  · cases h

/-! ## draw -/

/-- A draw uses up one answer, whatever it is (R271). -/
@[simp] theorem draw_fst (n : Nat) (x : RandomSource) :
    (draw n x).1 = { answers := x.answers.tail, drawn := x.drawn + 1 } := rfl

/-- A draw that succeeds gives exactly the bytes asked for (R290). -/
theorem draw_length {n : Nat} {x x' : RandomSource} {b : Bytes} (h : draw n x = (x', some b)) : b.length = n := by
  have h2 : (draw n x).2 = some b := by rw [h]
  unfold draw at h2
  simp only at h2
  split at h2
  · split at h2
    · cases h2; assumption
    · cases h2
  · cases h2

/-- A known answer of the right length is what the draw gives (R291). -/
theorem draw_known {n : Nat} {b : Bytes} {rest : List (Option Bytes)} {k : Nat} (h : b.length = n) :
    draw n { answers := some b :: rest, drawn := k } = ({ answers := rest, drawn := k + 1 }, some b) := by
  simp [draw, nextAnswer, h]

end Sys2Proof.Machine
end

