-- ==== Sys2Proof/Laws/Run.lean ====
section
/-! SUPPORT. Running a unit line by line: what one line more does, that an end once reached stays, and how runs of
sub-operations compose. -/

namespace Sys2Proof.Machine

section
variable {ρ ω : Type} {f : RandomSource → ρ → RandomSource × Tick ρ ω}

@[simp] theorem runUnit_zero (x : RandomSource) (r : ρ) : runUnit f 0 x r = (x, .running r) := rfl

theorem runUnit_succ_running {k : Nat} {x x' : RandomSource} {r r' : ρ} (h : f x r = (x', .running r')) :
    runUnit f (k + 1) x r = runUnit f k x' r' := by
  simp [runUnit, h]

theorem runUnit_succ_done {k : Nat} {x x' : RandomSource} {r : ρ} {o : ω} (h : f x r = (x', .done o)) :
    runUnit f (k + 1) x r = (x', .done o) := by
  simp [runUnit, h]

theorem runUnit_succ_raised {k : Nat} {x x' : RandomSource} {r : ρ} {e : Status} (h : f x r = (x', .raised e)) :
    runUnit f (k + 1) x r = (x', .raised e) := by
  simp [runUnit, h]

/-- `k` lines lead to registers `r'`, then the rest of the run starts there. -/
theorem runUnit_add {k m : Nat} {x x' : RandomSource} {r r' : ρ} (h : runUnit f k x r = (x', .running r')) :
    runUnit f (k + m) x r = runUnit f m x' r' := by
  induction k generalizing x r with
  | zero =>
    simp only [runUnit_zero, Prod.mk.injEq, Tick.running.injEq] at h
    obtain ⟨rfl, rfl⟩ := h
    simp
  | succ k ih =>
    have e : k + 1 + m = (k + m) + 1 := by omega
    rw [e]
    unfold runUnit at h
    split at h
    · rename_i heq; rw [runUnit_succ_running heq]; exact ih h
    · cases h
    · cases h

/-- An end once reached stays: more fuel changes nothing. -/
theorem runUnit_mono {k m : Nat} {x x' : RandomSource} {r : ρ} {t : Tick ρ ω} (h : runUnit f k x r = (x', t))
    (ht : ∀ r', t ≠ .running r') (hm : k ≤ m) : runUnit f m x r = (x', t) := by
  induction k generalizing x r m with
  | zero =>
    simp only [runUnit_zero, Prod.mk.injEq] at h
    exact absurd h.2.symm (ht r)
  | succ k ih =>
    obtain ⟨m, rfl⟩ : ∃ m', m = m' + 1 := ⟨m - 1, by omega⟩
    unfold runUnit at h
    split at h
    · rename_i heq; rw [runUnit_succ_running heq]; exact ih h (by omega)
    · rename_i heq; rw [runUnit_succ_done heq]; exact h
    · rename_i heq; rw [runUnit_succ_raised heq]; exact h

/-- A property of the registers that every line keeps holds wherever a run stands. -/
theorem runUnit_keeps {P : ρ → Prop} (hkeep : ∀ x r x' r', P r → f x r = (x', .running r') → P r')
    {k : Nat} {x x' : RandomSource} {r r' : ρ} (hr : P r) (h : runUnit f k x r = (x', .running r')) : P r' := by
  induction k generalizing x r with
  | zero =>
    simp only [runUnit_zero, Prod.mk.injEq, Tick.running.injEq] at h
    obtain ⟨rfl, rfl⟩ := h
    exact hr
  | succ k ih =>
    unfold runUnit at h
    split at h
    · rename_i heq; exact ih (hkeep _ _ _ _ hr heq) h
    · cases h
    · cases h

/-- The output of a run, from a property of the registers that every line keeps. -/
theorem runUnit_done {P : ρ → Prop} {Q : ω → Prop} (hkeep : ∀ x r x' r', P r → f x r = (x', .running r') → P r')
    (hdone : ∀ x r x' o, P r → f x r = (x', .done o) → Q o)
    {k : Nat} {x x' : RandomSource} {r : ρ} {o : ω} (hr : P r) (h : runUnit f k x r = (x', .done o)) : Q o := by
  induction k generalizing x r with
  | zero => cases h
  | succ k ih =>
    unfold runUnit at h
    split at h
    · rename_i heq; exact ih (hkeep _ _ _ _ hr heq) h
    · rename_i heq; cases h; exact hdone _ _ _ _ hr heq
    · cases h

/-- The status a run raises is one that some line raises. -/
theorem runUnit_raised {Q : Status → Prop} (hraise : ∀ x r x' e, f x r = (x', .raised e) → Q e)
    {k : Nat} {x x' : RandomSource} {r : ρ} {e : Status} (h : runUnit f k x r = (x', .raised e)) : Q e := by
  induction k generalizing x r with
  | zero => cases h
  | succ k ih =>
    unfold runUnit at h
    split at h
    · exact ih h
    · cases h
    · rename_i heq; cases h; exact hraise _ _ _ _ heq
end

section
variable {ρ ω : Type} {f : ρ → Tick ρ ω}

/-- A unit that makes no draw leaves the random source alone. -/
@[simp] theorem runUnit_quiet_fst (k : Nat) (x : RandomSource) (r : ρ) : (runUnit (quiet f) k x r).1 = x := by
  induction k generalizing r with
  | zero => rfl
  | succ k ih =>
    unfold runUnit
    split
    · rename_i heq
      simp only [quiet, Prod.mk.injEq] at heq
      rw [← heq.1]; exact ih _
    · rename_i heq; simp only [quiet, Prod.mk.injEq] at heq; exact heq.1.symm
    · rename_i heq; simp only [quiet, Prod.mk.injEq] at heq; exact heq.1.symm
end

/-! ## Composition -/

section
variable {ρ ω ρ' ω' : Type} {f : RandomSource → ρ → RandomSource × Tick ρ ω}
  {g : RandomSource → ρ' → RandomSource × Tick ρ' ω'} {wrap : ρ → ρ'} {next : ω → Tick ρ' ω'}

/-- `g` runs `f` inside: on wrapped registers its line is a line of `f`, wrapped. -/
def Embeds (f : RandomSource → ρ → RandomSource × Tick ρ ω) (g : RandomSource → ρ' → RandomSource × Tick ρ' ω')
    (wrap : ρ → ρ') (next : ω → Tick ρ' ω') : Prop :=
  ∀ x r, g x (wrap r) = ((f x r).1, (f x r).2.andThen wrap next)

/-- A run inside that is still going is a run outside that is still going. -/
theorem Embeds.running (hg : Embeds f g wrap next) {k : Nat} {x x' : RandomSource} {r r' : ρ}
    (h : runUnit f k x r = (x', .running r')) : runUnit g k x (wrap r) = (x', .running (wrap r')) := by
  induction k generalizing x r with
  | zero =>
    simp only [runUnit_zero, Prod.mk.injEq, Tick.running.injEq] at h ⊢
    exact ⟨h.1, by rw [h.2]⟩
  | succ k ih =>
    unfold runUnit at h
    split at h
    · rename_i heq
      rw [runUnit_succ_running (x' := _) (r' := wrap _) (by rw [hg, heq]; rfl)]
      exact ih h
    · cases h
    · cases h

/-- A run inside that ends goes on outside with what `next` makes of its output, within as many lines. -/
theorem Embeds.done (hg : Embeds f g wrap next) {k : Nat} {x x' : RandomSource} {r : ρ} {o : ω}
    (h : runUnit f k x r = (x', .done o)) {r2 : ρ'} (hn : next o = .running r2) :
    ∃ m, m ≤ k ∧ runUnit g m x (wrap r) = (x', .running r2) := by
  induction k generalizing x r with
  | zero => cases h
  | succ k ih =>
    unfold runUnit at h
    split at h
    · rename_i heq
      obtain ⟨m, hm, hrun⟩ := ih h
      exact ⟨m + 1, by omega, by rw [runUnit_succ_running (r' := wrap _) (by rw [hg, heq]; rfl)]; exact hrun⟩
    · rename_i heq
      cases h
      refine ⟨1, by omega, ?_⟩
      rw [runUnit_succ_running (x' := x') (r' := r2) (by rw [hg, heq]; simp [Tick.andThen, hn])]
      rfl
    · cases h

/-- A run inside whose output ends the outer operation. -/
theorem Embeds.finish (hg : Embeds f g wrap next) {k : Nat} {x x' : RandomSource} {r : ρ} {o : ω} {o' : ω'}
    (h : runUnit f k x r = (x', .done o)) (hn : next o = .done o') : runUnit g k x (wrap r) = (x', .done o') := by
  induction k generalizing x r with
  | zero => cases h
  | succ k ih =>
    unfold runUnit at h
    split at h
    · rename_i heq
      rw [runUnit_succ_running (r' := wrap _) (by rw [hg, heq]; rfl)]
      exact ih h
    · rename_i heq
      cases h
      exact runUnit_succ_done (by rw [hg, heq]; simp [Tick.andThen, hn])
    · cases h

/-- A run inside that raises raises outside, with the same status (R272). -/
theorem Embeds.raised (hg : Embeds f g wrap next) {k : Nat} {x x' : RandomSource} {r : ρ} {e : Status}
    (h : runUnit f k x r = (x', .raised e)) : runUnit g k x (wrap r) = (x', .raised e) := by
  induction k generalizing x r with
  | zero => cases h
  | succ k ih =>
    unfold runUnit at h
    split at h
    · rename_i heq
      rw [runUnit_succ_running (r' := wrap _) (by rw [hg, heq]; rfl)]
      exact ih h
    · cases h
    · rename_i heq
      cases h
      exact runUnit_succ_raised (by rw [hg, heq]; rfl)
end

end Sys2Proof.Machine
end

