-- ==== Sys2Proof/Laws/Ts.lean ====
section
/-! SUPPORT. The record format (R75, R76): fields and bytes, and what the record-wise functions of unit TS give. -/

namespace Sys2Proof

/-! ## Fields and bytes -/

/-- The token's fields have the widths of R7, and fill the record of `TOKEN_BYTES` bytes (R75). -/
theorem token_field_widths :
    U16 = BitVec Config.offsetBits ∧ U16 = BitVec Config.lengthBits ∧ Byte = BitVec Config.nextBits ∧
      Config.offsetBits + Config.lengthBits + Config.nextBits = 8 * Config.tokenBytes := ⟨rfl, rfl, rfl, rfl⟩

@[simp] theorem recordBytes_length (t : Token) : (recordBytes t).length = 5 := rfl

theorem joinBytes_toNat (hi lo : Byte) : (joinBytes hi lo).toNat = hi.toNat * 256 + lo.toNat := by
  rw [joinBytes, BitVec.toNat_append, ← Nat.shiftLeft_add_eq_or_of_lt lo.isLt, Nat.shiftLeft_eq]

theorem hiByte_toNat (f : U16) : (hiByte f).toNat = f.toNat / 256 := by
  have := f.isLt
  simp [hiByte, Nat.shiftRight_eq_div_pow]
  omega

theorem loByte_toNat (f : U16) : (loByte f).toNat = f.toNat % 256 := by simp [loByte]

@[simp] theorem hiByte_joinBytes (hi lo : Byte) : hiByte (joinBytes hi lo) = hi := by
  apply BitVec.eq_of_toNat_eq
  have := hi.isLt; have := lo.isLt
  rw [hiByte_toNat, joinBytes_toNat]; omega

@[simp] theorem loByte_joinBytes (hi lo : Byte) : loByte (joinBytes hi lo) = lo := by
  apply BitVec.eq_of_toNat_eq
  have := hi.isLt; have := lo.isLt
  rw [loByte_toNat, joinBytes_toNat]; omega

@[simp] theorem joinBytes_split (f : U16) : joinBytes (hiByte f) (loByte f) = f := by
  apply BitVec.eq_of_toNat_eq
  have := f.isLt
  rw [joinBytes_toNat, hiByte_toNat, loByte_toNat]; omega

/-- Assembling a record and writing it out gives its bytes back. -/
theorem recordBytes_tokenOfRecord (r0 r1 r2 r3 r4 : Byte) :
    recordBytes (tokenOfRecord r0 r1 r2 r3 r4) = [r0, r1, r2, r3, r4] := by
  simp [recordBytes, tokenOfRecord]

/-- Writing a token out and assembling it gives it back. -/
theorem tokenOfRecord_recordBytes (t : Token) :
    tokenOfRecord (hiByte t.offset) (loByte t.offset) (hiByte t.length) (loByte t.length) t.next = t := by
  simp [tokenOfRecord]

/-! ## Records of a buffer -/

namespace Machine

theorem toBytesFn_cons (t : Token) (ts : Tokens) : toBytesFn (t :: ts) = recordBytes t ++ toBytesFn ts := by
  simp [toBytesFn]

theorem toBytesFn_length (ts : Tokens) : (toBytesFn ts).length = 5 * ts.length := by
  induction ts with
  | nil => rfl
  | cons t ts ih => rw [toBytesFn_cons, List.length_append, ih, recordBytes_length, List.length_cons]; omega

theorem fromBytesFn_length (b : Bytes) : (fromBytesFn b).length = b.length / 5 := by
  fun_induction fromBytesFn b with
  | case1 => simp; omega
  | case2 b h =>
    rcases b with _ | ⟨a, _ | ⟨a1, _ | ⟨a2, _ | ⟨a3, _ | ⟨a4, l⟩⟩⟩⟩⟩ <;> simp at h ⊢
    exact absurd rfl (h a a1 a2 a3 a4 l rfl rfl rfl rfl rfl)

theorem fromBytesFn_drop (b : Bytes) (i : Nat) : fromBytesFn (b.drop (5 * i)) = (fromBytesFn b).drop i := by
  induction i generalizing b with
  | zero => simp
  | succ i ih =>
    rw [show 5 * (i + 1) = 5 + 5 * i by omega, ← List.drop_drop, ih]
    rcases b with _ | ⟨a, _ | ⟨a1, _ | ⟨a2, _ | ⟨a3, _ | ⟨a4, l⟩⟩⟩⟩⟩ <;> simp [fromBytesFn]

/-- The record at index `ri` is token `ri` of the buffer. -/
theorem recordAt_eq (b : Bytes) (ri : Nat) : recordAt b ri = (fromBytesFn b)[ri]? := by
  have h : recordAt b ri = (fromBytesFn (b.drop (5 * ri)))[0]? := by
    rw [recordAt, show Config.tokenBytes = 5 from rfl]
    rcases b.drop (5 * ri) with _ | ⟨a, _ | ⟨a1, _ | ⟨a2, _ | ⟨a3, _ | ⟨a4, l⟩⟩⟩⟩⟩ <;> simp [fromBytesFn]
  rw [h, fromBytesFn_drop, List.getElem?_drop, Nat.add_zero]

end Machine

end Sys2Proof
end

