-- ==== Sys2Proof/Laws/Flow.lean ====
section
/-! SUPPORT. How the units sit inside the pipelines and the running work, what a fetch gives, and how steps make a run. -/

namespace Sys2Proof.Machine

/-! ## Units inside the pipelines (R195, R200) -/

theorem embeds_compress (cfg : Config) (key : Bytes) :
    Embeds (quiet (tickCompress cfg)) (tickEncrypt cfg) (PipeEncryptRegs.compress · key)
      (fun tokens => .running (.serialize (startToBytes tokens) key)) := fun _ _ => rfl

theorem embeds_serialize (cfg : Config) (key : Bytes) :
    Embeds (quiet tickToBytes) (tickEncrypt cfg) (PipeEncryptRegs.serialize · key)
      (fun payload => .running (.sealing (enterSeal payload key))) := fun _ _ => rfl

theorem embeds_sealing (cfg : Config) :
    Embeds (tickSeal cfg) (tickEncrypt cfg) PipeEncryptRegs.sealing
      (fun env => .running (.encode (startEncode env))) := fun _ _ => rfl

theorem embeds_encode (cfg : Config) :
    Embeds (quiet (tickEncode cfg)) (tickEncrypt cfg) PipeEncryptRegs.encode Tick.done := fun _ _ => rfl

theorem embeds_decode (cfg : Config) (key : Bytes) :
    Embeds (quiet (tickDecode cfg)) (quiet (tickDecrypt cfg)) (PipeDecryptRegs.decode · key)
      (fun raw => .running (.opening (enterOpen raw key))) := fun _ _ => rfl

theorem embeds_opening (cfg : Config) :
    Embeds (quiet (tickOpen cfg)) (quiet (tickDecrypt cfg)) PipeDecryptRegs.opening
      (fun payload => .running (.parse (startFromBytes payload))) := fun _ _ => rfl

theorem embeds_parse (cfg : Config) :
    Embeds (quiet tickFromBytes) (quiet (tickDecrypt cfg)) PipeDecryptRegs.parse
      (fun tokens => .running (.replay (startReplay tokens))) := fun _ _ => rfl

theorem embeds_replay (cfg : Config) :
    Embeds (quiet tickReplay) (quiet (tickDecrypt cfg)) PipeDecryptRegs.replay Tick.done := fun _ _ => rfl

/-! ## A unit as running work -/

section
variable {ρ ω : Type} {work : ρ → Work} {out : ω → Output} {p : RandomSource × Tick ρ ω} {x : RandomSource}

/-- Concluding a line of the running work is concluding the unit's line. -/
theorem conclude_asWork (s : State) (work : ρ → Work) (out : ω → Output) (p : RandomSource × Tick ρ ω) :
    conclude s id id (asWork work out p) = conclude s work out p := by
  obtain ⟨x, t⟩ := p; cases t <;> rfl

theorem asWork_running {w : Work} (h : asWork work out p = (x, .running w)) :
    ∃ r, p = (x, .running r) ∧ w = work r := by
  obtain ⟨y, t⟩ := p
  cases t <;> cases h
  exact ⟨_, rfl, rfl⟩

theorem asWork_done {o : Output} (h : asWork work out p = (x, .done o)) : ∃ v, p = (x, .done v) ∧ o = out v := by
  obtain ⟨y, t⟩ := p
  cases t <;> cases h
  exact ⟨_, rfl, rfl⟩
end

/-! ## Fetch -/

/-- A record decodes to the form of its token (R77, R79). -/
theorem decode_recordBytes (t : Token) : decode (recordBytes t) = .ok (decodeToken t) := by
  show Except.ok _ = _
  rw [tokenOfRecord_recordBytes]

/-- Everything a fetch can give: the byte in OP of a started operation, or the next record of a replay. -/
theorem fetch_cases {s : State} {bytes : Bytes} (h : fetch s = some bytes) :
    (∃ inp c, s.phase = .started inp ∧ s.op = some c ∧ bytes = [c]) ∨
    (∃ r t, s.phase = .running (.lzDecompress r) ∧ r.stage = .token ∧ r.tok[r.ti]? = some t ∧
      bytes = recordBytes t) := by
  unfold fetch at h
  split at h
  · cases h
  · cases ho : s.op with
    | none => rw [ho] at h; cases h
    | some c => rw [ho] at h; cases h; exact .inl ⟨_, c, ‹_›, rfl, rfl⟩
  · split at h
    · rename_i _ r hp _ hst
      cases ht : r.tok[r.ti]? with
      | none => rw [ht] at h; cases h
      | some t => rw [ht] at h; cases h; exact .inr ⟨r, t, hp, hst, ht, rfl⟩
    · cases h
  · cases h

/-! ## Runs -/

theorem run_next {M : Host.Core} {k : Nat} {s t : M.State} (h : M.step s = .next t) : M.run (k + 1) s = M.run k t := by
  simp only [Host.Core.run, h]

theorem run_one {M : Host.Core} {s : M.State} {o : Host.Outcome M.State M.Fault M.Refusal} (h : M.step s = o) :
    M.run 1 s = o := by
  simp only [Host.Core.run, h]; cases o <;> rfl

end Sys2Proof.Machine
end

