-- ==== Sys2Proof/Laws/Numbers.lean ====
section
/-! SUPPORT. What the shared number and buffer operations of Machine/Ops.lean can do: `readByte`, `slice`, `pieces`,
`BE` and `MINBE`, the fixed-width serialisations. -/

namespace Sys2Proof.Machine

/-! ## Buffers -/

/-- A read at a natural index is the element there, if there is one (R55). -/
theorem readByte_nat (b : Bytes) (i : Nat) : readByte b (i : Int) = b[i]? := by simp [readByte]

/-- A read that gives a value gives an element of the buffer (R55). -/
theorem readByte_mem {b : Bytes} {a : Int} {x : Byte} (h : readByte b a = some x) : x ∈ b := by
  unfold readByte at h
  split at h
  · exact List.mem_of_getElem? h
  · cases h

/-- An append makes the buffer one longer (R56). -/
@[simp] theorem append_length {α : Type} (b : List α) (v : α) : (append b v).length = b.length + 1 := by
  simp [append]

/-- An append keeps every earlier element (R56). -/
theorem append_prefix {α : Type} (b : List α) (v : α) : b <+: append b v := List.prefix_append _ _

/-- The length of `B[a..e)` (R14). -/
theorem slice_length (b : Bytes) (a e : Nat) (he : e ≤ b.length) : (slice b a e).length = e - a := by
  simp [slice]; omega

/-- Only the low 16 bits are kept, so a value that fits is kept whole (R14). -/
theorem trunc16_toNat {n : Nat} (h : n ≤ 65535) : (trunc16 n).toNat = n := by
  rw [trunc16, BitVec.toNat_ofNat, Nat.mod_eq_of_lt (by omega)]

/-! ## Pieces -/

theorem piecesLoop_flatten {size fuel : Nat} {m : Bytes} (hs : 0 < size) (h : m.length ≤ fuel) :
    (piecesLoop size fuel m).flatten = m := by
  induction fuel generalizing m with
  | zero => simp at h; simp [piecesLoop, h]
  | succ fuel ih =>
    unfold piecesLoop
    split
    · simp_all
    · rename_i hne
      have hm : m ≠ [] := by simpa using hne
      have := List.length_pos_iff.mpr hm
      rw [List.flatten_cons, ih (by simp; omega), List.take_append_drop]

/-- The pieces put together are the message. -/
theorem pieces_flatten {size : Nat} (hs : 0 < size) (m : Bytes) : (pieces size m).flatten = m :=
  piecesLoop_flatten hs le_rfl

theorem piecesLoop_length_le {size fuel : Nat} {m p : Bytes} (h : p ∈ piecesLoop size fuel m) : p.length ≤ size := by
  induction fuel generalizing m with
  | zero => simp [piecesLoop] at h
  | succ fuel ih =>
    unfold piecesLoop at h
    split at h
    · simp at h
    · rcases List.mem_cons.mp h with rfl | h
      · simp
      · exact ih h

/-- No piece is longer than the block size. -/
theorem pieces_length_le {size : Nat} {m p : Bytes} (h : p ∈ pieces size m) : p.length ≤ size :=
  piecesLoop_length_le h

theorem piecesLoop_fuel {size fuel fuel' : Nat} {m : Bytes} (hs : 0 < size) (h : m.length ≤ fuel)
    (h' : m.length ≤ fuel') : piecesLoop size fuel m = piecesLoop size fuel' m := by
  induction fuel generalizing fuel' m with
  | zero =>
    simp at h; subst h
    cases fuel' <;> simp [piecesLoop]
  | succ fuel ih =>
    rcases eq_or_ne m [] with rfl | hm
    · cases fuel' <;> simp [piecesLoop]
    · have := List.length_pos_iff.mpr hm
      obtain ⟨f, rfl⟩ : ∃ g, fuel' = g + 1 := ⟨fuel' - 1, by omega⟩
      simp only [piecesLoop]
      rw [ih (fuel' := f) (m := m.drop size) (by simp; omega) (by simp; omega)]

/-- One piece at a time. -/
theorem pieces_eq {size : Nat} (hs : 0 < size) (m : Bytes) :
    pieces size m = if m = [] then [] else m.take size :: pieces size (m.drop size) := by
  split
  · subst_vars; rfl
  · rename_i hm
    have := List.length_pos_iff.mpr hm
    obtain ⟨k, hk⟩ : ∃ k, m.length = k + 1 := ⟨m.length - 1, by omega⟩
    have he : m.isEmpty = false := by simpa using hm
    conv_lhs => rw [pieces, hk]
    simp only [piecesLoop, he]
    rw [piecesLoop_fuel hs (m := m.drop size) (fuel' := (m.drop size).length) (by simp; omega) le_rfl]
    rfl

/-! ## Fixed widths -/

@[simp] theorem toLE_length (k v : Nat) : (toLE k v).length = k := by
  induction k generalizing v with
  | zero => rfl
  | succ k ih => simp [toLE, ih]

@[simp] theorem toBE_length (k v : Nat) : (toBE k v).length = k := by simp [toBE]

/-! ## BE and MINBE -/

/-- One byte more at the end (R146). -/
theorem beNat_concat (b : Bytes) (x : Byte) : beNat (b ++ [x]) = beNat b * 256 + x.toNat := by
  simp [beNat, List.foldl_append]

/-- The value fits the length. -/
theorem beNat_lt (b : Bytes) : beNat b < 256 ^ b.length := by
  induction b using List.reverseRecOn with
  | nil => simp [beNat]
  | append_singleton b x ih =>
    rw [beNat_concat]
    have := x.isLt
    simp only [List.length_append, List.length_cons, List.length_nil, pow_succ, zero_add]
    omega

theorem minBELoop_eq {fuel n : Nat} (h : n ≤ fuel) (acc : Bytes) :
    minBELoop fuel n acc = minBELoop n n [] ++ acc := by
  induction fuel using Nat.strong_induction_on generalizing n acc with
  | _ fuel ih =>
    rcases Nat.eq_zero_or_pos n with rfl | hn
    · cases fuel <;> simp [minBELoop]
    · obtain ⟨f, rfl⟩ : ∃ f, fuel = f + 1 := ⟨fuel - 1, by omega⟩
      obtain ⟨m, rfl⟩ : ∃ m, n = m + 1 := ⟨n - 1, by omega⟩
      have hq : (m + 1) / 256 ≤ m := by omega
      simp only [minBELoop, Nat.add_eq_zero_iff, one_ne_zero, and_false, if_false]
      rw [ih f (by omega) (by omega)]
      rcases Nat.lt_or_ge m f with hmf | hmf
      · rw [ih m (by omega) hq]
        simp
      · have : m = f := by omega
        subst this
        rw [ih m (by omega) (acc := [_]) hq]
        simp

@[simp] theorem minBE_zero : minBE 0 = [] := rfl

/-- The last byte of `MINBE(n)` and what stands before it. -/
theorem minBE_succ {n : Nat} (h : n ≠ 0) : minBE n = minBE (n / 256) ++ [BitVec.ofNat 8 n] := by
  obtain ⟨m, rfl⟩ : ∃ m, n = m + 1 := ⟨n - 1, by omega⟩
  unfold minBE
  conv_lhs => simp only [minBELoop, Nat.add_eq_zero_iff, one_ne_zero, and_false, if_false]
  rw [minBELoop_eq (by omega)]

/-- `BE(MINBE(n)) = n` (R14). -/
theorem beNat_minBE (n : Nat) : beNat (minBE n) = n := by
  induction n using Nat.strong_induction_on with
  | _ n ih =>
    rcases eq_or_ne n 0 with rfl | hn
    · rfl
    · rw [minBE_succ hn, beNat_concat, ih _ (by omega)]
      simp; omega

/-- `MINBE(n)` has no leading zero byte (R14). -/
theorem minBE_head (n : Nat) : (minBE n).head? ≠ some 0 := by
  induction n using Nat.strong_induction_on with
  | _ n ih =>
    rcases eq_or_ne n 0 with rfl | hn
    · simp
    · rw [minBE_succ hn]
      rcases eq_or_ne (n / 256) 0 with h | h
      · rw [h, minBE_zero]
        simp only [List.nil_append, List.head?_cons, ne_eq, Option.some.injEq]
        intro he
        have := congrArg BitVec.toNat he
        simp at this; omega
      · have h2 := ih (n / 256) (by omega)
        rw [minBE_succ h] at h2 ⊢
        cases hc : minBE (n / 256 / 256) with
        | nil => simpa [hc] using h2
        | cons a l => simpa [hc] using h2

/-- A number below `256^k` has at most `k` bytes. -/
theorem minBE_length_le {n k : Nat} (h : n < 256 ^ k) : (minBE n).length ≤ k := by
  induction k generalizing n with
  | zero => simp at h; subst h; simp
  | succ k ih =>
    rcases eq_or_ne n 0 with rfl | hn
    · simp
    · rw [minBE_succ hn]
      have := ih (n := n / 256) (by rw [pow_succ] at h; omega)
      simpa using this

/-- `MINBE(BE(B))` is `B` without its leading zero bytes. -/
theorem minBE_beNat (b : Bytes) : minBE (beNat b) = b.dropWhile (· == 0) := by
  induction b using List.reverseRecOn with
  | nil => rfl
  | append_singleton b x ih =>
    rw [beNat_concat]
    have hx := x.isLt
    rcases eq_or_ne (beNat b * 256 + x.toNat) 0 with h | h
    · have hb : beNat b = 0 := by omega
      have hx0 : x = 0 := by apply BitVec.eq_of_toNat_eq; simp; omega
      rw [hb, minBE_zero] at ih
      rw [h, minBE_zero, List.dropWhile_append, ← ih, hx0]; simp
    · have hbx : BitVec.ofNat 8 (beNat b * 256 + x.toNat) = x := by
        apply BitVec.eq_of_toNat_eq; simp
        omega
      rw [minBE_succ h, show (beNat b * 256 + x.toNat) / 256 = beNat b by omega, ih, List.dropWhile_append, hbx]
      by_cases he : (b.dropWhile (· == 0)).isEmpty
      · rw [if_pos he]
        rw [List.isEmpty_iff] at he
        rw [he] at ih
        have hb0 : beNat b = 0 := by rw [← beNat_minBE (beNat b), ih]; rfl
        have : x ≠ 0 := by rintro rfl; simp at h; omega
        rw [he, List.dropWhile_cons_of_neg (by simpa using this), List.nil_append]
      · rw [if_neg he]

end Sys2Proof.Machine
end

