-- ==== Sys2Proof/Laws/Lz.lean ====
section
/-! SUPPORT. Unit LZ: what the run loop, the candidate loop and the copy loop do. -/

namespace Sys2Proof.Machine

/-! ## Runs (R104) -/

/-- A common prefix goes on exactly while both strings have the same byte. -/
theorem commonRun_lt_iff {xs ys : Bytes} {l : Nat} (h : l ≤ commonRun xs ys) :
    l < commonRun xs ys ↔ ∃ x, xs[l]? = some x ∧ ys[l]? = some x := by
  induction xs generalizing ys l with
  | nil => simp [commonRun]
  | cons a xs ih =>
    cases ys with
    | nil => simp [commonRun]
    | cons b ys =>
      unfold commonRun at h ⊢
      split
      · rename_i hab
        rw [if_pos hab] at h
        cases l with
        | zero => simp [hab]
        | succ l => simpa using ih (by omega)
      · rename_i hab
        rw [if_neg hab] at h
        obtain rfl : l = 0 := by omega
        simp [hab, eq_comm]

theorem commonRun_le (xs ys : Bytes) : commonRun xs ys ≤ ys.length := by
  rcases Nat.eq_zero_or_pos (commonRun xs ys) with h | h
  · omega
  · have hlt : commonRun xs ys - 1 < commonRun xs ys := Nat.sub_lt h Nat.one_pos
    obtain ⟨x, _, hy⟩ := (commonRun_lt_iff hlt.le).mp hlt
    have := (List.getElem?_eq_some_iff.mp hy).1
    omega

/-- A run goes on exactly while the bytes at candidate and position are there and equal. -/
theorem runAt_lt_iff {b : Bytes} {j pos l : Nat} (h : l ≤ runAt b j pos) :
    l < runAt b j pos ↔ ∃ x, b[j + l]? = some x ∧ b[pos + l]? = some x := by
  rw [runAt, commonRun_lt_iff h]; simp

/-- A run stays inside the input. -/
theorem runAt_le (b : Bytes) (j pos : Nat) : runAt b j pos ≤ b.length - pos := by
  simpa [runAt] using commonRun_le (b.drop j) (b.drop pos)

/-- The test of the run loop is what bounds the run. -/
theorem runContinues_eq {r : CompressRegs} {j l : Nat} (hn : r.n = r.input.length)
    (h : l ≤ runAt r.input j r.pos) : runContinues r j l = decide (l < runAt r.input j r.pos) := by
  rw [Bool.eq_iff_iff, decide_eq_true_eq, runAt_lt_iff h, runContinues, hn]
  rcases h1 : r.input[j + l]? with _ | x <;> rcases h2 : r.input[r.pos + l]? with _ | y
  · simp
  · simp
  · simp
  · have := (List.getElem?_eq_some_iff.mp h2).1
    simp only [this, decide_true, Bool.true_and, beq_iff_eq, Option.some.injEq]
    exact ⟨fun e => ⟨x, rfl, e.symm⟩, fun ⟨z, e1, e2⟩ => e1.trans e2.symm⟩

/-- The literal is the byte after the run, 0 past the end (R106). -/
theorem literalAfter_eq {r : CompressRegs} {l : Nat} (hn : r.n = r.input.length) :
    literalAfter r l = r.input.getD (r.pos + l) 0 := by
  rw [literalAfter, hn]
  split
  · rw [List.getD_eq_getElem?_getD]
    split <;> simp_all
  · rw [List.getD_eq_getElem?_getD, List.getElem?_eq_none (by omega)]; rfl

/-! ## Selection (R105) -/

/-- The incumbent of a search, as a match. -/
def incumbent (pos bestLen bestOff : Nat) : Match := { pos := pos, off := bestOff, len := bestLen }

/-- What one candidate makes of the incumbent. -/
def better (b : Bytes) (pos : Nat) (best : Match) (j : Nat) : Match :=
  if best.len < runAt b j pos then { pos := pos, off := pos - j, len := runAt b j pos } else best

/-- The selection is the candidates' fold. -/
theorem bestMatch_eq (w : Nat) (b : Bytes) (pos : Nat) :
    bestMatch w b pos = (List.range' (pos - w) (pos - (pos - w))).foldl (better b pos) (incumbent pos 0 0) := rfl

theorem better_pos {b : Bytes} {pos : Nat} {best : Match} {j : Nat} (h : best.pos = pos) :
    (better b pos best j).pos = pos := by
  unfold better; split <;> simp [h]

/-- A selected match knows where it was selected. -/
theorem bestMatch_pos (w : Nat) (b : Bytes) (pos : Nat) : (bestMatch w b pos).pos = pos := by
  have key : ∀ (l : List Nat) (m : Match), m.pos = pos → (l.foldl (better b pos) m).pos = pos := by
    intro l
    induction l with
    | nil => intro m h; exact h
    | cons j l ih => intro m h; exact ih _ (better_pos h)
  rw [bestMatch_eq]
  exact key _ _ rfl

/-! ## The loops of LZ.COMPRESS (R100) -/

section
variable {cfg : Config} {x : RandomSource} {r : CompressRegs}

/-- The run loop ends at the run. -/
theorem compress_run {lo j l bl bo : Nat} (hn : r.n = r.input.length) (hst : r.stage = .run lo j l bl bo)
    (hl : l ≤ runAt r.input j r.pos) :
    runUnit (quiet (tickCompress cfg)) (runAt r.input j r.pos - l) x r
      = (x, .running { r with stage := .run lo j (runAt r.input j r.pos) bl bo }) := by
  generalize hm : runAt r.input j r.pos - l = m
  induction m generalizing r l with
  | zero =>
    obtain rfl : l = runAt r.input j r.pos := by omega
    rw [runUnit_zero, ← hst]
  | succ m ih =>
    have hstep : quiet (tickCompress cfg) x r = (x, .running { r with stage := .run lo j (l + 1) bl bo }) := by
      rw [quiet, tickCompress, hst]
      simp only [runContinues_eq hn hl]
      rw [if_pos (by rw [decide_eq_true_eq]; omega)]
    rw [runUnit_succ_running hstep]
    exact ih (r := { r with stage := .run lo j (l + 1) bl bo }) hn rfl
      (by show l + 1 ≤ runAt r.input j r.pos; omega) (by show runAt r.input j r.pos - (l + 1) = m; omega)

/-- One candidate takes its run and two lines more, and leaves the better of incumbent and candidate. -/
theorem compress_candidate {lo j bl bo : Nat} (hn : r.n = r.input.length) (hst : r.stage = .candidate lo j bl bo)
    (hj : j < r.pos) :
    runUnit (quiet (tickCompress cfg)) (runAt r.input j r.pos + 2) x r
      = (x, .running { r with stage := (.candidate lo (j + 1) (better r.input r.pos (incumbent r.pos bl bo) j).len
          (better r.input r.pos (incumbent r.pos bl bo) j).off) }) := by
  have h1 : quiet (tickCompress cfg) x r = (x, .running { r with stage := .run lo j 0 bl bo }) := by
    rw [quiet, tickCompress, hst]; simp only [if_pos hj]
  have h2 := compress_run (cfg := cfg) (x := x) (r := { r with stage := .run lo j 0 bl bo }) hn rfl (Nat.zero_le _)
  rw [Nat.sub_zero] at h2
  rw [show runAt r.input j r.pos + 2 = (runAt r.input j r.pos + 1) + 1 by omega, runUnit_succ_running h1,
    runUnit_add h2]
  refine runUnit_succ_running ?_
  rw [quiet, tickCompress]
  simp only
  rw [runContinues_eq (r := { r with stage := .run lo j (runAt r.input j r.pos) bl bo }) hn le_rfl]
  simp only [lt_irrefl, decide_false, Bool.false_eq_true, if_false]
  simp only [improves, better, incumbent, decide_eq_true_eq]
  by_cases hb : bl < runAt r.input j r.pos <;> simp only [hb, if_true, if_false]
end

/-! ## The copy of LZ.DECOMPRESS (R113 to R116) -/

@[simp] theorem cyclicCopy_length (b : Bytes) (o k : Nat) : (cyclicCopy b o k).length = k := by simp [cyclicCopy]

theorem cyclicCopy_zero (b : Bytes) (o : Nat) : cyclicCopy b o 0 = [] := rfl

/-- Byte `k` of a copy. -/
theorem cyclicCopy_succ (b : Bytes) (o k : Nat) :
    cyclicCopy b o (k + 1) = cyclicCopy b o k ++ [b.getD (b.length - o + k % o) 0] := by
  simp [cyclicCopy, List.range_succ]

/-- What a copy appends is already in the output. -/
theorem cyclicCopy_mem {out : Bytes} {o l : Nat} (h1 : 0 < o) (h2 : o ≤ out.length) {x : Byte}
    (h : x ∈ cyclicCopy out o l) : x ∈ out := by
  obtain ⟨k, _, rfl⟩ := List.mem_map.mp h
  have := Nat.mod_lt k h1
  rw [List.getD_eq_getElem?_getD, List.getElem?_eq_getElem (by omega)]
  exact List.getElem_mem _

/-- Iteration `k` of the copy loop. -/
theorem copyByte_cyclic {b : Bytes} {o k : Nat} (h1 : 0 < o) (h2 : o ≤ b.length) :
    copyByte (b ++ cyclicCopy b o k) ((b.length : Int) - o) k = some (b ++ cyclicCopy b o (k + 1)) := by
  have e : ((b.length : Int) - o + k) = ((b.length - o + k : Nat) : Int) := by omega
  have key : (b ++ cyclicCopy b o k)[b.length - o + k]? = some (b.getD (b.length - o + k % o) 0) := by
    have hmod := Nat.mod_lt k h1
    rcases Nat.lt_or_ge k o with hk | hk
    · rw [List.getElem?_append_left (by omega), Nat.mod_eq_of_lt hk, List.getD_eq_getElem?_getD,
        List.getElem?_eq_getElem (by omega)]; rfl
    · rw [List.getElem?_append_right (by omega), show b.length - o + k - b.length = k - o by omega, cyclicCopy,
        List.getElem?_map, List.getElem?_range (by omega)]
      simp only [Option.map_some]
      rw [Nat.mod_eq_sub_mod hk]
  rw [copyByte, e, readByte_nat, key]
  simp [append, cyclicCopy_succ]

/-- `m` iterations of the copy loop. -/
theorem copyBytes_cyclic {b : Bytes} {o m k : Nat} (h1 : 0 < o) (h2 : o ≤ b.length) :
    copyBytes m ((b.length : Int) - o) k (b ++ cyclicCopy b o k) = some (b ++ cyclicCopy b o (k + m)) := by
  induction m generalizing k with
  | zero => rfl
  | succ m ih =>
    rw [copyBytes, copyByte_cyclic h1 h2]
    simp only
    rw [ih, show k + 1 + m = k + (m + 1) by omega]

/-- When a copy faults (R115). -/
theorem copyFaults_iff (out : Bytes) (o l : U16) :
    copyFaults out o l = true ↔ l ≠ 0 ∧ (o = 0 ∨ out.length < o.toNat) := by
  simp [copyFaults, hasCopy, copySource]

theorem toNat_pos_of_ne_zero {w : Nat} {o : BitVec w} (h : o ≠ 0) : 0 < o.toNat := by
  rcases Nat.eq_zero_or_pos o.toNat with h0 | h0
  · exact absurd (BitVec.eq_of_toNat_eq (by simpa using h0)) h
  · exact h0

/-- A copy that does not fault and is not empty has its source inside the output. -/
theorem copy_source_inside {out : Bytes} {o l : U16} (hl : l ≠ 0)
    (h : ¬ (l ≠ 0 ∧ (o = 0 ∨ out.length < o.toNat))) : 0 < o.toNat ∧ o.toNat ≤ out.length :=
  ⟨toNat_pos_of_ne_zero fun ho => h ⟨hl, .inl ho⟩, by by_contra hc; exact h ⟨hl, .inr (by omega)⟩⟩

/-- Everything the copy of a token can do: fault, or append its bytes. -/
theorem copyRun_eq (out : Bytes) (o l : U16) :
    copyRun out o l = if l ≠ 0 ∧ (o = 0 ∨ out.length < o.toNat) then none
      else some (out ++ cyclicCopy out o.toNat l.toNat) := by
  rw [copyRun]
  by_cases h : copyFaults out o l = true
  · rw [if_pos h, if_pos ((copyFaults_iff _ _ _).mp h)]
  · have h' := mt (copyFaults_iff out o l).mpr h
    rw [if_neg h, if_neg h']
    by_cases hl : l = 0
    · subst hl; simp [copyBytes, cyclicCopy_zero]
    · obtain ⟨h3, h4⟩ := copy_source_inside hl h'
      have := copyBytes_cyclic (b := out) (m := l.toNat) (k := 0) h3 h4
      rw [cyclicCopy_zero, List.append_nil, Nat.zero_add] at this
      exact this

/-- The literal, appended unless it is the sentinel (R116). -/
theorem appendLiteral_eq (out : Bytes) (n : Byte) : appendLiteral out n = out ++ literalOf n := by
  by_cases h : n = 0
  · subst h; simp [appendLiteral, literalOf, hasLit]
  · rw [appendLiteral, literalOf, if_neg h, hasLit, if_pos (by simpa using h), append]

/-- A token form's meaning where a replay stands before a token. -/
theorem withReplay_at {s : State} {r : ReplayRegs} (h : s.phase = .running (.lzDecompress r)) (hst : r.stage = .token)
    (go : ReplayRegs → Tick ReplayRegs Bytes) :
    withReplay s go = .next (conclude s .lzDecompress .bytes (s.random, go r)) := by
  rw [withReplay, h]; simp only [hst]

/-- A token form gives a next state only where a replay stands before a token. -/
theorem withReplay_next {s t : State} {go : ReplayRegs → Tick ReplayRegs Bytes} (h : withReplay s go = .next t) :
    ∃ r, s.phase = .running (.lzDecompress r) ∧ r.stage = .token ∧
      t = conclude s .lzDecompress .bytes (s.random, go r) := by
  unfold withReplay at h
  split at h
  · split at h
    · rename_i hst
      cases h
      exact ⟨_, ‹_›, hst, rfl⟩
    · cases h
  · cases h

end Sys2Proof.Machine
end

