-- ==== Sys2Proof/Laws/PerInstr.lean ====
section
/-! SUPPORT. What holds of every instruction as syntax, one lemma per constructor. -/

namespace Sys2Proof.Laws

/-- Nothing is variable-length coded (R83): an operation is one byte (R85), a token form is the five bytes of its token's
record (R75). -/
def EncodingLength.Statement (i : Instr) : Prop :=
  (encode i).length = if i.token?.isNone then 1 else Config.tokenBytes

theorem EncodingLength.lzCompress : EncodingLength.Statement .lzCompress := rfl
theorem EncodingLength.lzDecompress : EncodingLength.Statement .lzDecompress := rfl
theorem EncodingLength.tsToBytes : EncodingLength.Statement .tsToBytes := rfl
theorem EncodingLength.tsFromBytes : EncodingLength.Statement .tsFromBytes := rfl
theorem EncodingLength.q5Encode : EncodingLength.Statement .q5Encode := rfl
theorem EncodingLength.q5Decode : EncodingLength.Statement .q5Decode := rfl
theorem EncodingLength.envSeal : EncodingLength.Statement .envSeal := rfl
theorem EncodingLength.envOpen : EncodingLength.Statement .envOpen := rfl
theorem EncodingLength.pipeEncrypt : EncodingLength.Statement .pipeEncrypt := rfl
theorem EncodingLength.pipeDecrypt : EncodingLength.Statement .pipeDecrypt := rfl
theorem EncodingLength.tNull (offset : U16) : EncodingLength.Statement (.tNull offset) := rfl
theorem EncodingLength.tLit (offset : U16) (next : Byte) : EncodingLength.Statement (.tLit offset next) := rfl
theorem EncodingLength.tCopy (offset length : U16) : EncodingLength.Statement (.tCopy offset length) := rfl
theorem EncodingLength.tCopyLit (offset length : U16) (next : Byte) :
    EncodingLength.Statement (.tCopyLit offset length next) := rfl

end Sys2Proof.Laws
end

