-- ==== Sys2Proof/Laws/Primitives.lean ====
section
/-! SUPPORT. The lengths of what the primitives give, and that the key stream XORed twice cancels. The lemmas are stated
so that no proof has to unfold a hash or a cipher block. -/

namespace Sys2Proof.Machine

/-! ## Hash and key derivation -/

theorem shaOutput_length (s : HashState) : (shaOutput s).length = 32 := by simp [shaOutput, wordBytesBE]

/-- R224. -/
theorem sha256_length (m : Bytes) : (sha256 m).length = 32 := shaOutput_length _

/-- R230. -/
theorem hmac_length (k m : Bytes) : (hmac k m).length = 32 := sha256_length _

/-- One block of the expand step (R235). -/
theorem hkdfExpand_one (prk info : Bytes) : hkdfExpand prk info 1 1 [] = hmac prk (info ++ [0x01]) := by
  rw [hkdfExpand, hkdfExpand]
  rw [List.append_nil, List.nil_append, show BitVec.ofNat 8 1 = 0x01 from rfl]

/-- The extract step with a salt (R235). -/
theorem hkdfExtract_salt (key salt : Bytes) (h : salt ≠ []) : hkdfExtract key salt = hmac salt key := by
  have h2 : salt.isEmpty = false := by simpa using h
  rw [hkdfExtract, h2, if_neg (by decide)]

/-! ## ChaCha20 -/

theorem chachaOutput_length (w s : ChaChaState) : (chachaOutput w s).length = 64 := by
  simp only [chachaOutput, wordBytesLE, List.length_append, toLE_length]

/-- R241. -/
theorem chachaBlock_length (key : Bytes) (c : U32) (nonce : Bytes) : (chachaBlock key c nonce).length = 64 :=
  chachaOutput_length _ _

theorem xorPieces_length (key nonce : Bytes) (c : U32) (ps : List Bytes) (h : ∀ p ∈ ps, p.length ≤ 64) :
    (xorPieces key nonce c ps).length = ps.flatten.length := by
  induction ps generalizing c with
  | nil => rfl
  | cons p ps ih =>
    have := h p (by simp)
    simp [xorPieces, chachaBlock_length, ih _ (fun q hq => h q (by simp [hq]))]
    omega

/-- The output is as long as the data (R242). -/
theorem chachaXor_length (key nonce m : Bytes) (c : U32) : (chachaXor key c nonce m).length = m.length := by
  have := xorPieces_length key nonce c (pieces 64 m) (fun _ => pieces_length_le)
  rw [chachaXor, this, pieces_flatten (by decide)]

theorem zipWith_xor_twice (p b : Bytes) (h : p.length ≤ b.length) :
    List.zipWith (· ^^^ ·) (List.zipWith (· ^^^ ·) p b) b = p := by
  induction p generalizing b with
  | nil => simp
  | cons x p ih =>
    cases b with
    | nil => simp at h
    | cons y b => simp at h; simp [ih b h]

/-- Encryption and decryption are the same function (R242). -/
theorem chachaXor_twice (key nonce : Bytes) (c : U32) (m : Bytes) :
    chachaXor key c nonce (chachaXor key c nonce m) = m := by
  unfold chachaXor
  generalize hn : m.length = n
  induction n using Nat.strong_induction_on generalizing m c with
  | _ n ih =>
    rw [pieces_eq (by decide) m]
    split
    · subst_vars; rfl
    · rename_i hm
      have hl := List.length_pos_iff.mpr hm
      simp only [xorPieces]
      have h1 : (List.zipWith (· ^^^ ·) (m.take 64) (chachaBlock key c nonce)).length = min 64 m.length := by
        rw [List.length_zipWith, chachaBlock_length, List.length_take]; omega
      set z := List.zipWith (· ^^^ ·) (m.take 64) (chachaBlock key c nonce) with hz
      set rest := xorPieces key nonce (c + 1) (pieces 64 (m.drop 64)) with hrest
      have hrl : rest.length = m.length - 64 := by
        have := chachaXor_length key nonce (m.drop 64) (c + 1)
        simpa [hrest, chachaXor] using this
      have hne : z ++ rest ≠ [] := by
        intro h
        have := congrArg List.length h
        rw [List.length_append, h1, List.length_nil] at this; omega
      have htake : (z ++ rest).take 64 = z := by
        rcases Nat.lt_or_ge m.length 64 with h | h
        · have : rest = [] := by apply List.eq_nil_of_length_eq_zero; omega
          rw [this, List.append_nil, List.take_of_length_le]; omega
        · rw [List.take_left' (by omega)]
      have hdrop : (z ++ rest).drop 64 = rest := by
        rcases Nat.lt_or_ge m.length 64 with h | h
        · have : rest = [] := by apply List.eq_nil_of_length_eq_zero; omega
          rw [this, List.append_nil, List.drop_eq_nil_of_le]; omega
        · rw [List.drop_left' (by omega)]
      rw [pieces_eq (by decide) (z ++ rest), if_neg hne, htake, hdrop]
      simp only [xorPieces]
      rw [hrest, ih (m.drop 64).length (by simp; omega) (c + 1) (m.drop 64) rfl, hz, zipWith_xor_twice,
        List.take_append_drop]
      rw [List.length_take, chachaBlock_length]; omega

/-! ## The AEAD -/

/-- R245. -/
theorem aeadTag_length (k n a b : Bytes) : (aeadTag k n a b).length = 16 := by simp [aeadTag, poly1305]

/-- A sealed payload is the body and 16 bytes of tag (R245). -/
theorem aeadSeal_length (k n a m : Bytes) : (aeadSeal k n a m).length = m.length + 16 := by
  simp [aeadSeal, chachaXor_length, aeadTag_length]

/-- The body of what was sealed (R246). -/
theorem ctBody_aeadSeal (k n a m : Bytes) : ctBody (aeadSeal k n a m) = chachaXor k 1 n m := by
  rw [ctBody, aeadSeal_length, aeadSeal]
  exact List.take_left' (by rw [chachaXor_length]; simp [Config.tagLen])

/-- The tag of what was sealed (R246). -/
theorem ctTag_aeadSeal (k n a m : Bytes) : ctTag (aeadSeal k n a m) = aeadTag k n a (chachaXor k 1 n m) := by
  rw [ctTag, aeadSeal_length, aeadSeal]
  exact List.drop_left' (by rw [chachaXor_length]; simp [Config.tagLen])

end Sys2Proof.Machine
end

