-- ==== Sys2Proof/Laws/Q5.lean ====
section
/-! SUPPORT. Unit Q5: the two glyph tables invert each other (R80, R81), and what a list of digits stands for (R147). -/

namespace Sys2Proof.Machine

/-! ## The glyph tables -/

@[simp] theorem indexOf_glyphOf (a : Alphabet) (d : Digit) : indexOf a (glyphOf a d) = some d := by
  have h := a.distinct
  simp only [List.nodup_cons, List.mem_cons, List.not_mem_nil, or_false, not_or] at h
  fin_cases d <;> simp [glyphOf, indexOf] <;> grind

theorem glyphOf_of_indexOf {a : Alphabet} {c : Glyph} {d : Digit} (h : indexOf a c = some d) : glyphOf a d = c := by
  simp only [indexOf] at h
  repeat' split at h
  all_goals first | (cases h; done) | (cases h; simp_all [glyphOf])

/-- Every glyph of a string of digits is read. -/
theorem mapM_indexOf_glyphs (a : Alphabet) (ds : List Digit) : (ds.map (glyphOf a)).mapM (indexOf a) = some ds := by
  induction ds with
  | nil => rfl
  | cons d ds ih => rw [List.map_cons, List.mapM_cons, indexOf_glyphOf, ih]; rfl

/-- A string that is read throughout is a string of digits. -/
theorem glyphs_of_mapM_indexOf {a : Alphabet} {g : Glyphs} {ds : List Digit} (h : g.mapM (indexOf a) = some ds) :
    g = ds.map (glyphOf a) := by
  induction g generalizing ds with
  | nil => simp at h; subst h; rfl
  | cons c g ih =>
    rw [List.mapM_cons] at h
    cases hc : indexOf a c with
    | none => rw [hc] at h; cases h
    | some d =>
      cases hm : g.mapM (indexOf a) with
      | none => rw [hc, hm] at h; cases h
      | some es =>
        rw [hc, hm] at h
        cases h
        rw [List.map_cons, glyphOf_of_indexOf hc, ih hm]

/-! ## Digits -/

/-- The least significant digit (R156). -/
theorem digits_cons {n : Nat} (h : n ≠ 0) : Nat.digits 5 n = n % 5 :: Nat.digits 5 (n / 5) := by
  rw [Nat.digits_def' (by norm_num) (by omega)]

@[simp] theorem digitsValue_nil : digitsValue [] = 0 := rfl

/-- One digit more at the end. -/
theorem digitsValue_concat (ds : List Digit) (d : Digit) : digitsValue (ds ++ [d]) = digitsValue ds * 5 + d.val := by
  simp [digitsValue]

/-- The value fits the number of digits. -/
theorem digitsValue_lt (ds : List Digit) : digitsValue ds < 5 ^ ds.length := by
  induction ds using List.reverseRecOn with
  | nil => simp
  | append_singleton ds d ih =>
    have hd := d.isLt
    rw [digitsValue_concat, List.length_append, List.length_cons, List.length_nil, pow_succ]
    omega

end Sys2Proof.Machine
end

