-- ==== Sys2Proof/Tests/Slice0.lean ====
section
/-! SUPPORT. Tests. Expected values come from the vectors of 95_test_vectors.md (their names in the docstrings) and the
encodings of 30_encoding.md. The second half shows, for each statement with hypotheses, a state that meets them. -/

namespace Sys2Proof.Tests

open Sys2Proof.Machine

/-! ## Helpers -/

/-- The draw tape of R291: salt `00 .. 0F`, nonce `10 .. 1B`. -/
def salt : Bytes := [0x00, 0x01, 0x02, 0x03, 0x04, 0x05, 0x06, 0x07, 0x08, 0x09, 0x0A, 0x0B, 0x0C, 0x0D, 0x0E, 0x0F]

def nonce : Bytes := [0x10, 0x11, 0x12, 0x13, 0x14, 0x15, 0x16, 0x17, 0x18, 0x19, 0x1A, 0x1B]

def tape : RandomSource := { answers := [some salt, some nonce], drawn := 0 }

/-- The bytes of an ASCII string. -/
def ascii (s : String) : Bytes := s.toList.map fun c => BitVec.ofNat 8 c.toNat

def tok (o l n : Nat) : Token := { offset := BitVec.ofNat 16 o, length := BitVec.ofNat 16 l, next := BitVec.ofNat 8 n }

/-- No input buffer filled. -/
def noInputs : Inputs := { bytes := [], tokens := [], glyphs := [], key := [] }

/-- Under CFG_EX and the tape, an operation started on the inputs. -/
def started (code : Byte) (inp : Inputs) : State :=
  { cfg := Config.example1, op := some code, status := 0, output := none, phase := .started inp, random := tape
    host := [] }

def onBytes (code : Byte) (b : Bytes) : State := started code { noInputs with bytes := b }
def onTokens (code : Byte) (t : Tokens) : State := started code { noInputs with tokens := t }
def onGlyphs (code : Byte) (g : String) : State := started code { noInputs with glyphs := g.toList }
def keyed (code : Byte) (b : Bytes) (key : String) : State := started code { noInputs with bytes := b, key := ascii key }

/-- A replay with `OUT` = "AB" that stands before the token `t`. -/
def replayRegs (t : Token) : ReplayRegs := { tok := [t], ti := 0, out := ascii "AB", stage := .token }

def replaying (t : Token) : State :=
  { started 0x11 noInputs with phase := .running (.lzDecompress (replayRegs t)) }

/-- The output an outcome leaves, if it is a next state with status `OK`. -/
def okOutput : Host.Outcome State Fault Refusal → Option Output
  | .next t => if t.status = 0 then t.output else none
  | _ => none

/-- The status an outcome leaves and whether there is an output. -/
def ending : Host.Outcome State Fault Refusal → Option (Byte × Bool)
  | .next t => some (t.status, t.output.isSome)
  | _ => none

/-- `OUT` of the replay an outcome leaves. -/
def outAfter : Host.Outcome State Fault Refusal → Option Bytes
  | .next t =>
    match t.phase with
    | .running (.lzDecompress r) => some r.out
    | _ => none
  | _ => none

def envelopeOf : Host.Outcome State Fault Refusal → Bytes
  | .next t =>
    match t.output with
    | some (.bytes b) => b
    | _ => []
  | _ => []

def glyphsOf : Host.Outcome State Fault Refusal → Glyphs
  | .next t =>
    match t.output with
    | some (.glyphs g) => g
    | _ => []
  | _ => []

def isNext : Host.Outcome State Fault Refusal → Bool
  | .next _ => true
  | _ => false

/-! ## WellFormed -/

theorem test_tLit_next_zero_refused : (Instr.tLit 0 0).wellFormed = false := by decide
theorem test_tCopy_length_zero_refused : (Instr.tCopy 1 0).wellFormed = false := by decide
theorem test_tCopyLit_length_zero_refused : (Instr.tCopyLit 1 0 0x43).wellFormed = false := by decide
theorem test_tCopyLit_next_zero_refused : (Instr.tCopyLit 1 1 0).wellFormed = false := by decide

/-! ## Decoding: words written out from R85 and R75, as in section 8 of the vectors -/

theorem test_decode_lzCompress : decode [0x10] = .ok .lzCompress := by decide
theorem test_decode_lzDecompress : decode [0x11] = .ok .lzDecompress := by decide
theorem test_decode_tsToBytes : decode [0x20] = .ok .tsToBytes := by decide
theorem test_decode_tsFromBytes : decode [0x21] = .ok .tsFromBytes := by decide
theorem test_decode_q5Encode : decode [0x30] = .ok .q5Encode := by decide
theorem test_decode_q5Decode : decode [0x31] = .ok .q5Decode := by decide
theorem test_decode_envSeal : decode [0x40] = .ok .envSeal := by decide
theorem test_decode_envOpen : decode [0x41] = .ok .envOpen := by decide
theorem test_decode_pipeEncrypt : decode [0x50] = .ok .pipeEncrypt := by decide
theorem test_decode_pipeDecrypt : decode [0x51] = .ok .pipeDecrypt := by decide
theorem test_decode_tNull : decode [0x12, 0x34, 0x00, 0x00, 0x00] = .ok (.tNull 0x1234) := by decide
theorem test_decode_tLit : decode [0xFF, 0xFF, 0x00, 0x00, 0x43] = .ok (.tLit 0xFFFF 0x43) := by decide
theorem test_decode_tCopy : decode [0x04, 0x00, 0xFF, 0xFE, 0x00] = .ok (.tCopy 1024 0xFFFE) := by decide
theorem test_decode_tCopyLit : decode [0x12, 0x34, 0xAB, 0xCD, 0x7F] = .ok (.tCopyLit 0x1234 0xABCD 0x7F) := by decide
theorem test_decode_unknown : decode [0x52] = .error (.unknownOperation 0x52) := by decide
theorem test_decode_short_record : decode [0x01, 0x02, 0x03, 0x04] = .error (.noSuchLength 4) := by decide
theorem test_table_word : decodeTableWord 40 0x1234ABCD7F = some (.tCopyLit 0x1234 0xABCD 0x7F) := by decide
theorem test_table_unknown : decodeTableWord 8 0xFF = none := by decide

/-! ## Instructions -/

/-- C9: an overlapping run, then a literal. -/
theorem test_compress_overlap : okOutput (exec .lzCompress (onBytes 0x10 (ascii "abcabcabcd"))) =
    some (.tokens [tok 0 0 97, tok 0 0 98, tok 0 0 99, tok 3 6 100]) := by decide +kernel

/-- C13: of equal runs the most distant one is kept. -/
theorem test_compress_tie : okOutput (exec .lzCompress (onBytes 0x10 (ascii "xabyabzab"))) =
    some (.tokens [tok 0 0 120, tok 0 0 97, tok 0 0 98, tok 0 0 121, tok 3 2 122, tok 6 2 0]) := by decide +kernel

/-- D7: the copy reads bytes it wrote. -/
theorem test_decompress_overlap :
    okOutput (exec .lzDecompress (onTokens 0x11 [tok 0 0 65, tok 0 0 66, tok 2 5 67])) =
      some (.bytes (ascii "ABABABAC")) := by decide +kernel

/-- D8: nothing of the output is left. -/
theorem test_decompress_fault : ending (exec .lzDecompress (onTokens 0x11 [tok 0 0 65, tok 2 1 0])) =
    some (0x08, false) := by decide +kernel

/-- T5. -/
theorem test_toBytes : okOutput (exec .tsToBytes (onTokens 0x20 [tok 1024 65535 255, tok 0x1234 0xABCD 0x7F])) =
    some (.bytes [0x04, 0x00, 0xFF, 0xFF, 0xFF, 0x12, 0x34, 0xAB, 0xCD, 0x7F]) := by decide

/-- T10: two bytes dropped. -/
theorem test_fromBytes : okOutput (exec .tsFromBytes (onBytes 0x21 [1, 2, 3, 4, 5, 6, 7])) =
    some (.tokens [tok 258 772 5]) := by decide

/-- Q12. -/
theorem test_encode : okOutput (exec .q5Encode (onBytes 0x30 [0x45, 0x58, 0x4D, 0x31])) =
    some (.glyphs "4340313233313".toList) := by decide +kernel

/-- Q10: a leading zero byte leaves no trace. -/
theorem test_encode_leading_zero : okOutput (exec .q5Encode (onBytes 0x30 [0x00, 0x01])) =
    some (.glyphs ['1']) := by decide +kernel

/-- Q21. -/
theorem test_decode_glyphs : okOutput (exec .q5Decode (onGlyphs 0x31 "44444")) = some (.bytes [0x0C, 0x34]) := by
  decide +kernel

/-- Q22. -/
theorem test_decode_invalid : ending (exec .q5Decode (onGlyphs 0x31 "12a")) = some (0x04, false) := by decide +kernel

/-- E2: the sealed payload of "abab". -/
def envelopeE2 : Bytes :=
  [0x45, 0x58, 0x4D, 0x31] ++ salt ++ nonce ++
    [0xD8, 0x6F, 0x66, 0x35, 0xC8, 0x40, 0xD4, 0x02, 0xBB, 0xA7, 0x8B, 0x0E, 0x94, 0x72, 0x31, 0xA5, 0x29, 0xB6, 0x19,
      0x97, 0x23, 0x45, 0x33, 0x73, 0xB0, 0xAC, 0x52, 0x3D, 0x53, 0xC9, 0xFE]

def payloadE2 : Bytes := [0, 0, 0, 0, 0x61, 0, 0, 0, 0, 0x62, 0, 2, 0, 2, 0]

theorem test_seal : okOutput (exec .envSeal (keyed 0x40 payloadE2 "key")) = some (.bytes envelopeE2) := by
  decide +kernel

theorem test_open : okOutput (exec .envOpen (keyed 0x41 envelopeE2 "key")) = some (.bytes payloadE2) := by
  decide +kernel

/-- X7. -/
theorem test_open_no_tag :
    ending (exec .envOpen (onBytes 0x41 ([0x45, 0x58, 0x4D, 0x31] ++ List.replicate 28 0))) = some (0x07, false) := by
  decide +kernel

/-- E1: the empty plaintext, key "k". -/
def cipherE1 : String :=
  "2221442023124443243113441322244143333043413100323004110010130031221202242010420024430122400430422101" ++
    "20411223120440330241134341321120410424432440233012423404322021312"

def encryptE1 : State := keyed 0x50 [] "k"

theorem test_encrypt : okOutput (exec .pipeEncrypt encryptE1) = some (.glyphs cipherE1.toList) := by decide +kernel

def decryptE1 : State := started 0x51 { noInputs with glyphs := cipherE1.toList, key := ascii "k" }

theorem test_decrypt : okOutput (exec .pipeDecrypt decryptE1) = some (.bytes []) := by decide +kernel

/-- X2. -/
theorem test_decrypt_short : ending (exec .pipeDecrypt (onGlyphs 0x51 "1")) = some (0x05, false) := by decide +kernel

/-- Section 8: each token form on `OUT` = "AB". -/
theorem test_tNull : outAfter (step (replaying (tok 0x1234 0 0))) = some (ascii "AB") := by decide
theorem test_tLit : outAfter (step (replaying (tok 0xFFFF 0 0x43))) = some (ascii "ABC") := by decide
theorem test_tCopy : outAfter (step (replaying (tok 1 3 0))) = some (ascii "ABBBB") := by decide
theorem test_tCopy_outside : ending (step (replaying (tok 3 1 0))) = some (0x08, false) := by decide
theorem test_tCopyLit : outAfter (step (replaying (tok 2 3 0x43))) = some (ascii "ABABAC") := by decide
theorem test_tCopyLit_distance_zero : ending (step (replaying (tok 0 1 0x43))) = some (0x08, false) := by decide

/-! ## Primitives: the published vectors of 45_crypto_primitives.md -/

/-- R225. -/
theorem test_sha256 : sha256 (ascii "abc") =
    [0xBA, 0x78, 0x16, 0xBF, 0x8F, 0x01, 0xCF, 0xEA, 0x41, 0x41, 0x40, 0xDE, 0x5D, 0xAE, 0x22, 0x23,
     0xB0, 0x03, 0x61, 0xA3, 0x96, 0x17, 0x7A, 0x9C, 0xB4, 0x10, 0xFF, 0x61, 0xF2, 0x00, 0x15, 0xAD] := by
  decide +kernel

/-- R231. -/
theorem test_hmac : hmac (List.replicate 20 0x0B) (ascii "Hi There") =
    [0xB0, 0x34, 0x4C, 0x61, 0xD8, 0xDB, 0x38, 0x53, 0x5C, 0xA8, 0xAF, 0xCE, 0xAF, 0x0B, 0xF1, 0x2B,
     0x88, 0x1D, 0xC2, 0x00, 0xC9, 0x83, 0x3D, 0xA7, 0x26, 0xE9, 0x37, 0x6C, 0x2E, 0x32, 0xCF, 0xF7] := by
  decide +kernel

/-- R244. -/
theorem test_poly1305 :
    poly1305
      [0x85, 0xD6, 0xBE, 0x78, 0x57, 0x55, 0x6D, 0x33, 0x7F, 0x44, 0x52, 0xFE, 0x42, 0xD5, 0x06, 0xA8,
       0x01, 0x03, 0x80, 0x8A, 0xFB, 0x0D, 0xB2, 0xFD, 0x4A, 0xBF, 0xF6, 0xAF, 0x41, 0x49, 0xF5, 0x1B]
      (ascii "Cryptographic Forum Research Group") =
    [0xA8, 0x06, 0x1D, 0xC1, 0x30, 0x51, 0x36, 0xC6, 0xC2, 0x2B, 0x8B, 0xAF, 0x0C, 0x01, 0x27, 0xA9] := by
  decide +kernel

/-- R237: two blocks of the expand step, the first ten bytes of the output and its length. -/
theorem test_hkdf :
    (hkdf (List.replicate 22 0x0B) [0, 1, 2, 3, 4, 5, 6, 7, 8, 9, 10, 11, 12]
      [0xF0, 0xF1, 0xF2, 0xF3, 0xF4, 0xF5, 0xF6, 0xF7, 0xF8, 0xF9] 42).map (fun b => (b.take 10, b.drop 38)) =
    some ([0x3C, 0xB2, 0x5F, 0x25, 0xFA, 0xAC, 0xD5, 0x7A, 0x90, 0x43], [0x87, 0x18, 0x58, 0x65]) := by
  decide +kernel

/-! ## Witnesses: for each statement with hypotheses, concrete values that meet them together -/

theorem witness_DecodeOfEncodeIsTheInstruction :
    (Instr.tCopyLit 0 1 1).wellFormed = true ∧ (Instr.tCopyLit 0xFFFF 0xFFFF 0xFF).wellFormed = true ∧
      (Instr.tLit 0 1).wellFormed = true ∧ (Instr.tCopy 0 1).wellFormed = true := by decide

theorem witness_DecodedBytesAreTheEncoding :
    decode [0x51] = .ok .pipeDecrypt ∧ decode [0, 0, 0, 0, 0] = .ok (.tNull 0) ∧
      decode [0, 1, 0, 1, 1] = .ok (.tCopyLit 1 1 1) ∧
      (onBytes 0x21 [1, 2, 3, 4, 5]).phase = .started { noInputs with bytes := [1, 2, 3, 4, 5] } ∧
      ([1, 2, 3, 4, 5] : Bytes).take 5 = [1, 2, 3, 4, 5] ∧
      (onTokens 0x20 [tok 258 772 5]).phase = .started { noInputs with tokens := [tok 258 772 5] } ∧
      [tok 258 772 5][0]? = some (tok 258 772 5) := by decide

/-! ### Operations started on their inputs -/

theorem witness_LzCompressEmitsTheGreedyMatches :
    (onBytes 0x10 (ascii "abab")).phase = .started { noInputs with bytes := ascii "abab" } := rfl

theorem witness_LzDecompressReplaysTheTokens :
    (onTokens 0x11 [tok 0 0 65]).phase = .started { noInputs with tokens := [tok 0 0 65] } := rfl

theorem witness_TsToBytesWritesFiveBytesAToken :
    (onTokens 0x20 [tok 3 6 100]).phase = .started { noInputs with tokens := [tok 3 6 100] } ∧
      [tok 3 6 100][0]? = some (tok 3 6 100) := ⟨rfl, rfl⟩

theorem witness_TsFromBytesReadsWholeRecords :
    (onBytes 0x21 [1, 2, 3, 4, 5, 6]).phase = .started { noInputs with bytes := [1, 2, 3, 4, 5, 6] } ∧
      [tok 258 772 5][0]? = some (tok 258 772 5) := ⟨rfl, rfl⟩

theorem witness_Q5EncodeWritesTheNumeral :
    (onBytes 0x30 [5]).phase = .started { noInputs with bytes := [5] } := rfl

theorem witness_Q5DecodeReadsTheNumeral :
    (onGlyphs 0x31 "10").phase = .started { noInputs with glyphs := ['1', '0'] } ∧
      (['1', '0'] : Glyphs) = [1, 0].map (glyphOf Config.example1.alphabet) := ⟨rfl, rfl⟩

/-- The longest payload that is sealed. -/
def longestPayload : Bytes := List.replicate Config.aeadLimit 0

theorem longestPayload_length : longestPayload.length = Config.aeadLimit := List.length_replicate

theorem witness_EnvSealFramesAndEncrypts :
    (onBytes 0x40 longestPayload).phase = .started { noInputs with bytes := longestPayload } ∧
      longestPayload.length ≤ Config.aeadLimit := ⟨rfl, longestPayload_length.le⟩

theorem witness_EnvOpenChecksAndDecrypts :
    (onBytes 0x41 (magicBytes Magic.example1 ++ List.replicate 44 0 ++ longestPayload)).phase =
        .started { noInputs with bytes := magicBytes Magic.example1 ++ List.replicate 44 0 ++ longestPayload } ∧
      (magicBytes Magic.example1 ++ List.replicate 44 0 ++ longestPayload).length ≤ Config.aeadLimit + 48 ∧
    (List.replicate 40 (0 : Byte)).take 4 ≠ magicBytes (onBytes 0x41 (List.replicate 40 0)).cfg.magic := by
  refine ⟨rfl, le_of_eq ?_, by decide⟩
  rw [List.length_append, longestPayload_length, Nat.add_comm]; rfl

theorem witness_PipeEncryptChainsTheUnits :
    (keyed 0x50 (ascii "abab") "key").phase =
        .started { noInputs with bytes := ascii "abab", key := ascii "key" } ∧
      ∀ ts, compressFn Config.example1 (ascii "abab") = .ok ts → 5 * ts.length ≤ Config.aeadLimit :=
  ⟨rfl, fun _ h => by cases h; decide⟩

theorem shortRaw_length {g : Glyphs} {raw : Bytes}
    (hs : (match decodeFn Config.example1 g with | .ok b => decide (b.length ≤ 100) | .error _ => true) = true)
    (h : decodeFn Config.example1 g = .ok raw) : raw.length ≤ Config.aeadLimit + 48 := by
  rw [h] at hs
  exact (of_decide_eq_true hs).trans (by decide)

theorem witness_PipeDecryptChainsTheUnits :
    decryptE1.phase = .started { noInputs with glyphs := cipherE1.toList, key := ascii "k" } ∧
      ∀ raw, decodeFn Config.example1 cipherE1.toList = .ok raw → raw.length ≤ Config.aeadLimit + 48 ∨
        raw.take 4 ≠ magicBytes Config.example1.magic :=
  ⟨rfl, fun raw h => .inl (shortRaw_length (by decide +kernel) h)⟩

/-! ### Token forms -/

theorem witness_NullTokenOnlyMovesOn :
    (replaying (tok 7 0 0)).phase = .running (.lzDecompress (replayRegs (tok 7 0 0))) ∧
      (replayRegs (tok 7 0 0)).stage = .token := ⟨rfl, rfl⟩

theorem witness_LiteralTokenAppendsItsByte :
    (replaying (tok 7 0 67)).phase = .running (.lzDecompress (replayRegs (tok 7 0 67))) ∧
      (replayRegs (tok 7 0 67)).stage = .token ∧ (67 : Byte) ≠ 0 := ⟨rfl, rfl, by decide⟩

/-- At both ends of the range of distances, 1 and `|OUT|`. -/
theorem witness_CopyTokensRepeatTheLastBytes :
    (replaying (tok 2 3 67)).phase = .running (.lzDecompress (replayRegs (tok 2 3 67))) ∧
      (replayRegs (tok 2 3 67)).stage = .token ∧ (1 : U16) ≠ 0 ∧ (2 : U16) ≠ 0 ∧
      (1 : U16).toNat ≤ (replayRegs (tok 2 3 67)).out.length ∧ (2 : U16).toNat = (replayRegs (tok 2 3 67)).out.length ∧
      (67 : Byte) ≠ 0 := ⟨rfl, rfl, by decide, by decide, by decide, by decide, by decide⟩

/-- Distance 0, and the first distance past `|OUT|`. -/
theorem witness_CopyOutOfRangeEndsTheReplay :
    (replaying (tok 3 1 0)).phase = .running (.lzDecompress (replayRegs (tok 3 1 0))) ∧
      (replayRegs (tok 3 1 0)).stage = .token ∧ (1 : U16) ≠ 0 ∧
      ((0 : U16) = 0 ∨ (replayRegs (tok 3 1 0)).out.length < (0 : U16).toNat) ∧
      ((3 : U16) = 0 ∨ (replayRegs (tok 3 1 0)).out.length < (3 : U16).toNat) ∧
      (replayRegs (tok 3 1 0)).out.length + 1 = (3 : U16).toNat :=
  ⟨rfl, rfl, by decide, by decide, by decide, by decide⟩

/-! ### The step -/

/-- An operation, and a token of a replay. -/
theorem witness_StepRunsTheDecodedInstruction :
    (pendingReset (onBytes 0x30 [5]) = none ∧ fetch (onBytes 0x30 [5]) = some [0x30] ∧
      decode [0x30] = .ok .q5Encode) ∧
    (pendingReset (replaying (tok 2 3 67)) = none ∧ fetch (replaying (tok 2 3 67)) = some [0, 2, 0, 3, 67] ∧
      decode [0, 2, 0, 3, 67] = .ok (.tCopyLit 2 3 67)) :=
  ⟨⟨rfl, rfl, by decide⟩, rfl, by decide, by decide⟩

theorem witness_FetchReadsOpOrTheNextRecord :
    ((onBytes 0x30 [5]).phase = .started { noInputs with bytes := [5] } ∧ (onBytes 0x30 [5]).op = some 0x30) ∧
    ((replaying (tok 2 3 67)).phase = .running (.lzDecompress (replayRegs (tok 2 3 67))) ∧
      (replayRegs (tok 2 3 67)).stage = .token ∧
      (replayRegs (tok 2 3 67)).tok[(replayRegs (tok 2 3 67)).ti]? = some (tok 2 3 67)) :=
  ⟨⟨rfl, rfl⟩, rfl, rfl, rfl⟩

/-- X15, at the smallest and the largest code. -/
theorem witness_UnknownCodeIsRefusedWithItsStatus :
    (pendingReset (started 0x00 noInputs) = none ∧ (started 0x00 noInputs).phase = .started noInputs ∧
      (started 0x00 noInputs).op = some 0x00 ∧
      (0x00 : Byte) ∉ [0x10, 0x11, 0x20, 0x21, 0x30, 0x31, 0x40, 0x41, 0x50, 0x51]) ∧
    (pendingReset (started 0xFF noInputs) = none ∧ (started 0xFF noInputs).phase = .started noInputs ∧
      (started 0xFF noInputs).op = some 0xFF ∧
      (0xFF : Byte) ∉ [0x10, 0x11, 0x20, 0x21, 0x30, 0x31, 0x40, 0x41, 0x50, 0x51]) :=
  ⟨⟨rfl, rfl, rfl, by decide⟩, rfl, rfl, rfl, by decide⟩

/-- In the middle of a replay. -/
theorem witness_ResetAbandonsWhateverRuns :
    { replaying (tok 2 3 67) with host := [.reset, .start 0x30 noInputs] }.host =
      .reset :: [.start 0x30 noInputs] := rfl

def idleWith (host : List HostCommand) : State := { started 0x30 noInputs with phase := .idle, host := host }

theorem witness_IdleBlockWaitsForTheHost :
    ((idleWith [.start 0x30 noInputs]).phase = .idle ∧
      (idleWith [.start 0x30 noInputs]).host = .start 0x30 noInputs :: []) ∧
    ((idleWith []).phase = .idle ∧ (idleWith []).host = []) := ⟨⟨rfl, rfl⟩, rfl, rfl⟩

theorem witness_HostStartRunsTheWholeOperation :
    (idleWith [.start 0x30 noInputs, .start 0x31 noInputs]).phase = .idle ∧
      (idleWith [.start 0x30 noInputs, .start 0x31 noInputs]).host =
        .start 0x30 noInputs :: [.start 0x31 noInputs] ∧
      [HostCommand.start 0x31 noInputs].head? ≠ some .reset ∧ decode [0x30] = .ok .q5Encode :=
  ⟨rfl, rfl, by decide, by decide⟩

def endedReplay : ReplayRegs := { replayRegs (tok 2 3 67) with ti := 1 }

theorem witness_ReplayEndsAfterTheLastToken :
    pendingReset { started 0x11 noInputs with phase := .running (.lzDecompress endedReplay) } = none ∧
      { started 0x11 noInputs with phase := .running (.lzDecompress endedReplay) }.phase =
        .running (.lzDecompress endedReplay) ∧
      endedReplay.stage = .token ∧ endedReplay.ti = endedReplay.tok.length := ⟨rfl, rfl, rfl, rfl⟩

theorem witness_ExecFaultsOutsideItsPhase :
    (isOperation .lzCompress = true ∧ ∀ inp, (idleWith []).phase ≠ .started inp) ∧
    (isOperation (.tNull 0) = false ∧ ∀ r, (onBytes 0x30 [5]).phase ≠ .running (.lzDecompress r)) :=
  ⟨⟨rfl, fun _ h => by cases h⟩, rfl, fun _ h => by cases h⟩

/-! ### Payloads over the limit -/

/-- The shortest payload that is refused. -/
def overlongPayload : Bytes := List.replicate (Config.aeadLimit + 1) 0

/-- The shortest envelope with the right magic that is refused. -/
def overlongEnvelope : Bytes := magicBytes Magic.example1 ++ List.replicate (Config.aeadLimit + 45) 0

/-- Bytes that alternate: with a window of 1 none of them has a match. -/
def alternating : Nat → Bytes
  | 0 => []
  | n + 1 => BitVec.ofNat 8 (n % 2) :: alternating n

def windowOne : Config := { Config.example1 with window := 1, window_pos := by decide }

theorem alternating_length (n : Nat) : (alternating n).length = n := by
  induction n with
  | zero => rfl
  | succ n ih => rw [alternating, List.length_cons, ih]

theorem alternating_drop (n p : Nat) : (alternating n).drop p = alternating (n - p) := by
  induction p generalizing n with
  | zero => rfl
  | succ p ih =>
    cases n with
    | zero => simp [alternating]
    | succ n => rw [alternating, List.drop_succ_cons, ih, Nat.add_sub_add_right]

theorem alternating_no_run (n p : Nat) : runAt (alternating n) p (p + 1) = 0 := by
  rw [runAt, alternating_drop, alternating_drop]
  rcases h : n - p with _ | _ | m
  · rfl
  · rw [show n - (p + 1) = 0 by omega]; rfl
  · rw [show n - (p + 1) = m + 1 by omega, alternating, alternating, commonRun, if_neg]
    intro he
    have := congrArg BitVec.toNat he
    simp only [BitVec.toNat_ofNat] at this
    omega

theorem alternating_match (n p : Nat) : (bestMatch 1 (alternating n) p).len = 0 := by
  cases p with
  | zero => rfl
  | succ p =>
    rw [bestMatch_eq, show p + 1 - (p + 1 - 1) = 1 by omega, List.range'_one, Nat.add_sub_cancel]
    simp [better, incumbent, alternating_no_run]

theorem alternating_matches (n F p : Nat) (h : F + p = n) : (matchesFrom 1 (alternating n) F p).length = F := by
  induction F generalizing p with
  | zero => rfl
  | succ F ih =>
    rw [matchesFrom, if_pos (by rw [alternating_length]; omega), List.length_cons, alternating_match,
      ih _ (by omega)]

theorem alternating_tokens (n : Nat) :
    ∃ ts, compressFn windowOne (alternating n) = .ok ts ∧ ts.length = n := by
  refine ⟨(selectedMatches 1 (alternating n)).map (matchToken (alternating n)), ?_, ?_⟩
  · rw [compressFn, if_neg (fun h => by cases h.1)]; rfl
  · rw [List.length_map, selectedMatches, alternating_length]
    exact alternating_matches n n 0 rfl

theorem exists_digits (n : Nat) : ∃ ds : List Digit, digitsValue ds = n := by
  induction n using Nat.strong_induction_on with
  | _ n ih =>
    by_cases h : n = 0
    · exact ⟨[], h.symm⟩
    · obtain ⟨ds, hd⟩ := ih (n / 5) (by omega)
      refine ⟨ds ++ [Fin.ofNat 5 n], ?_⟩
      rw [digitsValue_concat, hd]
      show n / 5 * 5 + n % 5 = n
      omega

theorem witness_OverlongPayloadIsRefused :
    ((onBytes 0x40 overlongPayload).phase = .started { noInputs with bytes := overlongPayload } ∧
      Config.aeadLimit < overlongPayload.length) ∧
    ((onBytes 0x41 overlongEnvelope).phase = .started { noInputs with bytes := overlongEnvelope } ∧
      Config.aeadLimit + 48 < overlongEnvelope.length ∧
      overlongEnvelope.take 4 = magicBytes (onBytes 0x41 overlongEnvelope).cfg.magic) ∧
    ({ onBytes 0x50 (alternating Config.aeadLimit) with cfg := windowOne }.phase =
        .started { noInputs with bytes := alternating Config.aeadLimit } ∧
      ∃ ts, compressFn windowOne (alternating Config.aeadLimit) = .ok ts ∧
        Config.aeadLimit < 5 * ts.length) ∧
    ∃ g raw, ((onBytes 0x51 []).cfg = Config.example1 ∧ decodeFn Config.example1 g = .ok raw ∧
      Config.aeadLimit + 48 < raw.length ∧ raw.take 4 = magicBytes Config.example1.magic) := by
  have hl : Config.aeadLimit + 48 < overlongEnvelope.length := by
    rw [overlongEnvelope, List.length_append, List.length_replicate]; decide
  have hm : overlongEnvelope.take 4 = magicBytes Magic.example1 := by rw [overlongEnvelope]; exact List.take_left' rfl
  refine ⟨⟨rfl, ?_⟩, ⟨rfl, hl, hm⟩, ⟨rfl, ?_⟩, ?_⟩
  · rw [overlongPayload, List.length_replicate]; exact Nat.lt_succ_self _
  · obtain ⟨ts, h1, h2⟩ := alternating_tokens Config.aeadLimit
    exact ⟨ts, h1, by rw [h2]; decide⟩
  · obtain ⟨ds, hd⟩ := exists_digits (beNat overlongEnvelope)
    refine ⟨ds.map (glyphOf Config.example1.alphabet), overlongEnvelope, rfl, ?_, hl, hm⟩
    rw [decodeFn, mapM_indexOf_glyphs]
    show Except.ok (minBE (digitsValue ds)) = _
    rw [hd, minBE_beNat, overlongEnvelope]
    rfl

/-! ### Invariants and frames -/

/-- A replay in progress is a good state that steps to a next state. -/
theorem witness_EveryStepKeepsTheInvariant :
    Inv (replaying (tok 2 3 67)) ∧ ∃ t, step (replaying (tok 2 3 67)) = .next t := by
  refine ⟨⟨by decide, fun _ => rfl, fun _ h => (by cases h), ?_, fun _ _ h => (by cases h)⟩, ⟨_, rfl⟩⟩
  intro w h
  cases h
  exact ⟨rfl, by decide, by decide, trivial⟩

theorem witness_ConstantsAreNeverWritten : ∃ t, step (onBytes 0x30 [5]) = .next t := ⟨_, rfl⟩

theorem witness_OperationsEndIdleAndKeepTheRest :
    isOperation .q5Encode = true ∧ isDrawing .q5Encode = false ∧
      ∃ t, exec .q5Encode (onBytes 0x30 [5]) = .next t := ⟨rfl, rfl, _, rfl⟩

theorem witness_TokensOnlyAppend :
    isOperation (.tLit 0 67) = false ∧ ∃ t, exec (.tLit 0 67) (replaying (tok 0 0 67)) = .next t := ⟨rfl, _, rfl⟩

theorem witness_OperationsEndOnlyWithTheirStatuses :
    isOperation .lzDecompress = true ∧ ∃ t, exec .lzDecompress (onTokens 0x11 [tok 1 1 65]) = .next t := ⟨rfl, _, rfl⟩

/-- The same start with another status, output and host list before it. -/
def otherPast : State := { onBytes 0x30 [5] with status := 7, output := some (.bytes [1]), host := [.reset] }

theorem witness_ResultDependsOnInputsOnly :
    isOperation .q5Encode = true ∧ (onBytes 0x30 [5]).cfg = otherPast.cfg ∧
      (onBytes 0x30 [5]).phase = otherPast.phase ∧ (onBytes 0x30 [5]).random = otherPast.random ∧
      ∃ t, exec .q5Encode (onBytes 0x30 [5]) = .next t := ⟨rfl, rfl, rfl, rfl, _, rfl⟩

/-- A state whose host will start another operation later. -/
def withLaterStart (s : State) : State := { s with host := [.start 0x20 noInputs] }

theorem witness_LineByLineReachesTheSameEnd :
    (withLaterStart (onBytes 0x30 [5])).phase = .started { noInputs with bytes := [5] } ∧
      pendingReset (withLaterStart (onBytes 0x30 [5])) = none ∧
      startWork .q5Encode { noInputs with bytes := [5] } = some (.q5Encode (startEncode [5])) ∧
      ∃ t, exec .q5Encode (withLaterStart (onBytes 0x30 [5])) = .next t := ⟨rfl, rfl, rfl, _, rfl⟩

theorem witness_TokenStreamRunsAsAProgram :
    (withLaterStart (onTokens 0x11 [tok 0 0 65])).phase = .started { noInputs with tokens := [tok 0 0 65] } ∧
      pendingReset (withLaterStart (onTokens 0x11 [tok 0 0 65])) = none ∧
      ∃ t, exec .lzDecompress (withLaterStart (onTokens 0x11 [tok 0 0 65])) = .next t := ⟨rfl, rfl, _, rfl⟩

/-! ### Unit LZ -/

/-- Whether an answer is this next state: the Bool that the kernel evaluates. -/
def nextIs (o : Host.Outcome State Fault Refusal) (t : State) : Bool :=
  match o with
  | .next s => s == t
  | .fault _ => false
  | .refused _ => false

theorem next_of_nextIs {o : Host.Outcome State Fault Refusal} {t : State} (h : nextIs o t = true) : o = .next t := by
  cases o with
  | next s => exact congrArg _ (eq_of_beq h)
  | fault _ => cases h
  | refused _ => cases h

/-- At the first position with a candidate and at the end of the input. -/
theorem witness_RunIsTheLongestCommonOne :
    0 < 1 ∧ 1 ≤ (ascii "aaaa").length ∧ 3 < 4 ∧ 4 ≤ (ascii "aaaa").length := by decide

/-- Both ends of the window, the first candidate, a selected match, and a run that is not empty. -/
theorem witness_SelectionIsLongestThenOldest :
    4 - 2 ≤ 2 ∧ 2 < 4 ∧ 4 - 2 ≤ 3 ∧ 3 < 4 ∧ (candidates 2 4)[0]? = some 2 ∧
      { pos := 2, off := 2, len := 4 } ∈ selectedMatches 2 (ascii "ababab") ∧
      (bestMatch 2 (ascii "ababab") 4).len ≠ 0 := by decide +kernel

theorem witness_MatchesPartitionTheInput :
    ∃ m m', (selectedMatches 1024 (ascii "abab"))[0]? = some m ∧ (selectedMatches 1024 (ascii "abab"))[1]? = some m' ∧
      m ∈ selectedMatches 1024 (ascii "abab") ∧ (selectedMatches 1024 (ascii "ab")).getLast? = some m' := by
  refine ⟨{ pos := 0, off := 0, len := 0 }, { pos := 1, off := 0, len := 0 }, ?_⟩
  decide +kernel

theorem witness_EmittedTokensStayInTheWindow :
    (onBytes 0x10 (ascii "aa")).phase = .started { noInputs with bytes := ascii "aa" } ∧
      (onBytes 0x10 (ascii "aa")).cfg.window = 1024 ∧
      exec .lzCompress (onBytes 0x10 (ascii "aa")) =
        .next (endOk (onBytes 0x10 (ascii "aa")) (.tokens [tok 0 0 97, tok 1 1 0])) ∧
      (endOk (onBytes 0x10 (ascii "aa")) (.tokens [tok 0 0 97, tok 1 1 0])).output =
        some (.tokens [tok 0 0 97, tok 1 1 0]) := ⟨rfl, rfl, next_of_nextIs (by decide +kernel), rfl⟩

/-- At the shortest such input, and L4. -/
theorem witness_LongRunIsTruncatedSilently :
    ((onBytes 0x10 (List.replicate 2 97)).phase = .started { noInputs with bytes := List.replicate 2 97 } ∧
      (onBytes 0x10 (List.replicate 2 97)).cfg.lenOvf = .truncate ∧ 2 ≤ 2) ∧
    ((onBytes 0x10 (List.replicate 70000 97)).phase = .started { noInputs with bytes := List.replicate 70000 97 } ∧
      (onBytes 0x10 (List.replicate 70000 97)).cfg.lenOvf = .truncate ∧ 2 ≤ 70000) :=
  ⟨⟨rfl, rfl, by decide⟩, rfl, rfl, by decide⟩

theorem commonRun_replicate (a : Byte) (m n : Nat) (h : n ≤ m) :
    commonRun (List.replicate m a) (List.replicate n a) = n := by
  induction n generalizing m with
  | zero => cases m <;> simp [commonRun, List.replicate_succ]
  | succ n ih =>
    obtain ⟨m, rfl⟩ : ∃ k, m = k + 1 := ⟨m - 1, by omega⟩
    rw [List.replicate_succ, List.replicate_succ, commonRun, if_pos rfl, ih _ (by omega)]

theorem replicate_match (a : Byte) (n : Nat) :
    { pos := 1, off := 1, len := n + 1 } ∈ selectedMatches 1024 (List.replicate (n + 2) a) := by
  have h1 : bestMatch 1024 (List.replicate (n + 2) a) 1 = { pos := 1, off := 1, len := n + 1 } := by
    have hr : runAt (List.replicate (n + 2) a) 0 1 = n + 1 := by
      rw [runAt, List.drop_replicate, List.drop_replicate, commonRun_replicate _ _ _ (by omega)]; omega
    rw [bestMatch_eq]
    show (List.range' 0 1).foldl _ _ = _
    simp only [List.range'_one, List.foldl_cons, List.foldl_nil, better, hr, incumbent]
    rw [if_pos (by omega)]
  have h0 : bestMatch 1024 (List.replicate (n + 2) a) 0 = { pos := 0, off := 0, len := 0 } := rfl
  rw [selectedMatches, List.length_replicate, matchesFrom, if_pos (by simp), h0]
  show _ ∈ _ :: matchesFrom _ _ (n + 1) 1
  rw [matchesFrom, if_pos (by simp), h1]
  exact List.mem_cons_of_mem _ List.mem_cons_self

/-- L5: the shortest run that is too long. -/
theorem witness_LongRunFaultsUnderFault :
    ({ onBytes 0x10 (List.replicate 65537 97) with cfg := { Config.example1 with lenOvf := .fault } }.phase =
        .started { noInputs with bytes := List.replicate 65537 97 }) ∧
      ({ Config.example1 with lenOvf := .fault } : Config).lenOvf = .fault ∧
      ∃ m ∈ selectedMatches ({ Config.example1 with lenOvf := .fault } : Config).window (List.replicate 65537 97),
        65535 < m.len :=
  ⟨rfl, rfl, _, replicate_match 97 65535, by decide⟩

/-- L1: the longest input. -/
theorem witness_ShortInputHasNoLongRun :
    (List.replicate 65536 (97 : Byte)).length ≤ 65536 ∧
      ∃ m, m ∈ selectedMatches 1024 (List.replicate 65536 (97 : Byte)) :=
  ⟨List.length_replicate.le, _, replicate_match 97 65534⟩

theorem witness_DecompressUndoesCompress :
    (onBytes 0x10 (ascii "abab")).phase = .started { noInputs with bytes := ascii "abab" } ∧
      (onBytes 0x10 (ascii "abab")).cfg.window ≤ 65535 ∧ 0 ∉ ascii "abab" ∧
      (∀ m ∈ selectedMatches (onBytes 0x10 (ascii "abab")).cfg.window (ascii "abab"), m.len ≤ 65535) ∧
      (onTokens 0x11 [tok 0 0 97, tok 0 0 98, tok 2 2 0]).phase =
        .started { noInputs with tokens := [tok 0 0 97, tok 0 0 98, tok 2 2 0] } :=
  ⟨rfl, by decide, by decide, by decide +kernel, rfl⟩

theorem next_of_okOutput {o : Host.Outcome State Fault Refusal} {v : Output} (h : okOutput o = some v) :
    ∃ t, o = .next t ∧ t.output = some v := by
  cases o with
  | next t =>
    rw [okOutput] at h
    split at h
    · exact ⟨t, rfl, h⟩
    · cases h
  | fault _ => cases h
  | refused _ => cases h

theorem witness_DecompressedBytesAreNulFree :
    (∃ t, exec .lzDecompress (onTokens 0x11 [tok 0 0 65, tok 0 0 66, tok 2 5 67]) = .next t ∧
      t.output = some (.bytes (ascii "ABABABAC"))) ∧
    (decryptE1.phase = .started { noInputs with glyphs := cipherE1.toList, key := ascii "k" } ∧
      ∃ t, exec .pipeDecrypt decryptE1 = .next t ∧ t.output = some (.bytes [])) :=
  ⟨next_of_okOutput test_decompress_overlap, rfl, next_of_okOutput test_decrypt⟩

/-! ### Units TS and Q5 -/

theorem witness_SerializerRoundTrips :
    exec .tsToBytes (onTokens 0x20 [tok 258 772 5]) =
        .next (endOk (onTokens 0x20 [tok 258 772 5]) (.bytes [1, 2, 3, 4, 5])) ∧
      exec .tsFromBytes (onBytes 0x21 [1, 2, 3, 4, 5, 6, 7]) =
        .next (endOk (onBytes 0x21 [1, 2, 3, 4, 5, 6, 7]) (.tokens [tok 258 772 5])) :=
  ⟨next_of_nextIs (by decide +kernel), next_of_nextIs (by decide +kernel)⟩

/-- The value 0 and a value that is not 0. -/
theorem witness_NumeralHasNoLeadingZeroGlyph :
    (onBytes 0x30 [0, 0]).phase = .started { noInputs with bytes := [0, 0] } ∧ beNat [0, 0] = 0 ∧
      (onBytes 0x30 [0, 5]).phase = .started { noInputs with bytes := [0, 5] } ∧ beNat [0, 5] ≠ 0 :=
  ⟨rfl, by decide, rfl, by decide⟩

theorem witness_QuinaryRoundTrips :
    exec .q5Encode (onBytes 0x30 [0, 5]) = .next (endOk (onBytes 0x30 [0, 5]) (.glyphs ['1', '0'])) ∧
      exec .q5Decode (onGlyphs 0x31 "010") = .next (endOk (onGlyphs 0x31 "010") (.bytes [5])) ∧
      (onGlyphs 0x31 "010").cfg = (onBytes 0x30 [0, 5]).cfg :=
  ⟨next_of_nextIs (by decide +kernel), next_of_nextIs (by decide +kernel), rfl⟩

theorem witness_LeadingZeroGlyphsChangeNothing :
    (onGlyphs 0x31 "10").phase = .started { noInputs with glyphs := ['1', '0'] } ∧
      (onGlyphs 0x31 "0010").phase = .started { noInputs with glyphs := ['0', '0', '1', '0'] } ∧
      (['0', '0', '1', '0'] : Glyphs) = List.replicate 2 (onGlyphs 0x31 "10").cfg.alphabet.g0 ++ ['1', '0'] ∧
      ∀ raw, decodeFn Config.example1 ['1', '0'] = .ok raw → raw.length ≤ Config.aeadLimit + 48 ∨
        raw.take 4 ≠ magicBytes Config.example1.magic :=
  ⟨rfl, rfl, rfl, fun raw h => .inl (shortRaw_length (by decide +kernel) h)⟩

/-! ### Unit ENV -/

theorem witness_EnvelopeHasItsLayout :
    (keyed 0x40 payloadE2 "key").phase = .started { noInputs with bytes := payloadE2, key := ascii "key" } ∧
      payloadE2.length ≤ Config.aeadLimit ∧
      draw 16 tape = ({ answers := [some nonce], drawn := 1 }, some salt) ∧
      draw 12 { answers := [some nonce], drawn := 1 } = ({ answers := [], drawn := 2 }, some nonce) :=
  ⟨rfl, by decide, by decide, by decide⟩

/-- X10 and X11; an answer of another length is a failure too. -/
theorem witness_FailedDrawEndsTheSeal :
    (onBytes 0x40 []).phase = .started noInputs ∧ ([] : Bytes).length ≤ Config.aeadLimit ∧
      draw 16 { answers := [none], drawn := 0 } = ({ answers := [], drawn := 1 }, none) ∧
      draw 16 { answers := [some (0 :: salt)], drawn := 0 } = ({ answers := [], drawn := 1 }, none) ∧
      draw 16 { answers := [some salt, none], drawn := 0 } = ({ answers := [none], drawn := 1 }, some salt) ∧
      draw 12 { answers := [none], drawn := 1 } = ({ answers := [], drawn := 2 }, none) :=
  ⟨rfl, by decide, by decide, by decide, by decide, by decide⟩

/-- Lengths 31; 32 with a wrong magic; 32 and 47 with the right magic. -/
theorem witness_FirstFailingCheckIsReported :
    (List.replicate 31 (0 : Byte)).length < 32 ∧
      (32 ≤ (List.replicate 32 (0 : Byte)).length ∧
        (List.replicate 32 (0 : Byte)).take 4 ≠ magicBytes Config.example1.magic) ∧
      (32 ≤ (magicBytes Config.example1.magic ++ List.replicate 28 0).length ∧
        (magicBytes Config.example1.magic ++ List.replicate 28 0).take 4 = magicBytes Config.example1.magic ∧
        (magicBytes Config.example1.magic ++ List.replicate 28 0).length < 48) ∧
      (32 ≤ (magicBytes Config.example1.magic ++ List.replicate 43 0).length ∧
        (magicBytes Config.example1.magic ++ List.replicate 43 0).take 4 = magicBytes Config.example1.magic ∧
        (magicBytes Config.example1.magic ++ List.replicate 43 0).length < 48) := by decide

theorem witness_OpenUndoesSeal :
    (keyed 0x40 payloadE2 "key").phase = .started { noInputs with bytes := payloadE2, key := ascii "key" } ∧
      (keyed 0x41 envelopeE2 "key").phase = .started { noInputs with bytes := envelopeE2, key := ascii "key" } ∧
      (keyed 0x41 envelopeE2 "key").cfg = (keyed 0x40 payloadE2 "key").cfg ∧
      payloadE2.length ≤ Config.aeadLimit ∧
      draw 16 tape = ({ answers := [some nonce], drawn := 1 }, some salt) ∧
      draw 12 { answers := [some nonce], drawn := 1 } = ({ answers := [], drawn := 2 }, some nonce) ∧
      okOutput (exec .envSeal (keyed 0x40 payloadE2 "key")) = some (.bytes envelopeE2) :=
  ⟨rfl, rfl, rfl, by decide, by decide, by decide, test_seal⟩

/-- A key of 32 bytes for the AEAD alone. -/
def someKey : Bytes := List.replicate 32 7

theorem witness_PrimitivesHaveTheNamedProperties :
    (List.replicate 15 (0 : Byte)).length < 16 ∧
      aeadOpen someKey nonce [] (aeadSeal someKey nonce [] [1, 2, 3]) = some [1, 2, 3] := by decide +kernel

theorem witness_KeyDerivationIsTwoHmacs : salt.length = 16 := by decide

/-! ### Unit PIPE -/

theorem witness_InvalidGlyphComesFirst :
    (onGlyphs 0x51 "9").phase = .started { noInputs with glyphs := ['9'] } ∧
      (∃ c ∈ (['9'] : Glyphs), indexOf (onGlyphs 0x51 "9").cfg.alphabet c = none) ∧
      (onGlyphs 0x51 "").phase = .started noInputs ∧ noInputs.glyphs = [] :=
  ⟨rfl, ⟨'9', List.mem_cons_self, by decide⟩, rfl, rfl⟩

theorem witness_DecryptUndoesEncrypt :
    encryptE1.phase = .started { noInputs with key := ascii "k" } ∧
      decryptE1.phase = .started { noInputs with glyphs := cipherE1.toList, key := ascii "k" } ∧
      decryptE1.cfg = encryptE1.cfg ∧ encryptE1.cfg.window ≤ 65535 ∧
      (∀ ts, compressFn encryptE1.cfg [] = .ok ts → 5 * ts.length ≤ Config.aeadLimit) ∧ 0 ∉ ([] : Bytes) ∧ (∀ m ∈ selectedMatches encryptE1.cfg.window [], m.len ≤ 65535) ∧
      draw 16 tape = ({ answers := [some nonce], drawn := 1 }, some salt) ∧
      draw 12 { answers := [some nonce], drawn := 1 } = ({ answers := [], drawn := 2 }, some nonce) ∧
      okOutput (exec .pipeEncrypt encryptE1) = some (.glyphs cipherE1.toList) :=
  ⟨rfl, rfl, rfl, by decide, fun _ h => by cases h; decide, by decide, by decide, by decide, by decide, test_encrypt⟩

/-- The same encryption with salt and nonce drawn otherwise. -/
def encryptE1' : State := { encryptE1 with random := { answers := [some (salt.reverse), some nonce], drawn := 0 } }

theorem witness_DifferentDrawsGiveDifferentStrings :
    encryptE1'.cfg = encryptE1.cfg ∧
      draw 16 encryptE1.random = ({ answers := [some nonce], drawn := 1 }, some salt) ∧
      draw 16 encryptE1'.random = ({ answers := [some nonce], drawn := 1 }, some salt.reverse) ∧
      draw 12 { answers := [some nonce], drawn := 1 } = ({ answers := [], drawn := 2 }, some nonce) ∧
      exec .pipeEncrypt encryptE1 =
        .next (endOk { encryptE1 with random := { answers := [], drawn := 2 } } (.glyphs cipherE1.toList)) ∧
      exec .pipeEncrypt encryptE1' =
        .next (endOk { encryptE1' with random := { answers := [], drawn := 2 } }
          (.glyphs (glyphsOf (exec .pipeEncrypt encryptE1')))) ∧
      salt ≠ salt.reverse := by
  exact ⟨rfl, by decide, by decide, by decide, next_of_nextIs (by decide +kernel), next_of_nextIs (by decide +kernel),
    by decide⟩

end Sys2Proof.Tests
end

namespace Sys2Proof.Machine

/-! ## Results of a unit -/

section
variable {ρ ω ρ' ω' : Type}

/-- The tick in which a unit ends with a given result. -/
def endTick : Except Status ω → Tick ρ ω
  | .ok o => .done o
  | .error e => .raised e

theorem endTick_ne_running (e : Except Status ω) (r : ρ) : endTick e ≠ .running r := by
  cases e <;> simp [endTick]

/-- Concluding a unit that has ended gives the state after the operation. -/
theorem conclude_endTick (s : State) (work : ρ → Work) (out : ω → Output) (x : RandomSource) (e : Except Status ω) :
    conclude s work out (x, endTick e) = ended s out x e := by
  cases e <;> rfl

/-- The unit ends within `k` lines, with the random source and the result `p`. -/
def Ends (f : RandomSource → ρ → RandomSource × Tick ρ ω) (k : Nat) (x : RandomSource) (r : ρ)
    (p : RandomSource × Except Status ω) : Prop := runUnit f k x r = (p.1, endTick p.2)

variable {f : RandomSource → ρ → RandomSource × Tick ρ ω} {k m : Nat} {x x' : RandomSource} {r r' : ρ}
  {p : RandomSource × Except Status ω}

theorem Ends.mono (h : Ends f k x r p) (hm : k ≤ m) : Ends f m x r p :=
  runUnit_mono h (endTick_ne_running p.2) hm

theorem Ends.of_done {o : ω} (h : f x r = (x', .done o)) : Ends f 1 x r (x', .ok o) := runUnit_succ_done h

theorem Ends.of_raised {e : Status} (h : f x r = (x', .raised e)) : Ends f 1 x r (x', .error e) :=
  runUnit_succ_raised h

/-- One line more at the front. -/
theorem Ends.line (h : f x r = (x', .running r')) (he : Ends f k x' r' p) : Ends f (k + 1) x r p :=
  (runUnit_succ_running h).trans he

/-- More lines at the front. -/
theorem Ends.after (h : runUnit f k x r = (x', .running r')) (he : Ends f m x' r' p) : Ends f (k + m) x r p :=
  (runUnit_add h).trans he

variable {g : RandomSource → ρ' → RandomSource × Tick ρ' ω'} {wrap : ρ → ρ'} {next : ω → Tick ρ' ω'}

/-- A sub-operation that succeeds hands its output to the rest of the outer operation. -/
theorem Embeds.ends_then (hg : Embeds f g wrap next) {o : ω} {r2 : ρ'} {q : RandomSource × Except Status ω'}
    (h : Ends f k x r (x', .ok o)) (hn : next o = .running r2) (h2 : Ends g m x' r2 q) :
    Ends g (k + m) x (wrap r) q := by
  obtain ⟨j, hj, hrun⟩ := hg.done h hn
  exact (Ends.after hrun h2).mono (by omega)

/-- A sub-operation that fails ends the outer operation with the same status (R272). -/
theorem Embeds.ends_error (hg : Embeds f g wrap next) {e : Status} (h : Ends f k x r (x', .error e)) :
    Ends g k x (wrap r) (x', .error e) := hg.raised h

/-- A sub-operation whose output is that of the outer operation. -/
theorem Embeds.ends_done {g : RandomSource → ρ' → RandomSource × Tick ρ' ω} (hg : Embeds f g wrap Tick.done)
    (h : Ends f k x r p) : Ends g k x (wrap r) p := by
  obtain ⟨y, e | o⟩ := p
  · exact hg.raised h
  · exact hg.finish h rfl

/-- A sub-operation whose output, turned into another form, ends the outer operation. -/
theorem Embeds.ends_map {out : ω → ω'} (hg : Embeds f g wrap (fun o => .done (out o))) (h : Ends f k x r p) :
    Ends g k x (wrap r) (p.1, p.2.map out) := by
  obtain ⟨y, e | o⟩ := p
  · exact hg.raised h
  · exact hg.finish h rfl
end

/-! ## TS -/

theorem toBytesOk_start (t : Tokens) : toBytesOk (startToBytes t) := ⟨Nat.zero_le _, rfl⟩

/-- A record written keeps `B` the records of the tokens before `ti`. -/
theorem toBytesOk_tick {r r' : ToBytesRegs} (h : toBytesOk r) (ht : tickToBytes r = .running r') : toBytesOk r' := by
  obtain ⟨hti, hb⟩ := h
  unfold tickToBytes at ht
  split at ht
  · rename_i t hget
    cases ht
    refine ⟨(List.getElem?_eq_some_iff.mp hget).1, ?_⟩
    simp [List.take_add_one, hget, hb, toBytesFn]
  · cases ht

/-- The token register is not written. -/
theorem tickToBytes_tok {r r' : ToBytesRegs} (ht : tickToBytes r = .running r') : r'.tok = r.tok := by
  unfold tickToBytes at ht
  split at ht <;> cases ht
  rfl

theorem tickToBytes_done {r : ToBytesRegs} {b : Bytes} (h : toBytesOk r) (ht : tickToBytes r = .done b) :
    b = toBytesFn r.tok := by
  obtain ⟨-, hb⟩ := h
  unfold tickToBytes at ht
  split at ht
  · cases ht
  · rename_i hget
    cases ht
    rw [hb, List.take_of_length_le (List.getElem?_eq_none_iff.mp hget)]

/-- TS.TOBYTES writes the record of every token left (R130). -/
theorem toBytes_ends (x : RandomSource) {r : ToBytesRegs} {F : Nat} (h : toBytesOk r)
    (hF : r.tok.length - r.ti = F) : Ends (quiet tickToBytes) (F + 1) x r (x, .ok (toBytesFn r.tok)) := by
  induction F generalizing r with
  | zero =>
    have hget : r.tok[r.ti]? = none := List.getElem?_eq_none (by omega)
    have hdone : tickToBytes r = .done r.b := by simp [tickToBytes, hget]
    rw [← tickToBytes_done h hdone]
    exact Ends.of_done (congrArg _ hdone)
  | succ F ih =>
    have hlt : r.ti < r.tok.length := by omega
    have hline : tickToBytes r = .running { r with ti := r.ti + 1, b := r.b ++ recordBytes r.tok[r.ti] } := by
      simp [tickToBytes, hlt]
    exact Ends.line (congrArg _ hline) (ih (toBytesOk_tick h hline) (by show r.tok.length - (r.ti + 1) = F; omega))

theorem fromBytesOk_start (b : Bytes) : fromBytesOk (startFromBytes b) := ⟨rfl, Nat.zero_le _⟩

/-- There is a record at `ri` exactly when its five bytes are there (R135). -/
theorem recordAt_some {b : Bytes} {ri : Nat} {t : Token} (h : recordAt b ri = some t) : 5 * (ri + 1) ≤ b.length := by
  rw [recordAt_eq] at h
  have := (List.getElem?_eq_some_iff.mp h).1
  rw [fromBytesFn_length] at this
  omega

theorem fromBytesOk_tick {r r' : FromBytesRegs} (h : fromBytesOk r) (ht : tickFromBytes r = .running r') :
    fromBytesOk r' := by
  obtain ⟨hlen, -⟩ := h
  unfold tickFromBytes at ht
  split at ht
  · rename_i t hrec
    cases ht
    exact ⟨by simp [hlen], recordAt_some hrec⟩
  · cases ht

/-- TS.FROMBYTES reads every whole record left (R134). -/
theorem fromBytes_ends (x : RandomSource) {r : FromBytesRegs} {F : Nat} (hF : recordCount r.b.length - r.ri = F) :
    Ends (quiet tickFromBytes) (F + 1) x r (x, .ok (r.tok ++ (fromBytesFn r.b).drop r.ri)) := by
  have hcount : (fromBytesFn r.b).length = recordCount r.b.length := fromBytesFn_length r.b
  induction F generalizing r with
  | zero =>
    have hle : (fromBytesFn r.b).length ≤ r.ri := by omega
    have hdone : tickFromBytes r = .done r.tok := by simp [tickFromBytes, recordAt_eq, hle]
    rw [List.drop_eq_nil_of_le hle, List.append_nil]
    exact Ends.of_done (congrArg _ hdone)
  | succ F ih =>
    have hlt : r.ri < (fromBytesFn r.b).length := by omega
    have hline : tickFromBytes r
        = .running { r with ri := r.ri + 1, tok := append r.tok (fromBytesFn r.b)[r.ri] } := by
      simp [tickFromBytes, recordAt_eq, hlt]
    have hrest := ih (r := { r with ri := r.ri + 1, tok := append r.tok (fromBytesFn r.b)[r.ri] })
      (by show recordCount r.b.length - (r.ri + 1) = F; omega) hcount
    have heq : append r.tok (fromBytesFn r.b)[r.ri] ++ (fromBytesFn r.b).drop (r.ri + 1)
        = r.tok ++ (fromBytesFn r.b).drop r.ri := by
      rw [List.drop_eq_getElem_cons hlt, append, List.append_assoc]; rfl
    rw [← heq]
    exact Ends.line (congrArg _ hline) hrest

end Sys2Proof.Machine

namespace Sys2Proof.Machine

/-! ## Q5 -/

theorem encodeOk_start (b : Bytes) : encodeOk (startEncode b) := trivial

theorem encodeOk_tick {cfg : Config} {r r' : EncodeRegs} (ht : tickEncode cfg r = .running r') : encodeOk r' := by
  unfold tickEncode at ht
  split at ht
  · split at ht
    · cases ht
    · cases ht
      exact (Nat.div_add_mod r.n 5).symm
  · cases ht
    trivial

/-- The digits of the numeral of `n`, as glyphs (R147). -/
def numeral (a : Alphabet) (n : Nat) : Glyphs := ((Nat.digits 5 n).map fun d => glyphOf a (Fin.ofNat 5 d)).reverse

theorem encodeFn_eq (cfg : Config) (b : Bytes) : encodeFn cfg b = numeral cfg.alphabet (beNat b) := rfl

/-- The last digit of a numeral and what stands before it (R156). -/
theorem numeral_of_ne_zero (a : Alphabet) {n : Nat} (h : n ≠ 0) :
    numeral a n = numeral a (n / 5) ++ [glyphOf a (remainder n)] := by
  have hmod : Fin.ofNat 5 (n % 5) = Fin.ofNat 5 n := Fin.ext (Nat.mod_mod n 5)
  rw [numeral, digits_cons h, List.map_cons, List.reverse_cons, hmod]; rfl

/-- Q5.ENCODE puts the numeral of `n` before the glyphs it has, two lines a digit (R145). -/
theorem encode_ends_from (cfg : Config) (x : RandomSource) {k : Nat} {r : EncodeRegs} (hst : r.stage = .loop)
    (hn : r.n < 5 ^ k) : Ends (quiet (tickEncode cfg)) (2 * k + 1) x r (x, .ok (numeral cfg.alphabet r.n ++ r.g)) := by
  induction k generalizing r with
  | zero =>
    have h0 : r.n = 0 := by simpa using hn
    have hdone : tickEncode cfg r = .done r.g := by simp [tickEncode, hst, h0]
    rw [h0, numeral, Nat.digits_zero]
    exact Ends.of_done (congrArg _ hdone)
  | succ k ih =>
    by_cases h0 : r.n = 0
    · have hdone : tickEncode cfg r = .done r.g := by simp [tickEncode, hst, h0]
      rw [h0, numeral, Nat.digits_zero]
      exact (Ends.of_done (congrArg _ hdone)).mono (by omega)
    · have hdiv : tickEncode cfg r = .running { r with stage := .divided (r.n / 5) (remainder r.n) } := by
        simp [tickEncode, hst, h0, Config.radix]
      have hrest := ih (r := { r with n := r.n / 5, g := glyphOf cfg.alphabet (remainder r.n) :: r.g, stage := .loop })
        rfl (by show r.n / 5 < 5 ^ k; rw [pow_succ] at hn; omega)
      rw [numeral_of_ne_zero _ h0, List.append_assoc]
      exact Ends.line (congrArg _ hdiv) (Ends.line rfl hrest)

theorem encode_ends (cfg : Config) (x : RandomSource) (b : Bytes) {k : Nat} (hk : encodeFuel b.length ≤ k) :
    Ends (quiet (tickEncode cfg)) k x (startEncode b) (x, .ok (encodeFn cfg b)) := by
  have hlt : beNat b < 5 ^ (4 * b.length) :=
    calc beNat b < 256 ^ b.length := beNat_lt b
      _ ≤ (5 ^ 4) ^ b.length := Nat.pow_le_pow_left (by norm_num) _
      _ = 5 ^ (4 * b.length) := (pow_mul 5 4 _).symm
  have h := encode_ends_from cfg x (r := startEncode b) rfl hlt
  rw [encodeFn_eq, ← List.append_nil (numeral _ _)]
  exact h.mono (by unfold encodeFuel at hk; omega)

theorem decodeOk_tick {cfg : Config} {r r' : DecodeRegs} (h : decodeOk r) (ht : tickDecode cfg r = .running r') :
    decodeOk r' := by
  unfold tickDecode at ht
  split at ht
  · split at ht
    · rename_i hget
      split at ht
      · cases ht
        exact (List.getElem?_eq_some_iff.mp hget).1
      · cases ht
    · cases ht
      exact minBE_head r.n
  · rename_i hst
    cases ht
    rw [decodeOk, hst] at h
    exact h
  · cases ht

/-- What Q5.DECODE makes of the glyphs `g` after the value `n` (R150). -/
def decodeRest (a : Alphabet) (n : Nat) (g : Glyphs) : Except Status Bytes :=
  match g.mapM (indexOf a) with
  | some ds => .ok (minBE (ds.foldl (fun n d => n * 5 + d.val) n))
  | none => .error .invalidCharacter

theorem decodeFn_eq (cfg : Config) (g : Glyphs) : decodeFn cfg g = decodeRest cfg.alphabet 0 g := rfl

theorem decodeRest_invalid {a : Alphabet} {c : Glyph} (h : indexOf a c = none) (n : Nat) (g : Glyphs) :
    decodeRest a n (c :: g) = .error .invalidCharacter := by
  simp [decodeRest, h]

theorem decodeRest_digit {a : Alphabet} {c : Glyph} {d : Digit} (h : indexOf a c = some d) (n : Nat) (g : Glyphs) :
    decodeRest a n (c :: g) = decodeRest a (n * 5 + d.val) g := by
  rw [decodeRest, decodeRest, List.mapM_cons, h]
  cases g.mapM (indexOf a) <;> rfl

/-- Q5.DECODE reads the glyphs left, two lines a glyph (R150). -/
theorem decode_ends_from (cfg : Config) (x : RandomSource) {rest : Glyphs} {r : DecodeRegs} (hst : r.stage = .scan)
    (hrest : r.g.drop r.gi = rest) :
    Ends (quiet (tickDecode cfg)) (2 * rest.length + 2) x r (x, decodeRest cfg.alphabet r.n rest) := by
  induction rest generalizing r with
  | nil =>
    have hget : r.g[r.gi]? = none := List.getElem?_eq_none (List.drop_eq_nil_iff.mp hrest)
    have hwrite : tickDecode cfg r = .running { r with stage := .write (minBE r.n) } := by
      simp [tickDecode, hst, hget]
    exact Ends.line (congrArg _ hwrite) (Ends.of_done rfl)
  | cons c rest ih =>
    have hget : r.g[r.gi]? = some c := by
      rw [← List.head?_drop, hrest, List.head?_cons]
    cases hd : indexOf cfg.alphabet c with
    | none =>
      have hraise : tickDecode cfg r = .raised .invalidCharacter := by simp [tickDecode, hst, hget, hd]
      rw [decodeRest_invalid hd]
      exact (Ends.of_raised (congrArg _ hraise)).mono (by omega)
    | some d =>
      have hdigit : tickDecode cfg r = .running { r with stage := .digit d } := by simp [tickDecode, hst, hget, hd]
      have htail := ih (r := { r with gi := r.gi + 1, n := r.n * 5 + d.val, stage := .scan }) rfl
        (by show r.g.drop (r.gi + 1) = rest; rw [← List.tail_drop, hrest, List.tail_cons])
      rw [decodeRest_digit hd]
      exact Ends.line (congrArg _ hdigit) (Ends.line rfl htail)

theorem decode_ends (cfg : Config) (x : RandomSource) (g : Glyphs) :
    Ends (quiet (tickDecode cfg)) (decodeFuel g.length) x (startDecode g) (x, decodeFn cfg g) := by
  rw [decodeFn_eq]
  exact decode_ends_from cfg x (r := startDecode g) rfl rfl

/-- What is decoded has at most one byte a glyph. -/
theorem decodeFn_length_le {cfg : Config} {g : Glyphs} {raw : Bytes} (h : decodeFn cfg g = .ok raw) :
    raw.length ≤ g.length := by
  unfold decodeFn at h
  split at h
  · rename_i ds hds
    cases h
    have hlen : g.length = ds.length := by rw [glyphs_of_mapM_indexOf hds, List.length_map]
    rw [hlen]
    exact minBE_length_le ((digitsValue_lt ds).trans_le (Nat.pow_le_pow_left (by norm_num) _))
  · cases h

theorem decodeFn_error {cfg : Config} {g : Glyphs} {e : Status} (h : decodeFn cfg g = .error e) :
    e = .invalidCharacter := by
  unfold decodeFn at h
  split at h
  · cases h
  · cases h; rfl

/-! ## ENV -/

theorem derivedKey_length (key salt : Bytes) : (derivedKey key salt).length = 32 := hmac_length _ _

/-- The derived key is there for every salt of R170 (R235, R236). -/
theorem kdf_eq {salt : Bytes} (key : Bytes) (h : salt.length = 16) : kdf key salt = some (derivedKey key salt) := by
  have hne : salt ≠ [] := by rintro rfl; cases h
  have hlim : Config.dkLen ≤ Config.hkdfLimit := by decide
  have hlen : (derivedKey key salt).length ≤ Config.dkLen := (derivedKey_length key salt).le
  rw [kdf, hkdf, if_pos hlim, show (Config.dkLen + 31) / 32 = 1 from rfl, hkdfExpand_one, hkdfExtract_salt _ _ hne,
    ← derivedKey, List.take_of_length_le hlen]

theorem kdf_length {key salt dk : Bytes} (hs : salt.length = 16) (h : kdf key salt = some dk) : dk.length = 32 := by
  rw [kdf_eq key hs] at h
  cases h
  exact derivedKey_length _ _

theorem aeadKeyOk_derivedKey (key salt : Bytes) : aeadKeyOk (derivedKey key salt) = true := by
  rw [aeadKeyOk, derivedKey_length]; rfl

theorem sealOk_tick {cfg : Config} {x x' : RandomSource} {r r' : SealRegs} (h : sealOk r)
    (ht : tickSeal cfg x r = (x', .running r')) : sealOk r' := by
  unfold tickSeal at ht
  split at ht
  · cases ht; trivial
  · split at ht
    · rename_i hdraw; cases ht; exact draw_length hdraw
    · cases ht
  · rename_i salt hst
    rw [sealOk, hst] at h
    split at ht
    · rename_i hkdf; cases ht; exact ⟨h, kdf_length h hkdf⟩
    · cases ht
  · rename_i hst
    rw [sealOk, hst] at h
    split at ht
    · cases ht; exact h
    · cases ht
  · rename_i hst
    rw [sealOk, hst] at h
    split at ht
    · rename_i hdraw; cases ht; exact ⟨h.1, h.2, draw_length hdraw⟩
    · cases ht
  · rename_i hst
    rw [sealOk, hst] at h
    obtain ⟨hsalt, -, hnonce⟩ := h
    cases ht
    exact ⟨hsalt, hnonce, aeadSeal_length _ _ _ _⟩
  · cases ht

/-- The payload register is not written. -/
theorem tickSeal_payload {cfg : Config} {x x' : RandomSource} {r r' : SealRegs}
    (ht : tickSeal cfg x r = (x', .running r')) : r'.payload = r.payload := by
  unfold tickSeal at ht
  repeat' split at ht
  all_goals cases ht
  all_goals rfl

/-- Without a salt ENV.SEAL fails after its first draw (R171). -/
theorem sealFn_no_salt {x x1 : RandomSource} (cfg : Config) (payload key : Bytes) (h : draw 16 x = (x1, none)) :
    sealFn cfg x payload key = (x1, .error .randomnessUnavailable) := by
  simp only [sealFn, h]

/-- Without a nonce ENV.SEAL fails after its second draw (R171). -/
theorem sealFn_no_nonce {x x1 x2 : RandomSource} {salt : Bytes} (cfg : Config) (payload key : Bytes)
    (h1 : draw 16 x = (x1, some salt)) (h2 : draw 12 x1 = (x2, none)) :
    sealFn cfg x payload key = (x2, .error .randomnessUnavailable) := by
  simp only [sealFn, h1, h2]

/-- With both draws ENV.SEAL gives the envelope (R173). -/
theorem sealFn_drawn {x x1 x2 : RandomSource} {salt nonce : Bytes} (cfg : Config) (payload key : Bytes)
    (h1 : draw 16 x = (x1, some salt)) (h2 : draw 12 x1 = (x2, some nonce)) :
    sealFn cfg x payload key = (x2, .ok (seal4 cfg payload key salt nonce)) := by
  simp only [sealFn, h1, h2]

/-- ENV.SEAL from its step 2 on (R170): both draws, then the envelope. -/
theorem seal_ends_from (cfg : Config) (x : RandomSource) (payload key : Bytes) :
    Ends (tickSeal cfg) 6 x (enterSeal payload key) (sealFn cfg x payload key) := by
  rcases hsalt : draw 16 x with ⟨x1, _ | salt⟩
  · rw [sealFn_no_salt cfg payload key hsalt]
    exact (Ends.of_raised (by simp [tickSeal, enterSeal, Config.saltLen, hsalt])).mono (by omega)
  have h2 : tickSeal cfg x (enterSeal payload key) = (x1, .running ⟨payload, key, .step3 salt⟩) := by
    simp [tickSeal, enterSeal, Config.saltLen, hsalt]
  have h3 : tickSeal cfg x1 ⟨payload, key, .step3 salt⟩
      = (x1, .running ⟨payload, key, .step4 salt (derivedKey key salt)⟩) := by
    simp [tickSeal, kdf_eq key (draw_length hsalt)]
  have h4 : tickSeal cfg x1 ⟨payload, key, .step4 salt (derivedKey key salt)⟩
      = (x1, .running ⟨payload, key, .step5 salt (derivedKey key salt)⟩) := by
    simp [tickSeal, aeadKeyOk_derivedKey]
  refine Ends.line h2 (Ends.line h3 (Ends.line h4 ?_))
  rcases hnonce : draw 12 x1 with ⟨x2, _ | nonce⟩
  · rw [sealFn_no_nonce cfg payload key hsalt hnonce]
    exact (Ends.of_raised (by simp [tickSeal, Config.nonceLen, hnonce])).mono (by omega)
  have h5 : tickSeal cfg x1 ⟨payload, key, .step5 salt (derivedKey key salt)⟩
      = (x2, .running ⟨payload, key, .step6 salt (derivedKey key salt) nonce⟩) := by
    simp [tickSeal, Config.nonceLen, hnonce]
  rw [sealFn_drawn cfg payload key hsalt hnonce]
  exact Ends.line h5 (Ends.line rfl (Ends.of_done rfl))

theorem seal_ends (cfg : Config) (x : RandomSource) (payload key : Bytes) :
    Ends (tickSeal cfg) envFuel x (startSeal payload key) (sealFn cfg x payload key) :=
  Ends.line rfl (seal_ends_from cfg x payload key)

theorem sealFn_error {cfg : Config} {x : RandomSource} {payload key : Bytes} {e : Status}
    (h : (sealFn cfg x payload key).2 = .error e) : e = .randomnessUnavailable := by
  unfold sealFn at h
  repeat' split at h
  all_goals cases h
  all_goals rfl

/-- An envelope is 48 bytes longer than its payload (R172). -/
theorem seal4_length (cfg : Config) (payload key : Bytes) {salt nonce : Bytes} (hs : salt.length = 16)
    (hn : nonce.length = 12) : (seal4 cfg payload key salt nonce).length = payload.length + 48 := by
  simp [seal4, magicBytes, hs, hn, aeadSeal_length]
  omega

theorem sealFn_length {cfg : Config} {x x' : RandomSource} {payload key env : Bytes}
    (h : sealFn cfg x payload key = (x', .ok env)) : env.length = payload.length + 48 := by
  unfold sealFn at h
  split at h
  · cases h
  · rename_i hsalt
    split at h
    · cases h
    · rename_i hnonce
      cases h
      exact seal4_length _ _ _ (draw_length hsalt) (draw_length hnonce)

/-- An envelope cut at its boundaries (R61, R62). -/
theorem envelope_split (raw : Bytes) :
    raw = envMagic raw ++ envSalt raw ++ envNonce raw ++ envCiphertext raw := by
  simp only [envMagic, envSalt, envNonce, envCiphertext, slice, List.drop_zero]
  calc raw = raw.take 4 ++ raw.drop 4 := (List.take_append_drop _ _).symm
    _ = raw.take 4 ++ ((raw.drop 4).take 16 ++ (raw.drop 20)) := by
        conv_lhs => rw [← List.take_append_drop 16 (raw.drop 4), List.drop_drop]
    _ = raw.take 4 ++ ((raw.drop 4).take 16 ++ ((raw.drop 20).take 12 ++ raw.drop 32)) := by
        conv_lhs => rw [← List.take_append_drop 12 (raw.drop 20), List.drop_drop]
    _ = _ := by simp

theorem envSalt_length {raw : Bytes} (h : 32 ≤ raw.length) : (envSalt raw).length = 16 :=
  slice_length _ _ _ (le_trans (by norm_num) h)

theorem envNonce_length {raw : Bytes} (h : 32 ≤ raw.length) : (envNonce raw).length = 12 := slice_length _ _ _ h

theorem openOk_tick {cfg : Config} {r r' : OpenRegs} (h : openOk cfg r) (ht : tickOpen cfg r = .running r') :
    openOk cfg r' := by
  unfold tickOpen at ht
  split at ht
  · cases ht; trivial
  · split at ht
    · cases ht
    · rename_i hlen; cases ht; exact Nat.le_of_not_lt hlen
  · rename_i hst
    rw [openOk, hst] at h
    split at ht
    · rename_i hmagic; cases ht; exact ⟨h, hmagic⟩
    · cases ht
  · rename_i hst
    rw [openOk, hst] at h
    obtain ⟨hlen, hmagic⟩ := h
    cases ht
    exact ⟨hlen, hmagic, envSalt_length hlen, envNonce_length hlen, hmagic ▸ envelope_split r.raw⟩
  · rename_i hst
    rw [openOk, hst] at h
    obtain ⟨hlen, hmagic, hsalt, hnonce, hraw⟩ := h
    split at ht
    · rename_i hkdf
      split at ht
      · cases ht; exact ⟨hlen, hmagic, hsalt, hnonce, hraw, kdf_length hsalt hkdf⟩
      · cases ht
    · cases ht
  · split at ht <;> cases ht

/-- The envelope register is not written. -/
theorem tickOpen_raw {cfg : Config} {r r' : OpenRegs} (ht : tickOpen cfg r = .running r') : r'.raw = r.raw := by
  unfold tickOpen at ht
  repeat' split at ht
  all_goals cases ht
  all_goals rfl

/-- ENV.OPEN from its step 2 on (R180): length, magic, then the tag. -/
theorem open_ends_from (cfg : Config) (x : RandomSource) (raw key : Bytes) :
    Ends (quiet (tickOpen cfg)) 5 x (enterOpen raw key) (x, openFn cfg raw key) := by
  unfold openFn
  split
  · rename_i hlen
    exact (Ends.of_raised (by simp [quiet, tickOpen, enterOpen, Config.minEnvelope, hlen])).mono (by omega)
  rename_i hlen
  have h2 : tickOpen cfg (enterOpen raw key) = .running ⟨raw, key, .step3⟩ := by
    simp [tickOpen, enterOpen, Config.minEnvelope, hlen]
  refine Ends.line (congrArg _ h2) ?_
  split
  · rename_i hmagic
    exact (Ends.of_raised (by simp [quiet, tickOpen, envMagic, slice, hmagic])).mono (by omega)
  rename_i hmagic
  have h3 : tickOpen cfg ⟨raw, key, .step3⟩ = .running ⟨raw, key, .step4⟩ := by
    simpa [tickOpen, envMagic, slice] using hmagic
  have h5 : tickOpen cfg ⟨raw, key, .step5 (envSalt raw) (envNonce raw) (envCiphertext raw)⟩
      = .running ⟨raw, key,
        .step6 (envSalt raw) (envNonce raw) (envCiphertext raw) (derivedKey key (envSalt raw))⟩ := by
    simp [tickOpen, kdf_eq key (envSalt_length (Nat.le_of_not_lt hlen)), aeadKeyOk_derivedKey]
  refine Ends.line (congrArg _ h3) (Ends.line rfl (Ends.line (congrArg _ h5) ?_))
  split
  · rename_i hopen
    exact Ends.of_done (by simp [quiet, tickOpen, hopen])
  · rename_i hopen
    exact Ends.of_raised (by simp [quiet, tickOpen, hopen])

theorem open_ends (cfg : Config) (x : RandomSource) (raw key : Bytes) :
    Ends (quiet (tickOpen cfg)) envFuel x (startOpen raw key) (x, openFn cfg raw key) :=
  (Ends.line rfl (open_ends_from cfg x raw key)).mono (by decide)

theorem openFn_error {cfg : Config} {raw key : Bytes} {e : Status} (h : openFn cfg raw key = .error e) :
    e = .formatError ∨ e = .magicMismatch ∨ e = .decryptionFailed := by
  unfold openFn at h
  repeat' split at h
  all_goals cases h
  all_goals simp

/-- What is opened is no longer than its envelope. -/
theorem openFn_length_le {cfg : Config} {raw key payload : Bytes} (h : openFn cfg raw key = .ok payload) :
    payload.length ≤ raw.length := by
  unfold openFn aeadOpen at h
  repeat' split at h
  all_goals cases h
  rename_i hopen
  split at hopen
  · cases hopen
  · split at hopen
    · cases hopen
      simp [chachaXor_length, ctBody, envCiphertext]
      omega
    · cases hopen

end Sys2Proof.Machine

namespace Sys2Proof.Machine

/-! ## LZ.COMPRESS -/

/-- The run loop goes on only inside the input (R104). -/
theorem lt_of_runContinues {r : CompressRegs} {j l : Nat} (h : runContinues r j l = true) : r.pos + l < r.n := by
  rw [runContinues, Bool.and_eq_true, decide_eq_true_eq] at h
  exact h.1

theorem compressOk_tick {cfg : Config} {r r' : CompressRegs} (h : compressOk cfg r)
    (ht : tickCompress cfg r = .running r') : compressOk cfg r' := by
  obtain ⟨hn, hstage⟩ := h
  unfold tickCompress at ht
  split at ht
  · split at ht
    · rename_i hpos
      cases ht
      exact ⟨hn, hpos, rfl, le_rfl, Nat.sub_le _ _, hpos.le, Nat.zero_le _⟩
    · cases ht
  · rename_i hst
    rw [hst] at hstage
    obtain ⟨hpos, hlo, hloj, hjpos, hlen, hoff⟩ := hstage
    split at ht
    · rename_i hj
      cases ht
      exact ⟨hn, hpos, hlo, hloj, hj, hpos.le, hlen, hoff⟩
    · cases ht
      exact ⟨hn, hpos, hlo, hlen, hoff⟩
  · rename_i hst
    rw [hst] at hstage
    obtain ⟨hpos, hlo, hloj, hjpos, hl, hlen, hoff⟩ := hstage
    split at ht
    · rename_i hcont
      cases ht
      exact ⟨hn, hpos, hlo, hloj, hjpos, lt_of_runContinues hcont, hlen, hoff⟩
    · split at ht
      · cases ht
        exact ⟨hn, hpos, hlo, Nat.le_succ_of_le hloj, hjpos, hl, by omega⟩
      · cases ht
        exact ⟨hn, hpos, hlo, Nat.le_succ_of_le hloj, hjpos, hlen, hoff⟩
  · split at ht
    · cases ht
    · cases ht
      exact ⟨hn, trivial⟩

/-- A candidate's search leaves the incumbent as a match selected at `pos`. -/
theorem better_eq_incumbent (b : Bytes) (pos bl bo j : Nat) :
    better b pos (incumbent pos bl bo) j
      = incumbent pos (better b pos (incumbent pos bl bo) j).len (better b pos (incumbent pos bl bo) j).off := by
  unfold better
  split <;> rfl

section
variable {cfg : Config} {x : RandomSource} {r : CompressRegs}

/-- The candidate loop ends with the best of the candidates from `j` on; one candidate takes at most `n + 2` lines. -/
theorem compress_search {lo j bl bo : Nat} {best : Match} (hn : r.n = r.input.length)
    (hst : r.stage = .candidate lo j bl bo) (hj : j ≤ r.pos)
    (hbest : (List.range' j (r.pos - j)).foldl (better r.input r.pos) (incumbent r.pos bl bo) = best) :
    ∃ k ≤ (r.pos - j) * (r.n + 2) + 1, runUnit (quiet (tickCompress cfg)) k x r
      = (x, .running { r with stage := .emit lo best.len best.off (literalAfter r best.len) }) := by
  generalize hm : r.pos - j = m at hbest
  induction m generalizing r j bl bo with
  | zero =>
    subst hbest
    have hline : tickCompress cfg r = .running { r with stage := .emit lo bl bo (literalAfter r bl) } := by
      rw [tickCompress, hst]; exact if_neg (by omega)
    exact ⟨1, by omega, runUnit_succ_running (congrArg _ hline)⟩
  | succ m ih =>
    have hcand := compress_candidate (cfg := cfg) (x := x) hn hst (by omega)
    generalize hone : better r.input r.pos (incumbent r.pos bl bo) j = one at hcand
    have hrun := runAt_le r.input j r.pos
    rw [List.range'_succ, List.foldl_cons, better_eq_incumbent, hone] at hbest
    obtain ⟨k, hk, hrest⟩ := ih (r := { r with stage := .candidate lo (j + 1) one.len one.off }) hn rfl
      (by show j + 1 ≤ r.pos; omega) (by show r.pos - (j + 1) = m; omega) hbest
    refine ⟨runAt r.input j r.pos + 2 + k, ?_, (runUnit_add hcand).trans hrest⟩
    have hlines : k ≤ m * (r.n + 2) + 1 := hk
    have hsucc : (m + 1) * (r.n + 2) = m * (r.n + 2) + (r.n + 2) := by ring
    omega

/-- From the test of the outer loop to the token: the match selected at `pos` is known (R103 to R106). -/
theorem compress_select (hn : r.n = r.input.length) (hst : r.stage = .scan) (hpos : r.pos < r.n) :
    ∃ k ≤ r.n * (r.n + 2) + 2, runUnit (quiet (tickCompress cfg)) k x r
      = (x, .running { r with stage := (.emit (r.pos - cfg.window) (bestMatch cfg.window r.input r.pos).len
          (bestMatch cfg.window r.input r.pos).off
          (literalAfter r (bestMatch cfg.window r.input r.pos).len)) }) := by
  have hscan : tickCompress cfg r
      = .running { r with stage := .candidate (r.pos - cfg.window) (r.pos - cfg.window) 0 0 } := by
    rw [tickCompress, hst]; exact if_pos hpos
  obtain ⟨k, hk, hsearch⟩ := compress_search (cfg := cfg) (x := x)
    (r := { r with stage := .candidate (r.pos - cfg.window) (r.pos - cfg.window) 0 0 }) hn rfl (Nat.sub_le _ _)
    (bestMatch_eq cfg.window r.input r.pos).symm
  have hlines : (r.pos - (r.pos - cfg.window)) * (r.n + 2) ≤ r.n * (r.n + 2) := Nat.mul_le_mul_right _ (by omega)
  refine ⟨k + 1, ?_, (runUnit_succ_running (congrArg _ hscan)).trans hsearch⟩
  have hk' : k ≤ (r.pos - (r.pos - cfg.window)) * (r.n + 2) + 1 := hk
  omega
end

/-- What LZ.COMPRESS makes of the matches `ms` after the tokens `tok` (R107, R108). -/
def emitAll (cfg : Config) (b : Bytes) (tok : Tokens) (ms : List Match) : Except Status Tokens :=
  if cfg.lenOvf = .fault ∧ ∃ m ∈ ms, 65535 < m.len then .error .lengthOverflow else .ok (tok ++ ms.map (matchToken b))

theorem compressFn_eq (cfg : Config) (b : Bytes) :
    compressFn cfg b = emitAll cfg b [] (selectedMatches cfg.window b) := rfl

theorem emitAll_nil (cfg : Config) (b : Bytes) (tok : Tokens) : emitAll cfg b tok [] = .ok tok := by simp [emitAll]

theorem emitAll_overflow {cfg : Config} {m : Match} (h : 65535 < m.len ∧ cfg.lenOvf = .fault) (b : Bytes)
    (tok : Tokens) (ms : List Match) : emitAll cfg b tok (m :: ms) = .error .lengthOverflow := by
  simp [emitAll, h]

theorem emitAll_token {cfg : Config} {m : Match} (h : ¬ (65535 < m.len ∧ cfg.lenOvf = .fault)) (b : Bytes)
    (tok : Tokens) (ms : List Match) :
    emitAll cfg b tok (m :: ms) = emitAll cfg b (append tok (matchToken b m)) ms := by
  have hiff : (cfg.lenOvf = .fault ∧ ∃ m' ∈ m :: ms, 65535 < m'.len)
      ↔ (cfg.lenOvf = .fault ∧ ∃ m' ∈ ms, 65535 < m'.len) := by
    simp only [List.mem_cons, exists_eq_or_imp]
    tauto
  simp only [emitAll, hiff, append, List.map_cons, List.append_assoc, List.singleton_append]

/-- LZ.COMPRESS emits the tokens of the matches selected from `pos` on (R100). -/
theorem compress_ends_from (cfg : Config) (x : RandomSource) {F : Nat} {r : CompressRegs} (hn : r.n = r.input.length)
    (hst : r.stage = .scan) (hF : r.n - r.pos ≤ F) :
    Ends (quiet (tickCompress cfg)) (F * (r.n * (r.n + 2) + 3) + 1) x r
      (x, emitAll cfg r.input r.tok (matchesFrom cfg.window r.input F r.pos)) := by
  induction F generalizing r with
  | zero =>
    have hdone : tickCompress cfg r = .done r.tok := by rw [tickCompress, hst]; exact if_neg (by omega)
    rw [matchesFrom, emitAll_nil]
    exact (Ends.of_done (congrArg _ hdone)).mono (by omega)
  | succ F ih =>
    rw [matchesFrom]
    by_cases hpos : r.pos < r.n
    swap
    · have hdone : tickCompress cfg r = .done r.tok := by rw [tickCompress, hst]; exact if_neg hpos
      rw [if_neg (hn ▸ hpos), emitAll_nil]
      exact (Ends.of_done (congrArg _ hdone)).mono (by omega)
    rw [if_pos (hn ▸ hpos)]
    obtain ⟨k, hk, hselect⟩ := compress_select (cfg := cfg) (x := x) hn hst hpos
    have hsucc : (F + 1) * (r.n * (r.n + 2) + 3) = F * (r.n * (r.n + 2) + 3) + (r.n * (r.n + 2) + 3) := by ring
    generalize hbest : bestMatch cfg.window r.input r.pos = best at hselect ⊢
    have hbpos : best.pos = r.pos := hbest ▸ bestMatch_pos cfg.window r.input r.pos
    have htoken : tokenOf best.off best.len (literalAfter r best.len) = matchToken r.input best := by
      rw [literalAfter_eq hn, matchToken, hbpos]
    by_cases hovf : 65535 < best.len ∧ cfg.lenOvf = .fault
    · rw [emitAll_overflow hovf]
      exact (Ends.after hselect (Ends.of_raised (congrArg _ (if_pos hovf)))).mono (by omega)
    · have hemit : tickCompress cfg
          { r with stage := .emit (r.pos - cfg.window) best.len best.off (literalAfter r best.len) }
          = .running { r with
              tok := append r.tok (matchToken r.input best)
              pos := r.pos + best.len + 1
              stage := .scan } := by
        rw [← htoken]; exact if_neg hovf
      have hrest := ih
        (r := { r with
          tok := append r.tok (matchToken r.input best)
          pos := r.pos + best.len + 1
          stage := .scan })
        hn rfl (by show r.n - (r.pos + best.len + 1) ≤ F; omega)
      rw [emitAll_token hovf]
      exact (Ends.after hselect (Ends.line (congrArg _ hemit) hrest)).mono (by dsimp only; omega)

theorem compress_ends (cfg : Config) (x : RandomSource) (b : Bytes) :
    Ends (quiet (tickCompress cfg)) (compressFuel b.length) x (startCompress b) (x, compressFn cfg b) := by
  rw [compressFn_eq]
  exact compress_ends_from cfg x (r := startCompress b) rfl rfl le_rfl

theorem matchesFrom_length_le (w : Nat) (b : Bytes) (F pos : Nat) : (matchesFrom w b F pos).length ≤ F := by
  induction F generalizing pos with
  | zero => exact le_rfl
  | succ F ih =>
    rw [matchesFrom]
    split
    · simpa using ih _
    · simp

/-- At most one token a byte (R196). -/
theorem compressFn_length_le {cfg : Config} {b : Bytes} {ts : Tokens} (h : compressFn cfg b = .ok ts) :
    ts.length ≤ b.length := by
  unfold compressFn at h
  split at h
  · cases h
  · cases h
    simpa [selectedMatches] using matchesFrom_length_le cfg.window b b.length 0

theorem compressFn_error {cfg : Config} {b : Bytes} {e : Status} (h : compressFn cfg b = .error e) :
    cfg.lenOvf = .fault ∧ e = .lengthOverflow := by
  unfold compressFn at h
  split at h
  · rename_i hovf; cases h; exact ⟨hovf.1, rfl⟩
  · cases h

/-! ## LZ.DECOMPRESS -/

theorem replayOk_start (t : Tokens) : replayOk (startReplay t) := ⟨Nat.zero_le _, by simp [startReplay], trivial⟩

/-- A literal appended is not the sentinel (R116). -/
theorem not_mem_appendLiteral {out : Bytes} (h : 0 ∉ out) (n : Byte) : 0 ∉ appendLiteral out n := by
  rw [appendLiteral_eq, literalOf]
  split
  · simpa using h
  · rename_i hne
    exact List.not_mem_append h fun h0 => hne (List.mem_singleton.mp h0).symm

/-- A copied byte is one of the output's own (R114). -/
theorem copyByte_some {out out' : Bytes} {s : Int} {k : Nat} (h : copyByte out s k = some out') :
    ∃ y ∈ out, out' = out ++ [y] := by
  unfold copyByte at h
  split at h
  · rename_i y hread; cases h; exact ⟨y, readByte_mem hread, rfl⟩
  · cases h

theorem replayOk_tick {r r' : ReplayRegs} (h : replayOk r) (ht : tickReplay r = .running r') : replayOk r' := by
  obtain ⟨hti, hnul, hstage⟩ := h
  unfold tickReplay at ht
  split at ht
  · cases ht
  · rename_i t hget hst
    split at ht
    · cases ht
    · rename_i hfault
      cases ht
      refine ⟨hti, hnul, t, hget, Nat.zero_le _, fun hl => ?_⟩
      obtain ⟨hpos, hle⟩ := copy_source_inside hl (mt (copyFaults_iff _ _ _).mpr hfault)
      simp only [copySource]
      omega
  · rename_i t s k hget hst
    rw [hst] at hstage
    obtain ⟨t', hget', hk, hsource⟩ := hstage
    obtain rfl : t' = t := Option.some.inj (hget'.symm.trans hget)
    split at ht
    · rename_i hlt
      split at ht
      · rename_i out hcopy
        cases ht
        obtain ⟨y, hy, rfl⟩ := copyByte_some hcopy
        refine ⟨hti, ?_, t', hget', hlt, fun hl => ?_⟩
        · exact List.not_mem_append hnul fun h0 => hnul (List.mem_singleton.mp h0 ▸ hy)
        · obtain ⟨hs, hlast⟩ := hsource hl
          simp only [List.length_append, List.length_cons, List.length_nil]
          omega
      · cases ht
    · cases ht
      exact ⟨(List.getElem?_eq_some_iff.mp hget).1, not_mem_appendLiteral hnul _, trivial⟩

/-- A replay delivers the output it has. -/
theorem tickReplay_done {r : ReplayRegs} {b : Bytes} (ht : tickReplay r = .done b) : b = r.out := by
  unfold tickReplay at ht
  split at ht
  · cases ht; rfl
  · split at ht <;> cases ht
  · split at ht
    · split at ht <;> cases ht
    · cases ht

/-- The range check of a token is the one of the copy (R115), and a token that passes it appends its copy and its
literal. -/
theorem replayOne_eq (out : Bytes) (t : Token) :
    replayOne out t = match copyRun out t.offset t.length with
      | some out' => .ok (appendLiteral out' t.next)
      | none => .error .copyOutOfRange := by
  rw [replayOne, copyRun_eq]
  split
  · rfl
  · simp [appendLiteral_eq]

/-- The copy loop, `m` iterations from iteration `k` on (R114). -/
theorem replay_copy {x : RandomSource} {r : ReplayRegs} {t : Token} {s : Int} {m k : Nat} {out' : Bytes}
    (hget : r.tok[r.ti]? = some t) (hst : r.stage = .copy s k) (hm : k + m = t.length.toNat)
    (hcopy : copyBytes m s k r.out = some out') :
    runUnit (quiet tickReplay) m x r = (x, .running { r with out := out', stage := .copy s t.length.toNat }) := by
  induction m generalizing r k with
  | zero =>
    cases hcopy
    rw [runUnit_zero, ← hm, Nat.add_zero, ← hst]
  | succ m ih =>
    rw [copyBytes] at hcopy
    split at hcopy
    · rename_i out hbyte
      have hline : tickReplay r = .running { r with out := out, stage := .copy s (k + 1) } := by
        simp only [tickReplay, hget, hst, hbyte]
        exact if_pos (by omega)
      exact (runUnit_succ_running (congrArg _ hline)).trans
        (ih (r := { r with out := out, stage := .copy s (k + 1) }) hget rfl (by omega) hcopy)
    · cases hcopy

section
variable {r : ReplayRegs} {t : Token} (hst : r.stage = .token) (hget : r.tok[r.ti]? = some t)
include hst hget

/-- A token that is in range takes `length + 2` lines. -/
theorem replay_token (x : RandomSource) {out : Bytes} (h : replayOne r.out t = .ok out) :
    runUnit (quiet tickReplay) (t.length.toNat + 2) x r = (x, .running (nextToken r out)) := by
  rw [replayOne_eq] at h
  split at h
  · rename_i copied hrun
    cases h
    rw [copyRun] at hrun
    split at hrun
    · cases hrun
    · rename_i hfault
      have hcheck : tickReplay r = .running { r with stage := .copy (copySource r.out t.offset) 0 } := by
        simp [tickReplay, hget, hst, hfault]
      have hloop := replay_copy (x := x) (r := { r with stage := .copy (copySource r.out t.offset) 0 }) hget rfl
        (Nat.zero_add _) hrun
      have hlast : tickReplay { r with out := copied, stage := .copy (copySource r.out t.offset) t.length.toNat }
          = .running (nextToken r (appendLiteral copied t.next)) := by
        simp [tickReplay, hget, nextToken]
      rw [show t.length.toNat + 2 = (t.length.toNat + 1) + 1 by omega,
        runUnit_succ_running (f := quiet tickReplay) (congrArg _ hcheck), runUnit_add hloop]
      exact runUnit_succ_running (congrArg _ hlast)
  · cases h

/-- A token that is out of range raises on its first line (R115). -/
theorem replay_token_raised {e : Status} (h : replayOne r.out t = .error e) : tickReplay r = .raised e := by
  rw [replayOne] at h
  split at h
  · rename_i hfault
    cases h
    simp [tickReplay, hget, hst, (copyFaults_iff _ _ _).mpr hfault]
  · cases h
end

/-- LZ.DECOMPRESS replays the tokens left (R112). -/
theorem replay_ends_from (x : RandomSource) {rest : Tokens} {r : ReplayRegs} (hst : r.stage = .token)
    (hrest : r.tok.drop r.ti = rest) :
    Ends (quiet tickReplay) (replayFuel rest) x r (x, rest.foldlM replayOne r.out) := by
  induction rest generalizing r with
  | nil =>
    have hget : r.tok[r.ti]? = none := List.getElem?_eq_none (List.drop_eq_nil_iff.mp hrest)
    have hdone : tickReplay r = .done r.out := by simp [tickReplay, hget]
    exact Ends.of_done (congrArg _ hdone)
  | cons t rest ih =>
    have hget : r.tok[r.ti]? = some t := by rw [← List.head?_drop, hrest, List.head?_cons]
    have hfuel : replayFuel (t :: rest) = (t.length.toNat + 2) + replayFuel rest := by
      simp [replayFuel]; omega
    rw [List.foldlM_cons, hfuel]
    cases hone : replayOne r.out t with
    | error e => exact (Ends.of_raised (congrArg _ (replay_token_raised hst hget hone))).mono (by omega)
    | ok out =>
      exact Ends.after (replay_token hst hget x hone) (ih (r := nextToken r out) rfl
        (by show r.tok.drop (r.ti + 1) = rest; rw [← List.tail_drop, hrest, List.tail_cons]))

theorem replay_ends (x : RandomSource) (t : Tokens) :
    Ends (quiet tickReplay) (replayFuel t) x (startReplay t) (x, decompressFn t) :=
  replay_ends_from x (r := startReplay t) rfl rfl

theorem replayOne_error {out : Bytes} {t : Token} {e : Status} (h : replayOne out t = .error e) :
    e = .copyOutOfRange := by
  unfold replayOne at h
  split at h <;> cases h
  rfl

/-- A token appends no zero byte (R116). -/
theorem replayOne_nulFree {out out' : Bytes} {t : Token} (hnul : 0 ∉ out) (h : replayOne out t = .ok out') :
    0 ∉ out' := by
  rw [replayOne_eq, copyRun_eq] at h
  split at h
  · rename_i copied hrun
    split at hrun
    · cases hrun
    · rename_i hfault
      cases hrun
      cases h
      refine not_mem_appendLiteral ?_ _
      by_cases hl : t.length = 0
      · simpa [hl, cyclicCopy_zero] using hnul
      · obtain ⟨hpos, hle⟩ := copy_source_inside hl hfault
        exact List.not_mem_append hnul fun h0 => hnul (cyclicCopy_mem hpos hle h0)
  · cases h

/-- What holds of the result of a replay, token by token. -/
theorem foldlM_replayOne_nulFree {ts : Tokens} {out b : Bytes} (hnul : 0 ∉ out)
    (h : ts.foldlM replayOne out = .ok b) : 0 ∉ b := by
  induction ts generalizing out with
  | nil => cases h; exact hnul
  | cons t ts ih =>
    rw [List.foldlM_cons] at h
    cases hone : replayOne out t with
    | error e => rw [hone] at h; cases h
    | ok out' => rw [hone] at h; exact ih (replayOne_nulFree hnul hone) h

theorem foldlM_replayOne_error {ts : Tokens} {out : Bytes} {e : Status} (h : ts.foldlM replayOne out = .error e) :
    e = .copyOutOfRange := by
  induction ts generalizing out with
  | nil => cases h
  | cons t ts ih =>
    rw [List.foldlM_cons] at h
    cases hone : replayOne out t with
    | error e' => rw [hone] at h; cases h; exact replayOne_error hone
    | ok out' => rw [hone] at h; exact ih h

/-- R116: no zero byte in what is decompressed. -/
theorem decompressFn_nulFree {ts : Tokens} {b : Bytes} (h : decompressFn ts = .ok b) : 0 ∉ b :=
  foldlM_replayOne_nulFree (by simp) h

theorem decompressFn_error {ts : Tokens} {e : Status} (h : decompressFn ts = .error e) : e = .copyOutOfRange :=
  foldlM_replayOne_error h

end Sys2Proof.Machine

namespace Sys2Proof.Machine

/-! ## PIPE -/

theorem toBytes_ends_start (x : RandomSource) (t : Tokens) :
    Ends (quiet tickToBytes) (toBytesFuel t) x (startToBytes t) (x, .ok (toBytesFn t)) :=
  toBytes_ends x (toBytesOk_start t) rfl

theorem fromBytes_ends_start (x : RandomSource) (b : Bytes) :
    Ends (quiet tickFromBytes) (fromBytesFuel b.length) x (startFromBytes b) (x, .ok (fromBytesFn b)) :=
  fromBytes_ends x (r := startFromBytes b) rfl

/-- R195: the units one after the other. -/
theorem encrypt_ends (cfg : Config) (x : RandomSource) (b key : Bytes) :
    Ends (tickEncrypt cfg) (encryptFuel b.length) x (startEncrypt b key) (encryptFn cfg x b key) := by
  have hcompress := compress_ends cfg x b
  unfold encryptFn encryptFuel
  cases hts : compressFn cfg b with
  | error e =>
    rw [hts] at hcompress
    exact ((embeds_compress cfg key).ends_error hcompress).mono (by omega)
  | ok ts =>
    rw [hts] at hcompress
    have hlen := compressFn_length_le hts
    have hserialize := toBytes_ends_start x ts
    have hseal := seal_ends_from cfg x (toBytesFn ts) key
    dsimp only
    rcases henv : sealFn cfg x (toBytesFn ts) key with ⟨x', e | env⟩
    · rw [henv] at hseal
      refine Ends.mono ((embeds_compress cfg key).ends_then hcompress rfl ((embeds_serialize cfg key).ends_then
        hserialize rfl ((embeds_sealing cfg).ends_error hseal))) ?_
      simp only [toBytesFuel, envFuel]
      omega
    · rw [henv] at hseal
      have henvlen := sealFn_length henv
      rw [toBytesFn_length] at henvlen
      have hencode := encode_ends cfg x' env (k := encodeFuel (48 + 5 * b.length)) (by unfold encodeFuel; omega)
      refine Ends.mono ((embeds_compress cfg key).ends_then hcompress rfl ((embeds_serialize cfg key).ends_then
        hserialize rfl ((embeds_sealing cfg).ends_then hseal rfl ((embeds_encode cfg).ends_done hencode)))) ?_
      simp only [toBytesFuel, envFuel]
      omega

theorem replayFuel_le (t : Tokens) : replayFuel t ≤ 65537 * t.length + 1 := by
  have hsum : (t.map fun x => x.length.toNat + 2).sum ≤ (t.map fun x => x.length.toNat + 2).length • 65537 := by
    refine List.sum_le_card_nsmul _ _ fun n hn => ?_
    obtain ⟨y, -, rfl⟩ := List.mem_map.mp hn
    have := y.length.isLt
    omega
  rw [List.length_map, smul_eq_mul] at hsum
  unfold replayFuel
  omega

/-- The chain of R200, left on the first error. -/
theorem decryptFn_eq (cfg : Config) (g : Glyphs) (key : Bytes) : decryptFn cfg g key =
    match decodeFn cfg g with
    | .error e => .error e
    | .ok raw =>
      match openFn cfg raw key with
      | .error e => .error e
      | .ok payload => decompressFn (fromBytesFn payload) := by
  unfold decryptFn
  cases decodeFn cfg g with
  | error e => rfl
  | ok raw => cases h : openFn cfg raw key <;> simp only [bind, Except.bind, h]

/-- R200: the units one after the other. -/
theorem decrypt_ends (cfg : Config) (x : RandomSource) (g : Glyphs) (key : Bytes) :
    Ends (quiet (tickDecrypt cfg)) (decryptFuel g.length) x (startDecrypt g key) (x, decryptFn cfg g key) := by
  have hdecode := decode_ends cfg x g
  rw [decryptFn_eq, decryptFuel]
  cases hraw : decodeFn cfg g with
  | error e =>
    rw [hraw] at hdecode
    exact ((embeds_decode cfg key).ends_error hdecode).mono (by omega)
  | ok raw =>
    rw [hraw] at hdecode
    have hrawlen := decodeFn_length_le hraw
    have hopen := open_ends_from cfg x raw key
    dsimp only
    cases hpayload : openFn cfg raw key with
    | error e =>
      rw [hpayload] at hopen
      exact ((embeds_decode cfg key).ends_then hdecode rfl ((embeds_opening cfg).ends_error hopen)).mono
        (by simp only [envFuel]; omega)
    | ok payload =>
      rw [hpayload] at hopen
      have hpaylen := openFn_length_le hpayload
      have htokens : (fromBytesFn payload).length = payload.length / 5 := fromBytesFn_length payload
      have hfuel := replayFuel_le (fromBytesFn payload)
      have hparse := fromBytes_ends_start x payload
      have hreplay := replay_ends x (fromBytesFn payload)
      refine Ends.mono ((embeds_decode cfg key).ends_then hdecode rfl ((embeds_opening cfg).ends_then hopen rfl
        ((embeds_parse cfg).ends_then hparse rfl ((embeds_replay cfg).ends_done hreplay)))) ?_
      simp only [envFuel, fromBytesFuel, recordCount, Config.tokenBytes]
      omega

theorem encryptFn_error {cfg : Config} {x : RandomSource} {b key : Bytes} {e : Status}
    (h : (encryptFn cfg x b key).2 = .error e) :
    e = .randomnessUnavailable ∨ (cfg.lenOvf = .fault ∧ e = .lengthOverflow) := by
  unfold encryptFn at h
  split at h
  · rename_i hts; cases h; exact .inr (compressFn_error hts)
  · split at h
    · rename_i hseal; cases h; exact .inl (sealFn_error (congrArg Prod.snd hseal))
    · cases h

theorem decryptFn_error {cfg : Config} {g : Glyphs} {key : Bytes} {e : Status} (h : decryptFn cfg g key = .error e) :
    e = .invalidCharacter ∨ (e = .formatError ∨ e = .magicMismatch ∨ e = .decryptionFailed) ∨ e = .copyOutOfRange := by
  rw [decryptFn_eq] at h
  split at h
  · rename_i hraw; cases h; exact .inl (decodeFn_error hraw)
  · split at h
    · rename_i hpayload; cases h; exact .inr (.inl (openFn_error hpayload))
    · exact .inr (.inr (decompressFn_error h))

/-- No zero byte in what PIPE.DECRYPT delivers (R206). -/
theorem decryptFn_nulFree {cfg : Config} {g : Glyphs} {key b : Bytes} (h : decryptFn cfg g key = .ok b) : 0 ∉ b := by
  rw [decryptFn_eq] at h
  split at h
  · cases h
  · split at h
    · cases h
    · exact decompressFn_nulFree h

/-! ## The limit of the AEAD (R247) -/

theorem Ends.unique {ρ ω : Type} {f : RandomSource → ρ → RandomSource × Tick ρ ω} {k m : Nat} {x : RandomSource}
    {r : ρ} {p q : RandomSource × Except Status ω} (hp : Ends f k x r p) (hq : Ends f m x r q) : p = q := by
  have h : (p.1, endTick p.2) = (q.1, endTick q.2) :=
    (hp.mono (le_max_left k m)).symm.trans (hq.mono (le_max_right k m))
  obtain ⟨y, e | o⟩ := p <;> obtain ⟨z, e' | o'⟩ := q <;> simp_all [endTick]

/-- PIPE.ENCRYPT is refused exactly for a plaintext whose payload is over the limit. -/
theorem encryptOverLimit_iff (cfg : Config) (x : RandomSource) (b : Bytes) :
    encryptOverLimit cfg x b = true ↔ ∃ ts, compressFn cfg b = .ok ts ∧ Config.aeadLimit < 5 * ts.length := by
  have hrun : runUnit (quiet (tickCompress cfg)) (compressFuel b.length) x (startCompress b)
    = (x, endTick (compressFn cfg b)) := compress_ends cfg x b
  rw [encryptOverLimit, hrun]
  cases hts : compressFn cfg b with
  | error e => simp [endTick]
  | ok ts =>
    have hlen := compressFn_length_le hts
    simp only [endTick, Bool.and_eq_true, decide_eq_true_eq, Except.ok.injEq, exists_eq_left']
    omega

/-- PIPE.DECRYPT is refused exactly for a string whose envelope is over the limit. -/
theorem decryptOverLimit_iff (cfg : Config) (x : RandomSource) (g : Glyphs) :
    decryptOverLimit cfg x g = true ↔ ∃ raw, decodeFn cfg g = .ok raw ∧ openOverLimit cfg raw = true := by
  have hrun : runUnit (quiet (tickDecode cfg)) (decodeFuel g.length) x (startDecode g)
    = (x, endTick (decodeFn cfg g)) := decode_ends cfg x g
  rw [decryptOverLimit, hrun]
  cases hraw : decodeFn cfg g with
  | error e => simp [endTick]
  | ok raw =>
    have hlen := decodeFn_length_le hraw
    simp only [endTick, openOverLimit, Bool.and_eq_true, decide_eq_true_eq, Except.ok.injEq, exists_eq_left']
    exact ⟨And.right, fun h => ⟨by omega, h⟩⟩

/-! ## The operations as one function -/

/-- What operation `i` computes on the inputs, as the functions of the rules state it, with the random source it
leaves; none for a token form. -/
def operationFn (i : Instr) (cfg : Config) (x : RandomSource) (inp : Inputs) :
    Option (RandomSource × Except Status Output) :=
  match i with
  | .lzCompress => some (x, (compressFn cfg inp.bytes).map .tokens)
  | .lzDecompress => some (x, (decompressFn inp.tokens).map .bytes)
  | .tsToBytes => some (x, .ok (.bytes (toBytesFn inp.tokens)))
  | .tsFromBytes => some (x, .ok (.tokens (fromBytesFn inp.bytes)))
  | .q5Encode => some (x, .ok (.glyphs (encodeFn cfg inp.bytes)))
  | .q5Decode => some (x, (decodeFn cfg inp.glyphs).map .bytes)
  | .envSeal => some ((sealFn cfg x inp.bytes inp.key).1, (sealFn cfg x inp.bytes inp.key).2.map .bytes)
  | .envOpen => some (x, (openFn cfg inp.bytes inp.key).map .bytes)
  | .pipeEncrypt => some ((encryptFn cfg x inp.bytes inp.key).1, (encryptFn cfg x inp.bytes inp.key).2.map .glyphs)
  | .pipeDecrypt => some (x, (decryptFn cfg inp.glyphs inp.key).map .bytes)
  | .tNull _ => none
  | .tLit _ _ => none
  | .tCopy _ _ => none
  | .tCopyLit _ _ _ => none

/-- The result in the form of an output, or in its own form: the same state after the operation. -/
theorem ended_map {ω : Type} (s : State) (out : ω → Output) (x : RandomSource) (e : Except Status ω) :
    ended s id x (e.map out) = ended s out x e := by
  cases e <;> rfl

section
variable {s : State} {inp : Inputs}

/-- A unit that ends leaves the state after the operation. -/
theorem conclude_of_ends {ρ ω : Type} {f : RandomSource → ρ → RandomSource × Tick ρ ω} {k : Nat} {x : RandomSource}
    {r : ρ} {p : RandomSource × Except Status ω} (h : Ends f k x r p) (s : State) (work : ρ → Work)
    (out : ω → Output) : conclude s work out (runUnit f k x r) = ended s out p.1 p.2 := by
  rw [show runUnit f k x r = (p.1, endTick p.2) from h, conclude_endTick]

theorem exec_lzCompress (hp : s.phase = .started inp) :
    exec .lzCompress s = .next (ended s .tokens s.random (compressFn s.cfg inp.bytes)) := by
  show execLzCompress s = _
  rw [execLzCompress, operate_started hp, conclude_of_ends (compress_ends _ _ _)]

theorem exec_lzDecompress (hp : s.phase = .started inp) :
    exec .lzDecompress s = .next (ended s .bytes s.random (decompressFn inp.tokens)) := by
  show execLzDecompress s = _
  rw [execLzDecompress, operate_started hp, conclude_of_ends (replay_ends _ _)]

theorem exec_tsToBytes (hp : s.phase = .started inp) :
    exec .tsToBytes s = .next (ended s .bytes s.random (.ok (toBytesFn inp.tokens))) := by
  show execTsToBytes s = _
  rw [execTsToBytes, operate_started hp, conclude_of_ends (toBytes_ends_start _ _)]

theorem exec_tsFromBytes (hp : s.phase = .started inp) :
    exec .tsFromBytes s = .next (ended s .tokens s.random (.ok (fromBytesFn inp.bytes))) := by
  show execTsFromBytes s = _
  rw [execTsFromBytes, operate_started hp, conclude_of_ends (fromBytes_ends_start _ _)]

theorem exec_q5Encode (hp : s.phase = .started inp) :
    exec .q5Encode s = .next (ended s .glyphs s.random (.ok (encodeFn s.cfg inp.bytes))) := by
  show execQ5Encode s = _
  rw [execQ5Encode, operate_started hp, conclude_of_ends (encode_ends _ _ _ le_rfl)]

theorem exec_q5Decode (hp : s.phase = .started inp) :
    exec .q5Decode s = .next (ended s .bytes s.random (decodeFn s.cfg inp.glyphs)) := by
  show execQ5Decode s = _
  rw [execQ5Decode, operate_started hp, conclude_of_ends (decode_ends _ _ _)]

/-- ENV.SEAL refuses a payload over the limit and otherwise gives `sealFn` (R170, R247). -/
theorem exec_envSeal (hp : s.phase = .started inp) :
    exec .envSeal s = if sealOverLimit inp.bytes then .refused .aeadLimitExceeded
      else .next (ended s .bytes (sealFn s.cfg s.random inp.bytes inp.key).1
        (sealFn s.cfg s.random inp.bytes inp.key).2) := by
  show execEnvSeal s = _
  rw [execEnvSeal, operate_started hp, conclude_of_ends (seal_ends _ _ _ _)]

theorem exec_envOpen (hp : s.phase = .started inp) :
    exec .envOpen s = if openOverLimit s.cfg inp.bytes then .refused .aeadLimitExceeded
      else .next (ended s .bytes s.random (openFn s.cfg inp.bytes inp.key)) := by
  show execEnvOpen s = _
  rw [execEnvOpen, operate_started hp, conclude_of_ends (open_ends _ _ _ _)]

theorem exec_pipeEncrypt (hp : s.phase = .started inp) :
    exec .pipeEncrypt s = if encryptOverLimit s.cfg s.random inp.bytes then .refused .aeadLimitExceeded
      else .next (ended s .glyphs (encryptFn s.cfg s.random inp.bytes inp.key).1
        (encryptFn s.cfg s.random inp.bytes inp.key).2) := by
  show execPipeEncrypt s = _
  rw [execPipeEncrypt, operate_started hp, conclude_of_ends (encrypt_ends _ _ _ _)]

theorem exec_pipeDecrypt (hp : s.phase = .started inp) :
    exec .pipeDecrypt s = if decryptOverLimit s.cfg s.random inp.glyphs then .refused .aeadLimitExceeded
      else .next (ended s .bytes s.random (decryptFn s.cfg inp.glyphs inp.key)) := by
  show execPipeDecrypt s = _
  rw [execPipeDecrypt, operate_started hp, conclude_of_ends (decrypt_ends _ _ _ _)]

/-- Before a started operation there is no replay for a token form. -/
theorem withReplay_started {t : State} {go : ReplayRegs → Tick ReplayRegs Bytes} (hp : s.phase = .started inp) :
    withReplay s go ≠ .next t := by
  simp [withReplay, hp]

/-- Every operation that ends gives the state that its function gives: the step machine computes the function (R16). -/
theorem exec_operation {i : Instr} {t : State} (hp : s.phase = .started inp) (he : exec i s = .next t) :
    ∃ p, operationFn i s.cfg s.random inp = some p ∧ t = ended s id p.1 p.2 := by
  cases i
  case lzCompress => rw [exec_lzCompress hp] at he; cases he; exact ⟨_, rfl, (ended_map ..).symm⟩
  case lzDecompress => rw [exec_lzDecompress hp] at he; cases he; exact ⟨_, rfl, (ended_map ..).symm⟩
  case tsToBytes => rw [exec_tsToBytes hp] at he; cases he; exact ⟨_, rfl, rfl⟩
  case tsFromBytes => rw [exec_tsFromBytes hp] at he; cases he; exact ⟨_, rfl, rfl⟩
  case q5Encode => rw [exec_q5Encode hp] at he; cases he; exact ⟨_, rfl, rfl⟩
  case q5Decode => rw [exec_q5Decode hp] at he; cases he; exact ⟨_, rfl, (ended_map ..).symm⟩
  case envSeal =>
    rw [exec_envSeal hp] at he
    split at he <;> cases he
    exact ⟨_, rfl, (ended_map ..).symm⟩
  case envOpen =>
    rw [exec_envOpen hp] at he
    split at he <;> cases he
    exact ⟨_, rfl, (ended_map ..).symm⟩
  case pipeEncrypt =>
    rw [exec_pipeEncrypt hp] at he
    split at he <;> cases he
    exact ⟨_, rfl, (ended_map ..).symm⟩
  case pipeDecrypt =>
    rw [exec_pipeDecrypt hp] at he
    split at he <;> cases he
    exact ⟨_, rfl, (ended_map ..).symm⟩
  case tNull => exact absurd he (withReplay_started hp)
  case tLit => exact absurd he (withReplay_started hp)
  case tCopy => exact absurd he (withReplay_started hp)
  case tCopyLit => exact absurd he (withReplay_started hp)
end

/-- The operations of R5 give a next state only where one is started. -/
theorem exec_operation_started {i : Instr} {s t : State} (hi : isOperation i = true) (he : exec i s = .next t) :
    ∃ inp, s.phase = .started inp := by
  have hop : ∀ {go : Inputs → Host.Outcome State Fault Refusal}, operate s go = .next t →
      ∃ inp, s.phase = .started inp := fun h => (operate_next h).imp fun _ => And.left
  cases i
  case tNull | tLit | tCopy | tCopyLit => cases hi
  all_goals exact hop he

end Sys2Proof.Machine

namespace Sys2Proof

/-! ## Token forms -/

theorem append_eq_zero_iff {m n : Nat} (a : BitVec m) (b : BitVec n) : a ++ b = 0#(m + n) ↔ a = 0#m ∧ b = 0#n := by
  constructor
  · intro h
    have hnat := congrArg BitVec.toNat h
    rw [BitVec.toNat_append, BitVec.toNat_zero, Nat.or_eq_zero_iff, Nat.shiftLeft_eq_zero_iff] at hnat
    exact ⟨BitVec.eq_of_toNat_eq hnat.1, BitVec.eq_of_toNat_eq hnat.2⟩
  · rintro ⟨rfl, rfl⟩
    exact BitVec.zero_append_zero

section
variable (t : Token)

/-- A mask of a record word, field by field (R75). -/
theorem recordWord_and (o l : U16) (n : Byte) :
    recordWord t &&& (o ++ l ++ n) = 0 ↔ (t.offset &&& o = 0#16 ∧ t.length &&& l = 0#16) ∧ t.next &&& n = 0#8 := by
  rw [recordWord, BitVec.and_append, BitVec.and_append]
  exact (append_eq_zero_iff _ _).trans (and_congr_left' (append_eq_zero_iff _ _))

/-- The masks of the table tell the forms apart as R77 does: by whether length and next are zero. -/
theorem decodeToken_eq : decodeToken t =
    if t.length = 0 then if t.next = 0 then .tNull t.offset else .tLit t.offset t.next
    else if t.next = 0 then .tCopy t.offset t.length else .tCopyLit t.offset t.length t.next := by
  have hnull : recordWord t &&& 0x0000FFFFFF#40 = 0 ↔ t.length = 0 ∧ t.next = 0 := by
    rw [show (0x0000FFFFFF#40 : BitVec 40) = 0#16 ++ BitVec.allOnes 16 ++ BitVec.allOnes 8 by decide, recordWord_and]
    simp only [BitVec.and_zero, BitVec.and_allOnes, true_and]; rfl
  have hlit : recordWord t &&& 0x0000FFFF00#40 = 0 ↔ t.length = 0 := by
    rw [show (0x0000FFFF00#40 : BitVec 40) = 0#16 ++ BitVec.allOnes 16 ++ 0#8 by decide, recordWord_and]
    simp only [BitVec.and_zero, BitVec.and_allOnes, true_and, and_true]; rfl
  have hcopy : recordWord t &&& 0x00000000FF#40 = 0 ↔ t.next = 0 := by
    rw [show (0x00000000FF#40 : BitVec 40) = 0#16 ++ 0#16 ++ BitVec.allOnes 8 by decide, recordWord_and]
    simp only [BitVec.and_zero, BitVec.and_allOnes, true_and]; rfl
  simp only [decodeToken, hnull, hlit, hcopy]
  by_cases hl : t.length = 0
  · simp only [hl, true_and, if_true]
  · simp only [hl, false_and, if_false]
end

namespace Machine

/-- One token of a replay, whichever form it has (R113 to R116). -/
def replayTick (t : Token) (r : ReplayRegs) : Tick ReplayRegs Bytes :=
  match replayOne r.out t with
  | .ok out => .running (nextToken r out)
  | .error e => .raised e

section
variable {t : Token} {r : ReplayRegs}

theorem replayTick_ok {out : Bytes} (h : replayOne r.out t = .ok out) :
    replayTick t r = .running (nextToken r out) := by
  simp only [replayTick, h]

theorem replayTick_error {e : Status} (h : replayOne r.out t = .error e) : replayTick t r = .raised e := by
  simp only [replayTick, h]

/-- Without a copy only the literal is appended. -/
theorem replayTick_literal (h : t.length = 0) :
    replayTick t r = .running (nextToken r (appendLiteral r.out t.next)) := by
  apply replayTick_ok
  rw [replayOne_eq, copyRun_eq, if_neg (by simp [h]), h]
  simp [cyclicCopy_zero]

/-- The copy, then the literal. -/
theorem replayTick_copy : replayTick t r = match copyRun r.out t.offset t.length with
    | some out => .running (nextToken r (appendLiteral out t.next))
    | none => .raised .copyOutOfRange := by
  rw [replayTick, replayOne_eq]
  cases copyRun r.out t.offset t.length <;> rfl
end

theorem appendLiteral_zero (out : Bytes) : appendLiteral out 0 = out := rfl

/-- The four token forms, as what one token does (R77). -/
theorem exec_decodeToken (t : Token) (s : State) : exec (decodeToken t) s = withReplay s (replayTick t) := by
  rw [decodeToken_eq]
  split
  · rename_i hl
    rw [show replayTick t = _ from funext fun r => replayTick_literal hl]
    split
    · rename_i hn; simp only [hn, appendLiteral_zero]; rfl
    · rfl
  · rw [show replayTick t = _ from funext fun r => replayTick_copy]
    split
    · rename_i hn; simp only [hn, appendLiteral_zero]; rfl
    · rfl

/-! ## Steps -/

section
variable {s t : State}

theorem step_exec {bytes : Bytes} {i : Instr} (hr : pendingReset s = none) (hf : fetch s = some bytes)
    (hd : decode bytes = .ok i) : step s = exec i s := by
  simp only [step, hr, hf, hd]

theorem step_advance (hr : pendingReset s = none) (hf : fetch s = none) : step s = advance s := by
  simp only [step, hr, hf]

/-- Everything a step can do: reset, run the instruction fetched, refuse an unknown code, or go on without one. -/
theorem step_cases (h : step s = .next t) :
    (∃ rest, t = resetBlock s rest) ∨
    (∃ bytes i, fetch s = some bytes ∧ decode bytes = .ok i ∧ exec i s = .next t) ∨
    t = raise s .unknownOperation ∨
    (fetch s = none ∧ advance s = .next t) := by
  unfold step at h
  split at h
  · cases h; exact .inl ⟨_, rfl⟩
  · split at h
    · rename_i hf
      split at h
      · rename_i hd; exact .inr (.inl ⟨_, _, hf, hd, h⟩)
      · cases h; exact .inr (.inr (.inl rfl))
    · rename_i hf; exact .inr (.inr (.inr ⟨hf, h⟩))

/-- Everything the machine can do before no instruction: one line of the running operation, a start or a reset of the
host, or nothing. -/
theorem advance_cases (h : advance s = .next t) :
    (∃ w, s.phase = .running w ∧ t = conclude s id id (tickWork s.cfg s.random w)) ∨
    (∃ code inp rest, t = accept s code inp rest) ∨ (∃ rest, t = resetBlock s rest) ∨ t = s := by
  unfold advance at h
  split at h
  · rename_i hp
    split at h <;> cases h
    exact .inl ⟨_, hp, rfl⟩
  · split at h <;> cases h
    · exact .inr (.inl ⟨_, _, _, rfl⟩)
    · exact .inr (.inr (.inl ⟨_, rfl⟩))
    · exact .inr (.inr (.inr rfl))
  · cases h; exact .inr (.inr (.inr rfl))

/-- A step before a token of a replay replays it. -/
theorem step_token {r : ReplayRegs} {k : Token} (hr : pendingReset s = none)
    (hp : s.phase = .running (.lzDecompress r)) (hst : r.stage = .token) (hget : r.tok[r.ti]? = some k) :
    step s = .next (conclude s .lzDecompress .bytes (s.random, replayTick k r)) := by
  have hf : fetch s = some (recordBytes k) := by simp [fetch, hp, hst, hget]
  rw [step_exec hr hf (decode_recordBytes k), exec_decodeToken, withReplay_at hp hst]

/-- Only a replay stands before an instruction while it runs. -/
theorem fetch_running {w : Work} (hp : s.phase = .running w) (hw : workCode w ≠ 0x11) : fetch s = none := by
  cases w <;> simp [fetch, hp, workCode] at hw ⊢

/-- A step inside an operation that is no replay is one line of it. -/
theorem step_line {w : Work} (hr : pendingReset s = none) (hp : s.phase = .running w) (hw : workCode w ≠ 0x11)
    (hlim : workOverLimit s.cfg w = false) : step s = .next (conclude s id id (tickWork s.cfg s.random w)) := by
  rw [step_advance hr (fetch_running hp hw), advance, hp]
  simp only [hlim, Bool.false_eq_true, if_false]
end

section
variable {s t u : State} {k : Nat}

theorem RunsTo.step (h : step s = .next t) (hrun : RunsTo t k u) : RunsTo s (k + 1) u :=
  (run_next (M := Sys2Proof.core) h).trans hrun

theorem RunsTo.one (h : Machine.step s = .next t) : RunsTo s 1 t := run_one (M := Sys2Proof.core) h
end

/-! ## Ticks of the running work -/

section
variable {ρ ω ρ' ω' : Type} {t : Tick ρ ω} {wrap : ρ → ρ'} {next : ω → Tick ρ' ω'}

theorem andThen_running {r' : ρ'} (h : t.andThen wrap next = .running r') :
    (∃ r, t = .running r ∧ r' = wrap r) ∨ (∃ o, t = .done o ∧ next o = .running r') := by
  cases t with
  | running r => cases h; exact .inl ⟨r, rfl, rfl⟩
  | done o => exact .inr ⟨o, rfl, h⟩
  | raised e => cases h

theorem andThen_done {o' : ω'} (h : t.andThen wrap next = .done o') : ∃ o, t = .done o ∧ next o = .done o' := by
  cases t with
  | running r => cases h
  | done o => exact ⟨o, rfl, h⟩
  | raised e => cases h
end

end Machine
end Sys2Proof

namespace Sys2Proof.Machine

/-! ## Good registers are kept -/

section
variable {cfg : Config} {x x' : RandomSource}

theorem tickEncrypt_ok {r r' : PipeEncryptRegs} (h : workOk cfg (.pipeEncrypt r))
    (ht : tickEncrypt cfg x r = (x', .running r')) : workOk cfg (.pipeEncrypt r') := by
  have ht2 := congrArg Prod.snd ht
  cases r with
  | compress r key =>
    rcases andThen_running ht2 with ⟨r1, hr1, rfl⟩ | ⟨tokens, -, hn⟩
    · exact compressOk_tick h hr1
    · cases hn; exact toBytesOk_start tokens
  | serialize r key =>
    rcases andThen_running ht2 with ⟨r1, hr1, rfl⟩ | ⟨payload, -, hn⟩
    · exact toBytesOk_tick h hr1
    · cases hn; trivial
  | sealing r =>
    rcases andThen_running ht2 with ⟨r1, hr1, rfl⟩ | ⟨env, -, hn⟩
    · exact sealOk_tick h (Prod.ext rfl hr1)
    · cases hn; exact encodeOk_start env
  | encode r =>
    rcases andThen_running ht2 with ⟨r1, hr1, rfl⟩ | ⟨g, -, hn⟩
    · exact encodeOk_tick hr1
    · cases hn

theorem tickDecrypt_ok {r r' : PipeDecryptRegs} (h : workOk cfg (.pipeDecrypt r))
    (ht : tickDecrypt cfg r = .running r') : workOk cfg (.pipeDecrypt r') := by
  cases r with
  | decode r key =>
    rcases andThen_running ht with ⟨r1, hr1, rfl⟩ | ⟨raw, -, hn⟩
    · exact decodeOk_tick h hr1
    · cases hn; trivial
  | opening r =>
    rcases andThen_running ht with ⟨r1, hr1, rfl⟩ | ⟨payload, -, hn⟩
    · exact openOk_tick h hr1
    · cases hn; exact fromBytesOk_start payload
  | parse r =>
    rcases andThen_running ht with ⟨r1, hr1, rfl⟩ | ⟨tokens, -, hn⟩
    · exact fromBytesOk_tick h hr1
    · cases hn; exact replayOk_start tokens
  | replay r =>
    rcases andThen_running ht with ⟨r1, hr1, rfl⟩ | ⟨b, -, hn⟩
    · exact replayOk_tick h hr1
    · cases hn

/-- A line of a unit that makes no draw. -/
theorem quiet_running {ρ ω : Type} {f : ρ → Tick ρ ω} {r r' : ρ} (h : quiet f x r = (x', .running r')) :
    f r = .running r' := congrArg Prod.snd h

/-- One line keeps the running operation and its registers good (R22 to R28). -/
theorem tickWork_ok {w w' : Work} (h : workOk cfg w) (ht : tickWork cfg x w = (x', .running w')) :
    workCode w' = workCode w ∧ workOk cfg w' := by
  cases w <;> obtain ⟨r', hr', rfl⟩ := asWork_running ht <;> refine ⟨rfl, ?_⟩
  case lzCompress => exact compressOk_tick h (quiet_running hr')
  case lzDecompress => exact replayOk_tick h (quiet_running hr')
  case tsToBytes => exact toBytesOk_tick h (quiet_running hr')
  case tsFromBytes => exact fromBytesOk_tick h (quiet_running hr')
  case q5Encode => exact encodeOk_tick (quiet_running hr')
  case q5Decode => exact decodeOk_tick h (quiet_running hr')
  case envSeal => exact sealOk_tick h hr'
  case envOpen => exact openOk_tick h (quiet_running hr')
  case pipeEncrypt => exact tickEncrypt_ok h hr'
  case pipeDecrypt => exact tickDecrypt_ok h (quiet_running hr')

/-- What a decompression delivers in its last line holds no zero byte (R116). -/
theorem tickWork_nulFree {w : Work} {b : Bytes} (h : workOk cfg w) (hw : decompresses (workCode w) = true)
    (ht : tickWork cfg x w = (x', .done (.bytes b))) : 0 ∉ b := by
  cases w
  case lzDecompress r =>
    obtain ⟨b', hb', heq⟩ := asWork_done ht
    obtain ⟨-, hnul, -⟩ := h
    cases heq
    cases tickReplay_done (congrArg Prod.snd hb')
    exact hnul
  case pipeDecrypt r =>
    obtain ⟨b', hb', heq⟩ := asWork_done ht
    cases heq
    have hdone : tickDecrypt cfg r = .done b := congrArg Prod.snd hb'
    cases r with
    | replay r =>
      obtain ⟨b', hb', hn⟩ := andThen_done hdone
      obtain ⟨-, hnul, -⟩ := h
      cases hn
      cases tickReplay_done hb'
      exact hnul
    | decode r key => obtain ⟨_, _, hn⟩ := andThen_done hdone; cases hn
    | opening r => obtain ⟨_, _, hn⟩ := andThen_done hdone; cases hn
    | parse r => obtain ⟨_, _, hn⟩ := andThen_done hdone; cases hn
  all_goals simp [decompresses, workCode] at hw
end

/-! ## Good states are kept -/

theorem statusCode_le (e : Status) : (statusCode e).toNat ≤ 0x0A := by cases e <;> decide

theorem statusCode_eq_zero {e : Status} : statusCode e = 0 ↔ e = .ok := by cases e <;> decide

section
variable {s : State} (h : Inv s)
include h

theorem Inv.accept (code : Byte) (inp : Inputs) (rest : List HostCommand) : Inv (accept s code inp rest) where
  statusLegal := h.statusLegal
  noPartialResult := h.noPartialResult
  opHeld _ := Option.some_ne_none code
  workGood _ hp := by cases hp
  outputNulFree _ _ hp := by cases hp

/-- An operation concluded leaves a good state: still running with good registers, or ended, by a decompression
without a zero byte. -/
theorem Inv.conclude {p : RandomSource × Tick Work Output}
    (hrunning : ∀ w, p.2 = .running w → s.op = some (workCode w) ∧ workOk s.cfg w)
    (hdone : ∀ code b, s.op = some code → decompresses code = true → p.2 = .done (.bytes b) → 0 ∉ b) :
    Inv (conclude s id id p) := by
  obtain ⟨x, w | o | e⟩ := p
  · obtain ⟨hop, hw⟩ := hrunning w rfl
    exact {
      statusLegal := h.statusLegal
      noPartialResult := h.noPartialResult
      opHeld := fun _ => by simp [hop]
      workGood := fun w' hp => by cases hp; exact ⟨hop, hw⟩
      outputNulFree := fun _ _ hp => by cases hp }
  · exact {
      statusLegal := Nat.zero_le _
      noPartialResult := fun hs => absurd rfl hs
      opHeld := fun hidle => absurd rfl hidle
      workGood := fun _ hp => by cases hp
      outputNulFree := fun code b _ hop hcode ho => hdone code b hop hcode (by cases ho; rfl) }
  · exact {
      statusLegal := statusCode_le e
      noPartialResult := fun _ => rfl
      opHeld := fun hidle => absurd rfl hidle
      workGood := fun _ hp => by cases hp
      outputNulFree := fun _ _ _ _ _ ho => by cases ho }
end

theorem inv_raise (s : State) (e : Status) : Inv (raise s e) where
  statusLegal := statusCode_le e
  noPartialResult _ := rfl
  opHeld hidle := absurd rfl hidle
  workGood _ hp := by cases hp
  outputNulFree _ _ _ _ _ ho := by cases ho

theorem inv_resetBlock (s : State) (rest : List HostCommand) : Inv (resetBlock s rest) where
  statusLegal := Nat.zero_le _
  noPartialResult _ := rfl
  opHeld hidle := absurd rfl hidle
  workGood _ hp := by cases hp
  outputNulFree _ _ _ hop := by cases hop

/-- The operations whose output is a decompression are the two that decompress (R85). -/
theorem decompressing_instr {code : Byte} {i : Instr} (hd : decode [code] = .ok i) (hc : decompresses code = true) :
    i = .lzDecompress ∨ i = .pipeDecrypt := by
  rw [decompresses, Bool.or_eq_true, beq_iff_eq, beq_iff_eq] at hc
  rcases hc with rfl | rfl <;> cases hd
  · exact .inl rfl
  · exact .inr rfl

theorem map_eq_error {ω ω' : Type} {out : ω → ω'} {p : Except Status ω} {e : Status} (h : p.map out = .error e) :
    p = .error e := by
  cases p <;> cases h
  rfl

theorem map_bytes_eq_ok {p : Except Status Bytes} {b : Bytes} (h : p.map Output.bytes = .ok (.bytes b)) :
    p = .ok b := by
  cases p <;> cases h
  rfl

/-- No zero byte in what a decompression computes (R116, R206). -/
theorem operationFn_nulFree {i : Instr} {cfg : Config} {x y : RandomSource} {inp : Inputs} {b : Bytes}
    (hi : i = .lzDecompress ∨ i = .pipeDecrypt) (h : operationFn i cfg x inp = some (y, .ok (.bytes b))) : 0 ∉ b := by
  rcases hi with rfl | rfl
  · obtain ⟨-, hb⟩ := Prod.mk.inj (Option.some.inj h)
    exact decompressFn_nulFree (map_bytes_eq_ok hb)
  · obtain ⟨-, hb⟩ := Prod.mk.inj (Option.some.inj h)
    exact decryptFn_nulFree (map_bytes_eq_ok hb)

/-- A good state stays good when the operation the host has started runs. -/
theorem Inv.exec_operation {s t : State} {code : Byte} {i : Instr} {inp : Inputs} (h : Inv s)
    (hp : s.phase = .started inp) (hop : s.op = some code) (hd : decode [code] = .ok i) (he : exec i s = .next t) :
    Inv t := by
  obtain ⟨⟨y, e⟩, hfn, rfl⟩ := Machine.exec_operation hp he
  rw [← conclude_endTick s id id]
  refine h.conclude (fun w hw => absurd hw (endTick_ne_running e w)) fun code' b hop' hcode hdone => ?_
  cases hop.symm.trans hop'
  cases e with
  | error e => cases hdone
  | ok o => cases hdone; exact operationFn_nulFree (decompressing_instr hd hcode) hfn

/-- A good state stays good when a token is replayed. -/
theorem Inv.exec_token {s : State} {r : ReplayRegs} {k : Token} (h : Inv s)
    (hp : s.phase = .running (.lzDecompress r)) (hget : r.tok[r.ti]? = some k) :
    Inv (Machine.conclude s .lzDecompress .bytes (s.random, replayTick k r)) := by
  obtain ⟨hop, -, hnul, -⟩ := h.workGood _ hp
  rw [← conclude_asWork]
  cases hone : replayOne r.out k with
  | error e =>
    rw [replayTick_error hone]
    exact inv_raise s e
  | ok out =>
    rw [replayTick_ok hone]
    refine h.conclude (fun w hw => ?_) fun _ _ _ _ hdone => by cases hdone
    cases hw
    exact ⟨hop, (List.getElem?_eq_some_iff.mp hget).1, replayOne_nulFree hnul hone, trivial⟩

/-- Settles O29: each of the things a step can do keeps a good state; inside an operation that is a line or a token,
which keeps the registers good. -/
theorem everyStepKeepsTheInvariant : Obligations.EveryStepKeepsTheInvariant := by
  intro s t h hstep
  rcases step_cases hstep with ⟨rest, rfl⟩ | ⟨bytes, i, hf, hd, he⟩ | rfl | ⟨-, hadv⟩
  · exact inv_resetBlock s rest
  · rcases fetch_cases hf with ⟨inp, code, hp, hop, rfl⟩ | ⟨r, k, hp, hst, hget, rfl⟩
    · exact h.exec_operation hp hop hd he
    · cases (decode_recordBytes k).symm.trans hd
      rw [exec_decodeToken, withReplay_at hp hst] at he
      cases he
      exact h.exec_token hp hget
  · exact inv_raise s .unknownOperation
  · rcases advance_cases hadv with ⟨w, hp, rfl⟩ | ⟨code, inp, rest, rfl⟩ | ⟨rest, rfl⟩ | rfl
    · obtain ⟨hop, hw⟩ := h.workGood w hp
      refine h.conclude (fun w' hw' => ?_) fun code b hop' hcode hdone => ?_
      · obtain ⟨hcode, hw''⟩ := tickWork_ok hw (Prod.ext rfl hw')
        exact ⟨hcode ▸ hop, hw''⟩
      · cases hop.symm.trans hop'
        exact tickWork_nulFree hw hcode (Prod.ext rfl hdone)
    · exact h.accept code inp rest
    · exact inv_resetBlock s rest
    · exact h

/-! ## Statuses -/

theorem ok_mem_compressStatuses (ovf : LenOvf) : Status.ok ∈ compressStatuses ovf := by cases ovf <;> decide

/-- Every operation can end with `OK` (R262). -/
theorem ok_mem_allowedStatuses {i : Instr} (ovf : LenOvf) (hi : isOperation i = true) :
    Status.ok ∈ allowedStatuses ovf i := by
  cases i
  case tNull | tLit | tCopy | tCopyLit => cases hi
  case lzCompress => exact ok_mem_compressStatuses ovf
  case pipeEncrypt => exact List.mem_cons_of_mem _ (ok_mem_compressStatuses ovf)
  all_goals exact List.mem_cons_self

/-- An operation that fails does so with an error listed for it (R262). -/
theorem operationFn_error {i : Instr} {cfg : Config} {x y : RandomSource} {inp : Inputs} {e : Status}
    (h : operationFn i cfg x inp = some (y, .error e)) : e ∈ allowedStatuses cfg.lenOvf i ∧ e ≠ .ok := by
  have hsnd := congrArg (Option.map Prod.snd) h
  cases i <;> simp only [operationFn, Option.map_some, Option.map_none, Option.some.injEq, reduceCtorEq] at hsnd
  case lzCompress =>
    obtain ⟨hovf, rfl⟩ := compressFn_error (map_eq_error hsnd)
    simp [allowedStatuses, compressStatuses, hovf]
  case lzDecompress =>
    obtain rfl := decompressFn_error (map_eq_error hsnd)
    simp [allowedStatuses]
  case q5Decode =>
    obtain rfl := decodeFn_error (map_eq_error hsnd)
    simp [allowedStatuses]
  case envSeal =>
    obtain rfl := sealFn_error (map_eq_error hsnd)
    simp [allowedStatuses]
  case envOpen => rcases openFn_error (map_eq_error hsnd) with rfl | rfl | rfl <;> simp [allowedStatuses]
  case pipeEncrypt =>
    rcases encryptFn_error (map_eq_error hsnd) with rfl | ⟨hovf, rfl⟩
    · simp [allowedStatuses]
    · simp [allowedStatuses, compressStatuses, hovf]
  case pipeDecrypt =>
    rcases decryptFn_error (map_eq_error hsnd) with rfl | (rfl | rfl | rfl) | rfl <;> simp [allowedStatuses]

/-- Settles O35: an operation ends as its function does, and the function fails only with errors of the list. -/
theorem operationsEndOnlyWithTheirStatuses : Obligations.OperationsEndOnlyWithTheirStatuses := by
  intro i s t hi he
  obtain ⟨inp, hp⟩ := exec_operation_started hi he
  obtain ⟨⟨y, e | o⟩, hfn, rfl⟩ := exec_operation hp he
  · obtain ⟨hmem, hne⟩ := operationFn_error hfn
    refine ⟨⟨e, hmem, rfl⟩, fun h0 => absurd (statusCode_eq_zero.mp h0) hne, fun hout => absurd rfl hout⟩
  · exact ⟨⟨.ok, ok_mem_allowedStatuses _ hi, rfl⟩, fun _ => Option.some_ne_none o, fun _ => rfl⟩

end Sys2Proof.Machine

namespace Sys2Proof.Machine

/-! ## Line by line -/

/-- What keeps a running operation going line by line to its end: no payload over the limit of R247 is met.
LZ.DECOMPRESS is not among them: its steps are over its tokens. -/
def RunsByLines (cfg : Config) : Work → Prop
  | .lzDecompress _ => False
  | .envSeal r => sealOverLimit r.payload = false
  | .envOpen r => openOverLimit cfg r.raw = false
  | .pipeEncrypt (.compress r _) =>
    ∀ k x y ts, Ends (quiet (tickCompress cfg)) k x r (y, .ok ts) → 5 * ts.length ≤ Config.aeadLimit
  | .pipeEncrypt (.serialize r _) => toBytesOk r ∧ 5 * r.tok.length ≤ Config.aeadLimit
  | .pipeEncrypt (.sealing r) => sealOverLimit r.payload = false
  | .pipeDecrypt (.decode r _) =>
    ∀ k x y raw, Ends (quiet (tickDecode cfg)) k x r (y, .ok raw) → openOverLimit cfg raw = false
  | .pipeDecrypt (.opening r) => openOverLimit cfg r.raw = false
  | _ => True

section
variable {cfg : Config} {x x' : RandomSource}

theorem RunsByLines.code {w : Work} (h : RunsByLines cfg w) : workCode w ≠ 0x11 := by
  cases w with
  | lzDecompress r => exact h.elim
  | _ => simp [workCode]

theorem RunsByLines.limit {w : Work} (h : RunsByLines cfg w) : workOverLimit cfg w = false := by
  cases w with
  | envSeal r => exact h
  | envOpen r => exact h
  | pipeEncrypt r =>
    cases r with
    | sealing r => exact h
    | _ => rfl
  | pipeDecrypt r =>
    cases r with
    | opening r => exact h
    | _ => rfl
  | _ => rfl

theorem runsByLines_encrypt {r r' : PipeEncryptRegs} (h : RunsByLines cfg (.pipeEncrypt r))
    (ht : tickEncrypt cfg x r = (x', .running r')) : RunsByLines cfg (.pipeEncrypt r') := by
  have ht2 := congrArg Prod.snd ht
  cases r with
  | compress r key =>
    rcases andThen_running ht2 with ⟨r1, hr1, rfl⟩ | ⟨ts, hts, hn⟩
    · exact fun k y z ts hends => h (k + 1) y z ts (Ends.line (congrArg _ hr1) hends)
    · cases hn
      exact ⟨toBytesOk_start ts, h 1 x x ts (Ends.of_done (congrArg _ hts))⟩
  | serialize r key =>
    obtain ⟨hok, hlim⟩ := h
    rcases andThen_running ht2 with ⟨r1, hr1, rfl⟩ | ⟨payload, hdone, hn⟩
    · exact ⟨toBytesOk_tick hok hr1, (tickToBytes_tok hr1) ▸ hlim⟩
    · cases hn
      cases tickToBytes_done hok hdone
      simpa [RunsByLines, sealOverLimit, enterSeal, toBytesFn_length] using hlim
  | sealing r =>
    rcases andThen_running ht2 with ⟨r1, hr1, rfl⟩ | ⟨env, -, hn⟩
    · exact (congrArg sealOverLimit (tickSeal_payload (Prod.ext rfl hr1))).trans h
    · cases hn; trivial
  | encode r =>
    rcases andThen_running ht2 with ⟨r1, -, rfl⟩ | ⟨g, -, hn⟩
    · trivial
    · cases hn

theorem runsByLines_decrypt {r r' : PipeDecryptRegs} (h : RunsByLines cfg (.pipeDecrypt r))
    (ht : tickDecrypt cfg r = .running r') : RunsByLines cfg (.pipeDecrypt r') := by
  cases r with
  | decode r key =>
    rcases andThen_running ht with ⟨r1, hr1, rfl⟩ | ⟨raw, hraw, hn⟩
    · exact fun k y z raw hends => h (k + 1) y z raw (Ends.line (congrArg _ hr1) hends)
    · cases hn
      exact h 1 ⟨[], 0⟩ ⟨[], 0⟩ raw (Ends.of_done (congrArg _ hraw))
  | opening r =>
    rcases andThen_running ht with ⟨r1, hr1, rfl⟩ | ⟨payload, -, hn⟩
    · exact (congrArg (openOverLimit cfg) (tickOpen_raw hr1)).trans h
    · cases hn; trivial
  | parse r =>
    rcases andThen_running ht with ⟨r1, -, rfl⟩ | ⟨tokens, -, hn⟩
    · trivial
    · cases hn; trivial
  | replay r =>
    rcases andThen_running ht with ⟨r1, -, rfl⟩ | ⟨b, -, hn⟩
    · trivial
    · cases hn

/-- A line keeps the operation going line by line. -/
theorem runsByLines_tick {w w' : Work} (h : RunsByLines cfg w) (ht : tickWork cfg x w = (x', .running w')) :
    RunsByLines cfg w' := by
  cases w with
  | lzDecompress r => exact h.elim
  | envSeal r =>
    obtain ⟨r', hr', rfl⟩ := asWork_running ht
    exact (congrArg sealOverLimit (tickSeal_payload hr')).trans h
  | envOpen r =>
    obtain ⟨r', hr', rfl⟩ := asWork_running ht
    exact (congrArg (openOverLimit cfg) (tickOpen_raw (quiet_running hr'))).trans h
  | pipeEncrypt r =>
    obtain ⟨r', hr', rfl⟩ := asWork_running ht
    exact runsByLines_encrypt h hr'
  | pipeDecrypt r =>
    obtain ⟨r', hr', rfl⟩ := asWork_running ht
    exact runsByLines_decrypt h (quiet_running hr')
  | _ => obtain ⟨r', -, rfl⟩ := asWork_running ht; trivial
end

/-- Lines run to the end of the operation, and leave the state after it. -/
theorem runsTo_of_ends {s : State} (hr : pendingReset s = none) {k : Nat} {x : RandomSource} {w : Work}
    {p : RandomSource × Except Status Output} (hw : RunsByLines s.cfg w) (h : Ends (tickWork s.cfg) k x w p) :
    ∃ m, RunsTo { s with random := x, phase := .running w } m (ended s id p.1 p.2) := by
  induction k generalizing x w with
  | zero => exact absurd (congrArg Prod.snd h).symm (endTick_ne_running p.2 w)
  | succ k ih =>
    have hstep := step_line (s := { s with random := x, phase := .running w }) hr rfl hw.code hw.limit
    rcases htick : tickWork s.cfg x w with ⟨x', w' | o | e⟩
    · obtain ⟨m, hm⟩ := ih (runsByLines_tick hw htick) ((runUnit_succ_running htick).symm.trans h)
      exact ⟨m + 1, hm.step (hstep.trans (by rw [htick]; rfl))⟩
    · cases Ends.unique (Ends.of_done htick) h
      exact ⟨1, .one (hstep.trans (by rw [htick]; rfl))⟩
    · cases Ends.unique (Ends.of_raised htick) h
      exact ⟨1, .one (hstep.trans (by rw [htick]; rfl))⟩

/-- The running operation of `startWork` ends as its function does. -/
theorem work_ends {i : Instr} {cfg : Config} {x : RandomSource} {inp : Inputs} {w : Work}
    {p : RandomSource × Except Status Output} (hw : startWork i inp = some w)
    (hp : operationFn i cfg x inp = some p) : ∃ k, Ends (tickWork cfg) k x w p := by
  cases i <;> cases hw <;> cases hp
  case lzCompress => exact ⟨_, Embeds.ends_map (fun _ _ => rfl) (compress_ends cfg x _)⟩
  case lzDecompress => exact ⟨_, Embeds.ends_map (fun _ _ => rfl) (replay_ends x _)⟩
  case tsToBytes => exact ⟨_, Embeds.ends_map (fun _ _ => rfl) (toBytes_ends_start x _)⟩
  case tsFromBytes => exact ⟨_, Embeds.ends_map (fun _ _ => rfl) (fromBytes_ends_start x _)⟩
  case q5Encode => exact ⟨_, Embeds.ends_map (fun _ _ => rfl) (encode_ends cfg x _ le_rfl)⟩
  case q5Decode => exact ⟨_, Embeds.ends_map (fun _ _ => rfl) (decode_ends cfg x _)⟩
  case envSeal => exact ⟨_, Embeds.ends_map (fun _ _ => rfl) (seal_ends cfg x _ _)⟩
  case envOpen => exact ⟨_, Embeds.ends_map (fun _ _ => rfl) (open_ends cfg x _ _)⟩
  case pipeEncrypt => exact ⟨_, Embeds.ends_map (fun _ _ => rfl) (encrypt_ends cfg x _ _)⟩
  case pipeDecrypt => exact ⟨_, Embeds.ends_map (fun _ _ => rfl) (decrypt_ends cfg x _ _)⟩

/-- Where `exec` does not refuse, the operation runs line by line from its start. -/
theorem runsByLines_start {i : Instr} {s t : State} {inp : Inputs} {w : Work} (hp : s.phase = .started inp)
    (hw : startWork i inp = some w) (he : exec i s = .next t) (hi : i ≠ .lzDecompress) : RunsByLines s.cfg w := by
  cases i <;> cases hw
  case lzDecompress => exact absurd rfl hi
  case envSeal =>
    rw [exec_envSeal hp] at he
    split at he
    · cases he
    · rename_i hlim; exact Bool.eq_false_iff.mpr hlim
  case envOpen =>
    rw [exec_envOpen hp] at he
    split at he
    · cases he
    · rename_i hlim; exact Bool.eq_false_iff.mpr hlim
  case pipeEncrypt =>
    rw [exec_pipeEncrypt hp] at he
    split at he
    · cases he
    · rename_i hlim
      intro k x y ts hends
      have hts := congrArg Prod.snd (Ends.unique (compress_ends s.cfg x inp.bytes) hends)
      by_contra hgt
      exact hlim ((encryptOverLimit_iff _ _ _).mpr ⟨ts, hts, Nat.lt_of_not_le hgt⟩)
  case pipeDecrypt =>
    rw [exec_pipeDecrypt hp] at he
    split at he
    · cases he
    · rename_i hlim
      intro k x y raw hends
      have hraw := congrArg Prod.snd (Ends.unique (decode_ends s.cfg x inp.glyphs) hends)
      by_contra hover
      exact hlim ((decryptOverLimit_iff _ _ _).mpr ⟨raw, hraw, Bool.not_eq_false _ ▸ hover⟩)
  all_goals trivial

/-- A replay runs token by token to its end, within one step a token and one more (R112). -/
theorem replay_runsTo {s : State} (hr : pendingReset s = none) {rest : Tokens} {r : ReplayRegs} (hst : r.stage = .token)
    (hrest : r.tok.drop r.ti = rest) :
    ∃ k ≤ rest.length + 1, RunsTo { s with phase := .running (.lzDecompress r) } k
      (ended s .bytes s.random (rest.foldlM replayOne r.out)) := by
  induction rest generalizing r with
  | nil =>
    have hget : r.tok[r.ti]? = none := List.getElem?_eq_none (List.drop_eq_nil_iff.mp hrest)
    have hf : fetch { s with phase := .running (.lzDecompress r) } = none := by simp [fetch, hst, hget]
    have hdone : tickReplay r = .done r.out := by simp [tickReplay, hget]
    refine ⟨1, le_rfl, .one ((step_advance (s := { s with phase := .running (.lzDecompress r) }) hr hf).trans ?_)⟩
    simp [advance, workOverLimit, tickWork, conclude_asWork, quiet, hdone, ended]
    rfl
  | cons t rest ih =>
    have hget : r.tok[r.ti]? = some t := by rw [← List.head?_drop, hrest, List.head?_cons]
    have hstep := step_token (s := { s with phase := .running (.lzDecompress r) }) hr rfl hst hget
    rw [List.foldlM_cons]
    cases hone : replayOne r.out t with
    | error e =>
      rw [replayTick_error hone] at hstep
      exact ⟨1, by omega, .one hstep⟩
    | ok out =>
      rw [replayTick_ok hone] at hstep
      obtain ⟨k, hk, hrun⟩ := ih (r := nextToken r out) rfl
        (by show r.tok.drop (r.ti + 1) = rest; rw [← List.tail_drop, hrest, List.tail_cons])
      exact ⟨k + 1, by rw [List.length_cons]; omega, RunsTo.step hstep hrun⟩

/-- Settles O37: LZ.DECOMPRESS by induction over its tokens, every other operation by induction over its lines. -/
theorem lineByLineReachesTheSameEnd : Obligations.LineByLineReachesTheSameEnd := by
  intro i s t inp w hp hr hw he
  by_cases hi : i = .lzDecompress
  · subst hi
    cases hw
    rw [exec_lzDecompress hp] at he
    cases he
    obtain ⟨k, -, hrun⟩ := replay_runsTo hr (r := startReplay inp.tokens) rfl rfl
    exact ⟨k, hrun⟩
  · obtain ⟨p, hfn, rfl⟩ := exec_operation hp he
    obtain ⟨k, hends⟩ := work_ends hw hfn
    exact runsTo_of_ends hr (runsByLines_start hp hw he hi) hends

/-! ## The envelope, the start and reset -/

/-- Settles O52: with both draws ENV.SEAL gives `seal4`, which is cut at 4, 20 and 32. -/
theorem envelopeHasItsLayout : Obligations.EnvelopeHasItsLayout := by
  intro s inp x y salt nonce hp hlim hsalt hnonce
  have hover : ¬ sealOverLimit inp.bytes = true := by simpa [sealOverLimit] using hlim
  have hslen := draw_length hsalt
  have hnlen := draw_length hnonce
  refine ⟨seal4 s.cfg inp.bytes inp.key salt nonce, ?_, seal4_length _ _ _ hslen hnlen, ?_, ?_, ?_, ?_⟩
  · rw [exec_envSeal hp, if_neg hover, sealFn_drawn _ _ _ hsalt hnonce]
    rfl
  · rfl
  · simp [seal4, magicBytes, slice, hslen]
  · simp [seal4, magicBytes, slice, hslen, hnlen]
  · simpa [seal4, magicBytes] using s.cfg.magic.first_ne_zero

/-- Settles O24: the first step takes the start, the second fetches OP and runs it. -/
theorem hostStartRunsTheWholeOperation : Obligations.HostStartRunsTheWholeOperation := by
  intro s code inp rest i hidle hhost hrest hd
  have hstart : step s = .next (accept s code inp rest) := by
    rw [step_advance (by simp [pendingReset, hhost]) (by simp [fetch, hidle]), advance, hidle]
    simp only [hhost]
  have hreset : pendingReset (accept s code inp rest) = none := by
    rcases rest with _ | ⟨_ | _, rest⟩
    · rfl
    · rfl
    · exact absurd rfl hrest
  have hrun : step (accept s code inp rest) = exec i (accept s code inp rest) := step_exec hreset rfl hd
  exact (run_next (M := Sys2Proof.core) hstart).trans (run_one (M := Sys2Proof.core) hrun)

/-- Settles O31, by the definition of the reset state. -/
theorem resetLeavesTheBlockIdle : Obligations.ResetLeavesTheBlockIdle := ⟨rfl, rfl, rfl, rfl, rfl, rfl⟩

end Sys2Proof.Machine

namespace Sys2Proof.Machine

/-! ## The state after an operation -/

section
variable {ω : Type} (s : State) (out : ω → Output) (x : RandomSource) (e : Except Status ω)

@[simp] theorem ended_cfg : (ended s out x e).cfg = s.cfg := by cases e <;> rfl
@[simp] theorem ended_op : (ended s out x e).op = s.op := by cases e <;> rfl
@[simp] theorem ended_phase : (ended s out x e).phase = .idle := by cases e <;> rfl
@[simp] theorem ended_random : (ended s out x e).random = x := by cases e <;> rfl
@[simp] theorem ended_host : (ended s out x e).host = s.host := by cases e <;> rfl

/-- STATUS and output after an operation are those of its result alone (R66, R303). -/
theorem ended_result (s s' : State) :
    (ended s out x e).status = (ended s' out x e).status ∧ (ended s out x e).output = (ended s' out x e).output := by
  cases e <;> exact ⟨rfl, rfl⟩
end

/-- Whether operation `i` is refused on the inputs for a payload over the limit of R247. -/
def operationOverLimit (i : Instr) (cfg : Config) (x : RandomSource) (inp : Inputs) : Bool :=
  match i with
  | .envSeal => sealOverLimit inp.bytes
  | .envOpen => openOverLimit cfg inp.bytes
  | .pipeEncrypt => encryptOverLimit cfg x inp.bytes
  | .pipeDecrypt => decryptOverLimit cfg x inp.glyphs
  | _ => false

/-- A started operation is refused over the limit and otherwise gives the state that its function gives (R16, R247). -/
theorem exec_of_operationFn {i : Instr} {s : State} {inp : Inputs} {p : RandomSource × Except Status Output}
    (hp : s.phase = .started inp) (hfn : operationFn i s.cfg s.random inp = some p) :
    exec i s = if operationOverLimit i s.cfg s.random inp then .refused .aeadLimitExceeded
      else .next (ended s id p.1 p.2) := by
  cases i <;> cases hfn
  case lzCompress => rw [exec_lzCompress hp, ended_map]; rfl
  case lzDecompress => rw [exec_lzDecompress hp, ended_map]; rfl
  case tsToBytes => exact exec_tsToBytes hp
  case tsFromBytes => exact exec_tsFromBytes hp
  case q5Encode => exact exec_q5Encode hp
  case q5Decode => rw [exec_q5Decode hp, ended_map]; rfl
  case envSeal => rw [exec_envSeal hp, ended_map]; rfl
  case envOpen => rw [exec_envOpen hp, ended_map]; rfl
  case pipeEncrypt => rw [exec_pipeEncrypt hp, ended_map]; rfl
  case pipeDecrypt => rw [exec_pipeDecrypt hp, ended_map]; rfl

/-- Only ENV.SEAL and PIPE.ENCRYPT draw (R21, R33). -/
theorem operationFn_random {i : Instr} {cfg : Config} {x : RandomSource} {inp : Inputs}
    {p : RandomSource × Except Status Output} (hi : isDrawing i = false) (h : operationFn i cfg x inp = some p) :
    p.1 = x := by
  cases i
  case envSeal | pipeEncrypt => cases hi
  case tNull | tLit | tCopy | tCopyLit => cases h
  all_goals cases h; rfl

/-! ## Frames -/

theorem isOperation_eq_true {i : Instr} : isOperation i = true ↔ i.token? = none := Option.isNone_iff_eq_none

theorem isOperation_eq_false {i : Instr} : isOperation i = false ↔ ∃ k, i.token? = some k := by
  rw [isOperation, Option.isNone_eq_false_iff, Option.isSome_iff_exists]

/-- A token form, well formed or not, replays the token it spells (R77). -/
theorem exec_tokenForm {i : Instr} {k : Token} (hk : i.token? = some k) (s : State) :
    exec i s = withReplay s (replayTick k) := by
  cases i <;> cases hk
  case tNull | tLit => rw [show replayTick _ = _ from funext fun r => replayTick_literal rfl]; rfl
  case tCopy | tCopyLit => rw [show replayTick _ = _ from funext fun r => replayTick_copy]; rfl

/-- No instruction writes a constant, OP or the host's list (R30, R31). -/
theorem exec_frame {i : Instr} {s t : State} (he : exec i s = .next t) :
    t.cfg = s.cfg ∧ t.op = s.op ∧ t.host = s.host := by
  cases hk : i.token? with
  | none =>
    obtain ⟨inp, hp⟩ := exec_operation_started (isOperation_eq_true.mpr hk) he
    obtain ⟨p, -, rfl⟩ := exec_operation hp he
    exact ⟨ended_cfg .., ended_op .., ended_host ..⟩
  | some k =>
    rw [exec_tokenForm hk] at he
    obtain ⟨r, -, -, rfl⟩ := withReplay_next he
    exact ⟨conclude_cfg .., conclude_op .., conclude_host ..⟩

/-- OUT only grows (R56, R69). -/
theorem replayOne_prefix {out out' : Bytes} {k : Token} (h : replayOne out k = .ok out') : out <+: out' := by
  unfold replayOne at h
  split at h <;> cases h
  rw [List.append_assoc]
  exact List.prefix_append _ _

/-- Settles O32: each of the things a step can do leaves the constants. -/
theorem constantsAreNeverWritten : Obligations.ConstantsAreNeverWritten := by
  intro s t hstep
  rcases step_cases hstep with ⟨rest, rfl⟩ | ⟨bytes, i, -, -, he⟩ | rfl | ⟨-, hadv⟩
  · exact resetBlock_cfg s rest
  · obtain ⟨hcfg, -, -⟩ := exec_frame he
    exact hcfg
  · exact raise_cfg s .unknownOperation
  · rcases advance_cases hadv with ⟨w, -, rfl⟩ | ⟨code, inp, rest, rfl⟩ | ⟨rest, rfl⟩ | rfl
    · exact conclude_cfg ..
    · exact accept_cfg ..
    · exact resetBlock_cfg s rest
    · rfl

/-- Settles O33: an operation ends in the state that its function gives, which is idle. -/
theorem operationsEndIdleAndKeepTheRest : Obligations.OperationsEndIdleAndKeepTheRest := by
  intro i s t hi he
  obtain ⟨inp, hp⟩ := exec_operation_started hi he
  obtain ⟨p, hfn, rfl⟩ := exec_operation hp he
  refine ⟨ended_phase .., ended_cfg .., ended_op .., ended_host .., fun hd => ?_⟩
  rw [ended_random, operationFn_random hd hfn]

/-- Settles O34: a token form replays one token, which is out of range or appends to OUT. -/
theorem tokensOnlyAppend : Obligations.TokensOnlyAppend := by
  intro i s t hi he
  obtain ⟨hcfg, hop, hhost⟩ := exec_frame he
  obtain ⟨k, hk⟩ := isOperation_eq_false.mp hi
  rw [exec_tokenForm hk] at he
  obtain ⟨r, hp, -, rfl⟩ := withReplay_next he
  refine ⟨hcfg, hop, hhost, conclude_random .., ?_⟩
  cases hone : replayOne r.out k with
  | error e =>
    obtain rfl := replayOne_error hone
    rw [replayTick_error hone]
    exact .inl ⟨rfl, rfl, rfl⟩
  | ok out =>
    rw [replayTick_ok hone]
    exact .inr ⟨rfl, rfl, r, nextToken r out, hp, rfl, rfl, rfl, rfl, replayOne_prefix hone⟩

/-- Settles O36: limit, function and so the result see only the inputs, the constants and the random source. -/
theorem resultDependsOnInputsOnly : Obligations.ResultDependsOnInputsOnly := by
  intro i s s' t hi hcfg hphase hrandom he
  obtain ⟨inp, hp⟩ := exec_operation_started hi he
  obtain ⟨p, hfn, rfl⟩ := exec_operation hp he
  have hexec := exec_of_operationFn hp hfn
  have hexec' := exec_of_operationFn (hphase ▸ hp) (hcfg ▸ hrandom ▸ hfn)
  have hlim : ¬ operationOverLimit i s.cfg s.random inp = true := fun hover => by
    rw [hexec, if_pos hover] at he
    cases he
  rw [← hcfg, ← hrandom, if_neg hlim] at hexec'
  obtain ⟨hstatus, houtput⟩ := ended_result id p.1 p.2 s s'
  exact ⟨_, hexec', hstatus, houtput, by rw [ended_random, ended_random]⟩

/-! ## The step -/

section
variable {s : State}

theorem fetch_idle (hp : s.phase = .idle) : fetch s = none := by
  simp only [fetch, hp]

theorem fetch_started {inp : Inputs} (hp : s.phase = .started inp) : fetch s = s.op.map fun code => [code] := by
  simp only [fetch, hp]

theorem fetch_replay {r : ReplayRegs} (hp : s.phase = .running (.lzDecompress r)) (hst : r.stage = .token) :
    fetch s = (r.tok[r.ti]?).map recordBytes := by
  simp only [fetch, hp, hst]

theorem advance_running {w : Work} (hp : s.phase = .running w) (hlim : workOverLimit s.cfg w = false) :
    advance s = .next (conclude s id id (tickWork s.cfg s.random w)) := by
  simp only [advance, hp, hlim, Bool.false_eq_true, if_false]

theorem advance_idle_start {code : Byte} {inp : Inputs} {rest : List HostCommand} (hp : s.phase = .idle)
    (hh : s.host = .start code inp :: rest) : advance s = .next (accept s code inp rest) := by
  simp only [advance, hp, hh]

theorem advance_idle_nil (hp : s.phase = .idle) (hh : s.host = []) : advance s = .next s := by
  simp only [advance, hp, hh]

theorem pendingReset_start {code : Byte} {inp : Inputs} {rest : List HostCommand}
    (hh : s.host = .start code inp :: rest) : pendingReset s = none := by
  simp only [pendingReset, hh]

theorem pendingReset_nil (hh : s.host = []) : pendingReset s = none := by
  simp only [pendingReset, hh]
end

/-- After the last token a line of the replay ends it with OUT (R112). -/
theorem tickReplay_last {r : ReplayRegs} (h : r.tok[r.ti]? = none) : tickReplay r = .done r.out := by
  simp only [tickReplay, h]

/-- Settles O19, by the definition of a step. -/
theorem stepRunsTheDecodedInstruction : Obligations.StepRunsTheDecodedInstruction :=
  fun _ _ _ => step_exec

/-- Settles O20, by what a fetch reads in each of the two phases. -/
theorem fetchReadsOpOrTheNextRecord : Obligations.FetchReadsOpOrTheNextRecord := by
  constructor
  · intro s inp code hp hop
    rw [fetch_started hp, hop, Option.map_some]
  · intro s r t hp hst hget
    rw [fetch_replay hp hst, hget, Option.map_some]

/-- Settles O23: an idle block fetches nothing, so only the host moves it. -/
theorem idleBlockWaitsForTheHost : Obligations.IdleBlockWaitsForTheHost := by
  constructor
  · intro s code inp rest hp hh
    rw [step_advance (pendingReset_start hh) (fetch_idle hp)]
    exact advance_idle_start hp hh
  · intro s hp hh
    rw [step_advance (pendingReset_nil hh) (fetch_idle hp)]
    exact advance_idle_nil hp hh

/-- Settles O25: past the last token there is no record to fetch, and the next line of the replay is its end. -/
theorem replayEndsAfterTheLastToken : Obligations.ReplayEndsAfterTheLastToken := by
  intro s r hr hp hst hti
  have hnone : r.tok[r.ti]? = none := List.getElem?_eq_none hti.ge
  have hf : fetch s = none := by rw [fetch_replay hp hst, hnone, Option.map_none]
  calc step s = advance s := step_advance hr hf
    _ = .next (conclude s id id (tickWork s.cfg s.random (.lzDecompress r))) := advance_running hp rfl
    _ = .next (conclude s .lzDecompress .bytes (s.random, tickReplay r)) := congrArg _ (conclude_asWork ..)
    _ = .next (endOk s (.bytes r.out)) := by rw [tickReplay_last hnone, conclude_done]

/-- Settles O30: the state after reset is a block that was reset. -/
theorem resetStateIsGood : Obligations.ResetStateIsGood := by
  have hreset : resetBlock State.reset [] = State.reset := rfl
  rw [Obligations.ResetStateIsGood, ← hreset]
  exact inv_resetBlock State.reset []

end Sys2Proof.Machine

namespace Sys2Proof

/-! ## Encodings -/

/-- A code decodes to an instruction exactly when the two stand in one row of the code table (R85, R88). -/
theorem decodeOp_eq_ok_iff {code : Byte} {i : Instr} : decodeOp code = .ok i ↔ (code, i) ∈ opCodes := by
  constructor
  · intro h
    unfold decodeOp at h
    split at h
    · rename_i row hfind
      cases h
      have hcode : row.1 = code := by simpa using List.find?_some hfind
      exact hcode ▸ List.mem_of_find?_eq_some hfind
    · cases h
  · have hrows : ∀ row ∈ opCodes, decodeOp row.1 = .ok row.2 := by decide
    exact hrows (code, i)

/-- The encoder agrees with the code table. -/
theorem encode_of_mem_opCodes {code : Byte} {i : Instr} (h : (code, i) ∈ opCodes) :
    i.wellFormed = true ∧ encode i = [code] := by
  have hrows : ∀ row ∈ opCodes, row.2.wellFormed = true ∧ encode row.2 = [row.1] := by decide
  exact hrows (code, i) h

/-- The code table has a row for every operation (R85). -/
theorem exists_mem_opCodes {i : Instr} (h : i.token? = none) : ∃ code, (code, i) ∈ opCodes := by
  have hrow : ∃ row ∈ opCodes, row.2 = i := by
    cases i
    case tNull | tLit | tCopy | tCopyLit => cases h
    all_goals decide
  obtain ⟨⟨code, _⟩, hmem, rfl⟩ := hrow
  exact ⟨code, hmem⟩

/-- A token form is encoded as the record of its token (R75). -/
theorem encode_tokenForm {i : Instr} {t : Token} (h : i.token? = some t) : encode i = recordBytes t := by
  cases i <;> cases h <;> rfl

/-- A record decodes to the form its token satisfies the condition of, with the token's own fields (R77). -/
theorem decodeToken_eq_iff {t : Token} {i : Instr} :
    decodeToken t = i ↔ i.wellFormed = true ∧ i.token? = some t := by
  constructor
  · rintro rfl
    obtain ⟨o, l, n⟩ := t
    rw [decodeToken_eq]
    dsimp only
    split
    next hl =>
      subst hl
      split
      next hn => subst hn; exact ⟨rfl, rfl⟩
      next hn => exact ⟨bne_iff_ne.mpr hn, rfl⟩
    next hl =>
      split
      next hn => subst hn; exact ⟨bne_iff_ne.mpr hl, rfl⟩
      next hn => exact ⟨Bool.and_eq_true_iff.mpr ⟨bne_iff_ne.mpr hl, bne_iff_ne.mpr hn⟩, rfl⟩
  · rintro ⟨hwf, hk⟩
    rw [decodeToken_eq]
    cases i
    case tNull => cases hk; rfl
    case tLit => cases hk; exact if_neg (bne_iff_ne.mp hwf)
    case tCopy => cases hk; exact if_neg (bne_iff_ne.mp hwf)
    case tCopyLit =>
      cases hk
      obtain ⟨hl, hn⟩ := Bool.and_eq_true_iff.mp hwf
      exact (if_neg (bne_iff_ne.mp hl)).trans (if_neg (bne_iff_ne.mp hn))
    all_goals cases hk

/-- Everything that decodes: the code of an operation, or the record of a token (R83). -/
theorem decode_eq_ok_iff {bytes : Bytes} {i : Instr} : decode bytes = .ok i ↔
    (∃ code, bytes = [code] ∧ (code, i) ∈ opCodes) ∨ ∃ t, bytes = recordBytes t ∧ decodeToken t = i := by
  constructor
  · intro h
    unfold decode at h
    split at h
    · exact .inl ⟨_, rfl, decodeOp_eq_ok_iff.mp h⟩
    · cases h
      exact .inr ⟨_, (recordBytes_tokenOfRecord ..).symm, rfl⟩
    · cases h
  · rintro (⟨code, rfl, hmem⟩ | ⟨t, rfl, rfl⟩)
    · exact decodeOp_eq_ok_iff.mpr hmem
    · exact Machine.decode_recordBytes t

/-- Settles O1: an operation is found again in the code table, a token form in the record of its token. -/
theorem decodeOfEncodeIsTheInstruction : Obligations.DecodeOfEncodeIsTheInstruction := by
  intro i hwf
  rw [decode_eq_ok_iff]
  cases hk : i.token? with
  | none =>
    obtain ⟨code, hmem⟩ := exists_mem_opCodes hk
    obtain ⟨-, henc⟩ := encode_of_mem_opCodes hmem
    exact .inl ⟨code, henc, hmem⟩
  | some t => exact .inr ⟨t, encode_tokenForm hk, decodeToken_eq_iff.mpr ⟨hwf, hk⟩⟩

/-- What decodes is well formed and is spelled by its encoding only (R76, R77, R85). -/
theorem encode_of_decode {bytes : Bytes} {i : Instr} (h : decode bytes = .ok i) :
    i.wellFormed = true ∧ encode i = bytes := by
  rcases decode_eq_ok_iff.mp h with ⟨code, rfl, hmem⟩ | ⟨t, rfl, hform⟩
  · exact encode_of_mem_opCodes hmem
  · obtain ⟨hwf, hk⟩ := decodeToken_eq_iff.mp hform
    exact ⟨hwf, encode_tokenForm hk⟩

/-- Settles O3: the codes of the table's rows. -/
theorem onlyTheTenCodesNameAnOperation : Obligations.OnlyTheTenCodesNameAnOperation := by
  intro code
  calc (∃ i, decode [code] = .ok i)
      ↔ ∃ i, (code, i) ∈ opCodes := exists_congr fun _ => decodeOp_eq_ok_iff
    _ ↔ code ∈ opCodes.map Prod.fst := by simp only [List.mem_map, Prod.exists, exists_and_right, exists_eq_right]

/-- Settles O4: each word is the encoding of its instruction. -/
theorem writtenOutWordsDecode : Obligations.WrittenOutWordsDecode :=
  ⟨decodeOfEncodeIsTheInstruction .lzCompress rfl, decodeOfEncodeIsTheInstruction .q5Decode rfl,
    decodeOfEncodeIsTheInstruction .pipeDecrypt rfl, decodeOfEncodeIsTheInstruction (.tNull 0x1234) rfl,
    decodeOfEncodeIsTheInstruction (.tLit 0xFFFF 0x43) rfl, decodeOfEncodeIsTheInstruction (.tCopy 2 1) rfl,
    decodeOfEncodeIsTheInstruction (.tCopyLit 2 3 0x43) rfl⟩

end Sys2Proof

namespace Sys2Proof.Machine

/-! ## The records of TS -/

theorem toBytesFn_drop (ts : Tokens) (i : Nat) : (toBytesFn ts).drop (5 * i) = toBytesFn (ts.drop i) := by
  induction i generalizing ts with
  | zero => rfl
  | succ i ih =>
    cases ts with
    | nil => simp [toBytesFn]
    | cons t ts =>
      rw [List.drop_succ_cons, ← ih, toBytesFn_cons, Nat.mul_succ, Nat.add_comm, ← List.drop_drop,
        List.drop_left' (recordBytes_length t)]

/-- Token `i` is written to bytes `5i .. 5i+4` (R131). -/
theorem toBytesFn_record {ts : Tokens} {i : Nat} {t : Token} (h : ts[i]? = some t) :
    ((toBytesFn ts).drop (5 * i)).take 5 = recordBytes t := by
  obtain ⟨hi, rfl⟩ := List.getElem?_eq_some_iff.mp h
  rw [toBytesFn_drop, List.drop_eq_getElem_cons hi, toBytesFn_cons, List.take_left' (recordBytes_length _)]

/-- The whole record in bytes `5i .. 5i+4` is read as token `i` (R134). -/
theorem fromBytesFn_record {b : Bytes} {i : Nat} {r0 r1 r2 r3 r4 : Byte}
    (h : (b.drop (5 * i)).take 5 = [r0, r1, r2, r3, r4]) :
    (fromBytesFn b)[i]? = some (tokenOfRecord r0 r1 r2 r3 r4) := by
  have hb : b.drop (5 * i) = [r0, r1, r2, r3, r4] ++ (b.drop (5 * i)).drop 5 := by
    rw [← h, List.take_append_drop]
  calc (fromBytesFn b)[i]? = ((fromBytesFn b).drop i)[0]? := by rw [List.getElem?_drop, Nat.add_zero]
    _ = (fromBytesFn (b.drop (5 * i)))[0]? := by rw [fromBytesFn_drop]
    _ = some (tokenOfRecord r0 r1 r2 r3 r4) := by rw [hb]; rfl

/-- Settles O2: what decodes is its encoding, and the two operations of TS read and write whole records. -/
theorem decodedBytesAreTheEncoding : Obligations.DecodedBytesAreTheEncoding := by
  refine ⟨fun bytes i => encode_of_decode, ?_, ?_⟩
  · intro s inp hp
    refine ⟨_, fromBytesFn inp.bytes, exec_tsFromBytes hp, rfl, fun i r0 r1 r2 r3 r4 hrec => ?_⟩
    exact ⟨_, fromBytesFn_record hrec, joinBytes_toNat r0 r1, joinBytes_toNat r2 r3, rfl⟩
  · intro s inp hp
    refine ⟨_, toBytesFn inp.tokens, exec_tsToBytes hp, rfl, fun i k hget => ?_⟩
    exact ⟨_, _, _, _, toBytesFn_record hget, hiByte_toNat k.offset, loByte_toNat k.offset, hiByte_toNat k.length,
      loByte_toNat k.length⟩

/-! ## The token forms -/

@[simp] theorem literalOf_zero : literalOf 0 = [] := rfl

theorem literalOf_of_ne {n : Byte} (h : n ≠ 0) : literalOf n = [n] := if_neg h

/-- A token without a copy only appends its literal, whatever its offset (R77, R116). -/
theorem replayOne_of_length_zero (out : Bytes) {t : Token} (h : t.length = 0) :
    replayOne out t = .ok (out ++ literalOf t.next) := by
  simp [replayOne, h, cyclicCopy_zero]

/-- A token whose source is inside OUT appends its copy and its literal (R114, R116). -/
theorem replayOne_of_source_inside {out : Bytes} {t : Token} (h0 : t.offset ≠ 0) (h : t.offset.toNat ≤ out.length) :
    replayOne out t = .ok (out ++ cyclicCopy out t.offset.toNat t.length.toNat ++ literalOf t.next) := by
  have hinside : ¬ (t.length ≠ 0 ∧ (t.offset = 0 ∨ out.length < t.offset.toNat)) :=
    fun ⟨_, hfault⟩ => hfault.elim h0 h.not_gt
  rw [replayOne, if_neg hinside]

section
variable {s : State} {r : ReplayRegs} (hp : s.phase = .running (.lzDecompress r)) (hst : r.stage = .token)
include hp hst

/-- A token form that is in range changes only OUT and the token index (R112). -/
theorem exec_tokenForm_ok {i : Instr} {k : Token} {out : Bytes} (hk : i.token? = some k)
    (hone : replayOne r.out k = .ok out) :
    exec i s = .next { s with phase := .running (.lzDecompress { r with ti := r.ti + 1, out := out }) } := by
  have hnext : nextToken r out = { r with ti := r.ti + 1, out := out } := by rw [nextToken, ← hst]
  rw [exec_tokenForm hk, withReplay_at hp hst, replayTick_ok hone, hnext]
  rfl
end

/-- Settles O17: the source is inside OUT, so the copy and the literal are appended. -/
theorem copyTokensRepeatTheLastBytes : Obligations.CopyTokensRepeatTheLastBytes := by
  intro s r o l n hp hst ho hinside hn
  constructor
  · have hone := replayOne_of_source_inside (t := { offset := o, length := l, next := 0 }) ho hinside
    rw [literalOf_zero, List.append_nil] at hone
    exact exec_tokenForm_ok hp hst rfl hone
  · have hone := replayOne_of_source_inside (t := { offset := o, length := l, next := n }) ho hinside
    rw [literalOf_of_ne hn] at hone
    exact exec_tokenForm_ok hp hst rfl hone

/-- Settles O15: no copy and no literal. -/
theorem nullTokenOnlyMovesOn : Obligations.NullTokenOnlyMovesOn := by
  intro s r o hp hst
  have hone := replayOne_of_length_zero r.out (t := { offset := o, length := 0, next := 0 }) rfl
  rw [literalOf_zero, List.append_nil] at hone
  exact exec_tokenForm_ok hp hst rfl hone

/-- Settles O16: no copy, and the literal is there. -/
theorem literalTokenAppendsItsByte : Obligations.LiteralTokenAppendsItsByte := by
  intro s r o n hp hst hn
  have hone := replayOne_of_length_zero r.out (t := { offset := o, length := 0, next := n }) rfl
  rw [literalOf_of_ne hn] at hone
  exact exec_tokenForm_ok hp hst rfl hone

/-! ## Unknown codes -/

/-- Fetched bytes that are no instruction raise UnknownOperation before anything else (R88, R275). -/
theorem step_unknown {s : State} {bytes : Bytes} {e : DecodeError} (hr : pendingReset s = none)
    (hf : fetch s = some bytes) (hd : decode bytes = .error e) : step s = .next (raise s .unknownOperation) := by
  simp only [step, hr, hf, hd]

/-- Settles O21: OP is fetched, names no operation, and raises. -/
theorem unknownCodeIsRefusedWithItsStatus : Obligations.UnknownCodeIsRefusedWithItsStatus := by
  intro s inp code hr hp hop hcode
  have hf : fetch s = some [code] := by rw [fetch_started hp, hop, Option.map_some]
  cases hd : decode [code] with
  | ok i => exact absurd ((onlyTheTenCodesNameAnOperation code).mp ⟨i, hd⟩) hcode
  | error e => exact step_unknown hr hf hd

end Sys2Proof.Machine

namespace Sys2Proof.Machine

/-! ## The run of a candidate (R104) -/

section
variable {b : Bytes} {j pos : Nat}

/-- The bytes of a run at candidate and position are there and equal. -/
theorem runAt_getElem? {i : Nat} (h : i < runAt b j pos) : b[j + i]? = b[pos + i]? := by
  obtain ⟨x, hj, hpos⟩ := (runAt_lt_iff h.le).mp h
  rw [hj, hpos]

/-- A run ends at the end of the input or at a mismatch. -/
theorem runAt_stops (h : pos + runAt b j pos < b.length) : b[j + runAt b j pos]? ≠ b[pos + runAt b j pos]? := by
  intro heq
  have hpos : b[pos + runAt b j pos]? = some b[pos + runAt b j pos] := List.getElem?_eq_getElem h
  exact lt_irrefl _ ((runAt_lt_iff le_rfl).mpr ⟨_, heq.trans hpos, hpos⟩)

/-- Equal bytes inside the input are part of the run. -/
theorem le_runAt {l : Nat} (hl : pos + l ≤ b.length) (heq : ∀ i, i < l → b[j + i]? = b[pos + i]?) :
    l ≤ runAt b j pos := by
  by_contra hlt
  have hlt : runAt b j pos < l := Nat.lt_of_not_le hlt
  exact runAt_stops (by omega) (heq _ hlt)

end

/-- Settles O39: a run stays inside the input, its bytes are equal, and it stops only at the end or at a mismatch. -/
theorem runIsTheLongestCommonOne : Obligations.RunIsTheLongestCommonOne := by
  intro b j pos hj hpos
  have hrun := runAt_le b j pos
  refine ⟨by omega, fun _ => runAt_getElem?, ?_, fun l hl => by omega, fun l => le_runAt⟩
  by_cases hend : pos + runAt b j pos = b.length
  · exact .inl hend
  · exact .inr (runAt_stops (by omega))

/-! ## Selection (R103, R105) -/

/-- `m` is the selection among the candidates from `lo` to before `hi`: its run is the longest, and unless it is empty
`m` is the oldest candidate with that run. -/
structure IsSelection (b : Bytes) (pos lo hi : Nat) (m : Match) : Prop where
  longest : ∀ j, lo ≤ j → j < hi → runAt b j pos ≤ m.len
  none_of_empty : m.len = 0 → m.off = 0
  oldest : m.len ≠ 0 → ∃ j, lo ≤ j ∧ j < hi ∧ m.off = pos - j ∧ runAt b j pos = m.len ∧
    ∀ i, lo ≤ i → i < j → runAt b i pos < m.len

section
variable {b : Bytes} {pos lo : Nat}

/-- Before the first candidate nothing is selected. -/
theorem isSelection_incumbent : IsSelection b pos lo lo (incumbent pos 0 0) where
  longest _ hlo hhi := absurd hhi hlo.not_gt
  none_of_empty _ := rfl
  oldest h := absurd rfl h

/-- A longer run is selected over the incumbent, another one is not. -/
theorem IsSelection.better {hi : Nat} {m : Match} (h : IsSelection b pos lo hi m) (hlo : lo ≤ hi) :
    IsSelection b pos lo (hi + 1) (better b pos m hi) := by
  unfold Machine.better
  split
  case isTrue hlonger =>
    exact {
      longest := fun j hj hhi => by
        rcases Nat.lt_succ_iff_lt_or_eq.mp hhi with hlt | rfl
        · exact (h.longest j hj hlt).trans hlonger.le
        · exact le_rfl
      none_of_empty := fun hempty => absurd hempty (Nat.ne_of_gt (Nat.zero_lt_of_lt hlonger))
      oldest := fun _ => ⟨hi, hlo, Nat.lt_succ_self hi, rfl, rfl, fun i hi' hlt =>
        (h.longest i hi' hlt).trans_lt hlonger⟩ }
  case isFalse hnot =>
    exact {
      longest := fun j hj hhi => by
        rcases Nat.lt_succ_iff_lt_or_eq.mp hhi with hlt | rfl
        · exact h.longest j hj hlt
        · exact Nat.le_of_not_lt hnot
      none_of_empty := h.none_of_empty
      oldest := fun hne => by
        obtain ⟨j, hj, hlt, hrest⟩ := h.oldest hne
        exact ⟨j, hj, Nat.lt_succ_of_lt hlt, hrest⟩ }

/-- Going through candidates in ascending order goes on with the selection. -/
theorem IsSelection.foldl {hi n : Nat} {m : Match} (h : IsSelection b pos lo hi m) (hlo : lo ≤ hi) :
    IsSelection b pos lo (hi + n) ((List.range' hi n).foldl (Machine.better b pos) m) := by
  induction n generalizing hi m with
  | zero => exact h
  | succ n ih =>
    rw [List.range'_succ, List.foldl_cons, Nat.add_comm n 1, ← Nat.add_assoc]
    exact ih (h.better hlo) (Nat.le_succ_of_le hlo)

/-- The selected match is the selection among all candidates of the window. -/
theorem bestMatch_isSelection (w : Nat) (b : Bytes) (pos : Nat) :
    IsSelection b pos (pos - w) pos (bestMatch w b pos) := by
  have h := (isSelection_incumbent (b := b) (pos := pos) (lo := pos - w)).foldl (n := pos - (pos - w)) le_rfl
  rwa [Nat.add_sub_cancel' (Nat.sub_le pos w), ← bestMatch_eq] at h

end

section
variable (w : Nat) (b : Bytes) (pos : Nat)

/-- A selected match is empty, without a distance, or its distance lies in the window and before the position, and it is
the oldest with its run. -/
theorem bestMatch_cases :
    ((bestMatch w b pos).len = 0 ∧ (bestMatch w b pos).off = 0) ∨
    ((bestMatch w b pos).len ≠ 0 ∧ 0 < (bestMatch w b pos).off ∧ (bestMatch w b pos).off ≤ w ∧
      (bestMatch w b pos).off ≤ pos ∧
      runAt b (pos - (bestMatch w b pos).off) pos = (bestMatch w b pos).len ∧
      ∀ j, pos - w ≤ j → j < pos - (bestMatch w b pos).off → runAt b j pos < (bestMatch w b pos).len) := by
  have hsel := bestMatch_isSelection w b pos
  by_cases hlen : (bestMatch w b pos).len = 0
  · exact .inl ⟨hlen, hsel.none_of_empty hlen⟩
  · obtain ⟨j, hlo, hhi, hoff, hrun, holder⟩ := hsel.oldest hlen
    have hcand : pos - (bestMatch w b pos).off = j := by omega
    exact .inr ⟨hlen, by omega, by omega, by omega, hcand.symm ▸ hrun, hcand.symm ▸ holder⟩

theorem bestMatch_len_eq_zero_iff : (bestMatch w b pos).len = 0 ↔ (bestMatch w b pos).off = 0 := by
  rcases bestMatch_cases w b pos with ⟨hlen, hoff⟩ | ⟨hlen, hoff, -⟩
  · exact iff_of_true hlen hoff
  · exact iff_of_false hlen hoff.ne'

theorem bestMatch_off_le : (bestMatch w b pos).off ≤ w := by
  rcases bestMatch_cases w b pos with ⟨-, hoff⟩ | ⟨-, -, hoff, -⟩ <;> omega

/-- The selected run stays inside the input. -/
theorem bestMatch_len_le : (bestMatch w b pos).len ≤ b.length - pos := by
  rcases bestMatch_cases w b pos with ⟨hlen, -⟩ | ⟨-, -, -, -, hrun, -⟩
  · omega
  · exact hrun ▸ runAt_le b _ pos

/-- At the first position there is no candidate. -/
theorem bestMatch_zero : bestMatch w b 0 = incumbent 0 0 0 := by
  rw [bestMatch_eq, Nat.zero_sub]
  rfl

theorem mem_candidates {j : Nat} : j ∈ candidates w pos ↔ pos - w ≤ j ∧ j < pos := by
  rw [candidates, List.mem_range'_1]
  omega

theorem candidates_pairwise : (candidates w pos).Pairwise (· < ·) := List.pairwise_lt_range'

/-- The incumbent after the first `k` candidates. -/
def incumbentAfter (k : Nat) : Match := ((candidates w pos).take k).foldl (better b pos) (incumbent pos 0 0)

theorem incumbentAfter_zero : incumbentAfter w b pos 0 = incumbent pos 0 0 := rfl

theorem incumbentAfter_succ {k j : Nat} (h : (candidates w pos)[k]? = some j) :
    incumbentAfter w b pos (k + 1) = better b pos (incumbentAfter w b pos k) j := by
  rw [incumbentAfter, List.take_add_one, h, Option.toList_some, List.foldl_append]
  rfl

theorem incumbentAfter_length : incumbentAfter w b pos (candidates w pos).length = bestMatch w b pos := by
  rw [incumbentAfter, List.take_length]
  rfl

end

/-! ## The selected matches (R101, R109, R110) -/

section
variable {w : Nat} {b : Bytes} {F pos : Nat}

theorem matchesFrom_of_lt (h : pos < b.length) : matchesFrom w b (F + 1) pos =
    bestMatch w b pos :: matchesFrom w b F (pos + (bestMatch w b pos).len + 1) := if_pos h

/-- Past the end nothing is selected. -/
theorem matchesFrom_of_le (h : b.length ≤ pos) : matchesFrom w b F pos = [] := by
  cases F with
  | zero => rfl
  | succ F => exact if_neg h.not_gt

/-- Every match is selected at its position, which is inside the input. -/
theorem mem_matchesFrom {m : Match} (h : m ∈ matchesFrom w b F pos) :
    m = bestMatch w b m.pos ∧ m.pos < b.length := by
  induction F generalizing pos with
  | zero => cases h
  | succ F ih =>
    rcases Nat.lt_or_ge pos b.length with hpos | hpos
    · rw [matchesFrom_of_lt hpos] at h
      rcases List.mem_cons.mp h with rfl | hrest
      · rw [bestMatch_pos]
        exact ⟨rfl, hpos⟩
      · exact ih hrest
    · rw [matchesFrom_of_le hpos] at h
      cases h

theorem matchesFrom_head? (h : pos < b.length) :
    (matchesFrom w b (F + 1) pos).head? = some (bestMatch w b pos) := by
  rw [matchesFrom_of_lt h, List.head?_cons]

theorem pos_of_matchesFrom_head? {m : Match} (h : (matchesFrom w b F pos).head? = some m) : m.pos = pos := by
  rcases Nat.lt_or_ge pos b.length with hpos | hpos
  · cases F with
    | zero => cases h
    | succ F =>
      rw [matchesFrom_head? hpos] at h
      cases h
      exact bestMatch_pos w b pos
  · rw [matchesFrom_of_le hpos] at h
    cases h

/-- Each next match is one past the byte after the run before it (R109). -/
theorem matchesFrom_chain : (matchesFrom w b F pos).IsChain fun m m' => m'.pos = m.pos + m.len + 1 := by
  induction F generalizing pos with
  | zero => exact .nil
  | succ F ih =>
    rcases Nat.lt_or_ge pos b.length with hpos | hpos
    · rw [matchesFrom_of_lt hpos]
      refine List.isChain_cons.mpr ⟨fun m' hm' => ?_, ih⟩
      rw [pos_of_matchesFrom_head? hm', bestMatch_pos]
    · rw [matchesFrom_of_le hpos]
      exact .nil

/-- With enough fuel the last match covers the end of the input. -/
theorem matchesFrom_covers {m : Match} (hF : b.length ≤ pos + F) (h : (matchesFrom w b F pos).getLast? = some m) :
    b.length ≤ m.pos + m.len + 1 := by
  induction F generalizing pos with
  | zero => cases h
  | succ F ih =>
    rcases Nat.lt_or_ge pos b.length with hpos | hpos
    swap
    · rw [matchesFrom_of_le hpos] at h
      cases h
    rw [matchesFrom_of_lt hpos] at h
    rcases Nat.lt_or_ge (pos + (bestMatch w b pos).len + 1) b.length with hnext | hnext
    · obtain ⟨F, rfl⟩ : ∃ k, F = k + 1 := ⟨F - 1, by omega⟩
      rw [matchesFrom_of_lt hnext, List.getLast?_cons_cons, ← matchesFrom_of_lt hnext] at h
      exact ih (by omega) h
    · rw [matchesFrom_of_le hnext, List.getLast?_singleton] at h
      cases h
      rwa [bestMatch_pos]

theorem mem_selectedMatches {m : Match} (h : m ∈ selectedMatches w b) :
    m = bestMatch w b m.pos ∧ m.pos < b.length :=
  mem_matchesFrom h

/-- A selected match lies inside the input. -/
theorem selectedMatches_inside {m : Match} (h : m ∈ selectedMatches w b) : m.pos + m.len ≤ b.length := by
  obtain ⟨hm, hpos⟩ := mem_selectedMatches h
  have hlen := bestMatch_len_le w b m.pos
  rw [← hm] at hlen
  omega

theorem selectedMatches_head? (h : b ≠ []) : (selectedMatches w b).head? = some (bestMatch w b 0) := by
  obtain ⟨F, hF⟩ := Nat.exists_eq_succ_of_ne_zero (List.length_pos_iff.mpr h).ne'
  rw [selectedMatches, hF]
  exact matchesFrom_head? (List.length_pos_iff.mpr h)

end

/-- Settles O40: the candidates are a range, the incumbent is the fold over the first of them, and the fold keeps the
selection among those seen. -/
theorem selectionIsLongestThenOldest : Obligations.SelectionIsLongestThenOldest := by
  intro w b pos
  refine ⟨fun j => mem_candidates w pos, candidates_pairwise w pos,
    ⟨incumbentAfter w b pos, incumbentAfter_zero w b pos, fun k j => incumbentAfter_succ w b pos,
      (incumbentAfter_length w b pos).symm⟩,
    fun m hm => (mem_selectedMatches hm).1, (bestMatch_isSelection w b pos).longest,
    bestMatch_len_eq_zero_iff w b pos, fun hlen => ?_⟩
  rcases bestMatch_cases w b pos with ⟨hzero, -⟩ | ⟨-, -, hwindow, hpos, hrun, holder⟩
  · exact absurd hzero hlen
  · exact ⟨hwindow, hpos, hrun, holder⟩

/-- Settles O41: by what the scan does from one position to the next. -/
theorem matchesPartitionTheInput : Obligations.MatchesPartitionTheInput := by
  intro w b
  refine ⟨?_, fun i m m' hm hm' => ?_, fun m hm => ⟨(mem_selectedMatches hm).2, selectedMatches_inside hm⟩,
    fun m => matchesFrom_covers (Nat.zero_add _).ge⟩
  · rcases eq_or_ne b [] with rfl | hne
    · rfl
    · rw [List.head?_map, selectedMatches_head? hne, Option.map_some, bestMatch_pos, if_neg hne]
  · obtain ⟨hi, rfl⟩ := List.getElem?_eq_some_iff.mp hm
    obtain ⟨hi', rfl⟩ := List.getElem?_eq_some_iff.mp hm'
    exact List.isChain_iff_getElem.mp matchesFrom_chain i hi'

/-- Settles O45: only past the first position can a run be selected, and it stays inside the input. -/
theorem shortInputHasNoLongRun : Obligations.ShortInputHasNoLongRun := by
  intro w b hb m hm
  have hinside := selectedMatches_inside hm
  obtain ⟨hbest, -⟩ := mem_selectedMatches hm
  rcases bestMatch_cases w b m.pos with ⟨hlen, -⟩ | ⟨-, hoff, -, hpos, -⟩
  · rw [hbest, hlen]; omega
  · omega

end Sys2Proof.Machine

namespace Sys2Proof.Machine

/-! ## What LZ.COMPRESS delivers -/

section
variable {ω : Type} {s : State} {out : ω → Output} {x : RandomSource}

/-- An operation that delivers has succeeded with what it delivers. -/
theorem ended_output_eq_some {e : Except Status ω} {v : Output} (h : (ended s out x e).output = some v) :
    ∃ o, e = .ok o ∧ out o = v := by
  cases e with
  | error e => cases h
  | ok o => exact ⟨o, rfl, Option.some.inj h⟩

/-- An operation that draws nothing and succeeds. -/
theorem ended_ok_random (o : ω) : ended s out s.random (.ok o) = endOk s (out o) := rfl

end

/-- Settles O5: LZ.COMPRESS computes its function. -/
theorem lzCompressEmitsTheGreedyMatches : Obligations.LzCompressEmitsTheGreedyMatches :=
  fun _ _ => exec_lzCompress

/-- Without a run too long for its field LZ.COMPRESS delivers the tokens of its matches (R108). -/
theorem compressFn_of_not_overflow {cfg : Config} {b : Bytes}
    (h : ¬ (cfg.lenOvf = .fault ∧ ∃ m ∈ selectedMatches cfg.window b, 65535 < m.len)) :
    compressFn cfg b = .ok ((selectedMatches cfg.window b).map (matchToken b)) := if_neg h

/-- Under `LEN_OVF = fault` a run too long for its field is an error (R108). -/
theorem compressFn_of_overflow {cfg : Config} {b : Bytes} (hovf : cfg.lenOvf = .fault)
    (h : ∃ m ∈ selectedMatches cfg.window b, 65535 < m.len) : compressFn cfg b = .error .lengthOverflow :=
  if_pos ⟨hovf, h⟩

/-- Every token delivered is that of a selected match. -/
theorem mem_compressFn {cfg : Config} {b : Bytes} {ts : Tokens} (h : compressFn cfg b = .ok ts) {k : Token}
    (hk : k ∈ ts) : ∃ m ∈ selectedMatches cfg.window b, matchToken b m = k := by
  unfold compressFn at h
  split at h
  · cases h
  · cases h
    exact List.mem_map.mp hk

section
variable {w : Nat} (hw : w ≤ 65535) (b : Bytes) (pos : Nat)
include hw

/-- A distance in a window of at most 65535 is kept whole by its field. -/
theorem matchToken_bestMatch_offset :
    (matchToken b (bestMatch w b pos)).offset.toNat = (bestMatch w b pos).off :=
  trunc16_toNat ((bestMatch_off_le w b pos).trans hw)

theorem matchToken_bestMatch_of_offset_zero (h : (matchToken b (bestMatch w b pos)).offset = 0) :
    (matchToken b (bestMatch w b pos)).length = 0 := by
  have hoff : (bestMatch w b pos).off = 0 := by rw [← matchToken_bestMatch_offset hw, h]; rfl
  have hlen : (bestMatch w b pos).len = 0 := (bestMatch_len_eq_zero_iff w b pos).mpr hoff
  exact congrArg trunc16 hlen
end

/-- Settles O42: every token is that of the match selected at some position, whose distance fits its field. -/
theorem emittedTokensStayInTheWindow : Obligations.EmittedTokensStayInTheWindow := by
  intro s t inp ts hp hwindow he hout
  rw [exec_lzCompress hp] at he
  cases he
  obtain ⟨ts, hts, heq⟩ := ended_output_eq_some hout
  cases heq
  refine ⟨compressFn_length_le hts, fun k hk => ?_⟩
  obtain ⟨m, hm, rfl⟩ := mem_compressFn hts hk
  have hw : s.cfg.window ≤ 65535 := by omega
  obtain ⟨hbest, -⟩ := mem_selectedMatches hm
  rw [hbest]
  refine ⟨?_, matchToken_bestMatch_of_offset_zero hw _ _⟩
  rw [matchToken_bestMatch_offset hw, ← hwindow]
  exact bestMatch_off_le ..

/-- Settles O44: compression is the first sub-operation of PIPE.ENCRYPT and fails, so nothing is drawn or refused. -/
theorem longRunFaultsUnderFault : Obligations.LongRunFaultsUnderFault := by
  intro s inp hp hovf hlong
  have hfn := compressFn_of_overflow hovf hlong
  have hlim : ¬ encryptOverLimit s.cfg s.random inp.bytes = true := by
    rw [encryptOverLimit_iff, hfn]
    rintro ⟨ts, hts, -⟩
    cases hts
  have hencrypt : encryptFn s.cfg s.random inp.bytes inp.key = (s.random, .error .lengthOverflow) := by
    simp only [encryptFn, hfn]
  constructor
  · rw [exec_lzCompress hp, hfn]
    rfl
  · rw [exec_pipeEncrypt hp, if_neg hlim, hencrypt]
    rfl

/-! ## A byte repeated (R313) -/

section
variable {w : Nat} (n : Nat) (a : Byte)

/-- In a byte repeated every run reaches the end. -/
theorem runAt_replicate {j pos : Nat} (h : j ≤ pos) : runAt (List.replicate n a) j pos = n - pos := by
  have hle := runAt_le (List.replicate n a) j pos
  rw [List.length_replicate] at hle
  rcases Nat.lt_or_ge n pos with hpos | hpos
  · omega
  · refine le_antisymm hle (le_runAt (by rw [List.length_replicate]; omega) fun i hi => ?_)
    rw [List.getElem?_replicate, List.getElem?_replicate, if_pos (by omega), if_pos (by omega)]

/-- The second match covers the rest. -/
theorem bestMatch_replicate (hw : 0 < w) : bestMatch w (List.replicate (n + 2) a) 1 = ⟨1, 1, n + 1⟩ := by
  rw [bestMatch_eq, Nat.sub_eq_zero_of_le hw]
  show better _ 1 (incumbent 1 0 0) 0 = _
  rw [better, runAt_replicate _ _ (Nat.zero_le 1)]
  exact if_pos (Nat.succ_pos n)

theorem selectedMatches_replicate (hw : 0 < w) :
    selectedMatches w (List.replicate (n + 2) a) = [⟨0, 0, 0⟩, ⟨1, 1, n + 1⟩] := by
  have hlen : (List.replicate (n + 2) a).length = n + 2 := List.length_replicate
  rw [selectedMatches, hlen, matchesFrom_of_lt (by omega), bestMatch_zero]
  show incumbent 0 0 0 :: matchesFrom w (List.replicate (n + 2) a) (n + 1) 1 = _
  rw [matchesFrom_of_lt (by omega), bestMatch_replicate n a hw, matchesFrom_of_le (by simp only [hlen]; omega)]
  rfl

end

/-- Settles O43: the second run reaches the end, so only its field is cut. -/
theorem longRunIsTruncatedSilently : Obligations.LongRunIsTruncatedSilently := by
  intro s inp n a hp hovf hn hbytes
  obtain ⟨n, rfl⟩ : ∃ k, n = k + 2 := ⟨n - 2, by omega⟩
  have hok : ¬ (s.cfg.lenOvf = .fault ∧ ∃ m ∈ selectedMatches s.cfg.window inp.bytes, 65535 < m.len) := by
    simp [hovf]
  have hend : (List.replicate (n + 2) a).getD (1 + (n + 1)) 0 = 0 :=
    List.getD_eq_default _ _ (by rw [List.length_replicate]; omega)
  rw [exec_lzCompress hp, compressFn_of_not_overflow hok, hbytes, selectedMatches_replicate n a s.cfg.window_pos]
  simp only [List.map_cons, List.map_nil, matchToken, hend, ended_ok_random]
  rfl

/-! ## What LZ.DECOMPRESS delivers -/

/-- Settles O6: LZ.DECOMPRESS computes its function. -/
theorem lzDecompressReplaysTheTokens : Obligations.LzDecompressReplaysTheTokens :=
  fun _ _ => exec_lzDecompress

/-- Settles O38: the token stream reaches the state that the function gives, and so does `exec`. -/
theorem tokenStreamRunsAsAProgram : Obligations.TokenStreamRunsAsAProgram := by
  intro s t inp hp hr he
  rw [exec_lzDecompress hp] at he
  cases he
  exact replay_runsTo hr rfl rfl

/-- A token whose source is not inside OUT is out of range (R115). -/
theorem replayOne_of_source_outside {out : Bytes} {t : Token} (hl : t.length ≠ 0)
    (h : t.offset = 0 ∨ out.length < t.offset.toNat) : replayOne out t = .error .copyOutOfRange := if_pos ⟨hl, h⟩

/-- A token form that is out of range ends the replay with its error (R115, R270). -/
theorem exec_tokenForm_error {s : State} {r : ReplayRegs} (hp : s.phase = .running (.lzDecompress r))
    (hst : r.stage = .token) {i : Instr} {k : Token} {e : Status} (hk : i.token? = some k)
    (hone : replayOne r.out k = .error e) : exec i s = .next (raise s e) := by
  rw [exec_tokenForm hk, withReplay_at hp hst, replayTick_error hone]
  rfl

/-- Settles O18: the source is not inside OUT, with a literal or without. -/
theorem copyOutOfRangeEndsTheReplay : Obligations.CopyOutOfRangeEndsTheReplay := by
  intro s r o l n hp hst hl hout
  have hone (next : Byte) : replayOne r.out { offset := o, length := l, next := next } = .error .copyOutOfRange :=
    replayOne_of_source_outside hl hout
  exact ⟨exec_tokenForm_error hp hst rfl (hone 0), exec_tokenForm_error hp hst rfl (hone n)⟩

/-- A token appends at most a run and a literal (R117). -/
theorem replayOne_length_le {out out' : Bytes} {t : Token} (h : replayOne out t = .ok out') :
    out'.length ≤ out.length + 65536 := by
  have hrun := t.length.isLt
  have hlit : (literalOf t.next).length ≤ 1 := by unfold literalOf; split <;> simp
  unfold replayOne at h
  split at h <;> cases h
  simp only [List.length_append, cyclicCopy_length]
  omega

theorem foldlM_replayOne_length_le {ts : Tokens} {out b : Bytes} (h : ts.foldlM replayOne out = .ok b) :
    b.length ≤ out.length + 65536 * ts.length := by
  induction ts generalizing out with
  | nil => cases h; exact Nat.le_add_right _ _
  | cons t ts ih =>
    rw [List.foldlM_cons] at h
    cases hone : replayOne out t with
    | error e => rw [hone] at h; cases h
    | ok out' =>
      rw [hone] at h
      have hrest := ih h
      have hlen := replayOne_length_le hone
      rw [List.length_cons]
      omega

/-- At most 65536 bytes a token (R117). -/
theorem decompressFn_length_le {ts : Tokens} {b : Bytes} (h : decompressFn ts = .ok b) :
    b.length ≤ 65536 * ts.length := by
  simpa using foldlM_replayOne_length_le h

/-- Settles O47: what is delivered is what the function gives. -/
theorem decompressedBytesAreNulFree : Obligations.DecompressedBytesAreNulFree := by
  intro s t inp b hp hout
  constructor
  · intro he
    rw [exec_lzDecompress hp] at he
    cases he
    obtain ⟨b, hb, heq⟩ := ended_output_eq_some hout
    cases heq
    exact ⟨decompressFn_nulFree hb, decompressFn_length_le hb⟩
  · intro he
    rw [exec_pipeDecrypt hp] at he
    split at he <;> cases he
    obtain ⟨b, hb, heq⟩ := ended_output_eq_some hout
    cases heq
    exact decryptFn_nulFree hb

/-! ## The round trip (R119) -/

/-- A run copied from its candidate is the run at the position, even where it overlaps the position (R104, R114). -/
theorem cyclicCopy_take {b : Bytes} {o pos l : Nat} (ho : 0 < o) (hpos : o ≤ pos) (hend : pos + l ≤ b.length)
    (hrun : l ≤ runAt b (pos - o) pos) : cyclicCopy (b.take pos) o l = (b.drop pos).take l := by
  have hlen : (b.take pos).length = pos := List.length_take_of_le (by omega)
  have hperiod : ∀ k, k < l → b.getD (pos - o + k % o) 0 = b.getD (pos + k) 0 := by
    intro k
    induction k using Nat.strong_induction_on with
    | _ k ih =>
      intro hk
      have hbyte : b.getD (pos - o + k) 0 = b.getD (pos + k) 0 := by
        rw [List.getD_eq_getElem?_getD, List.getD_eq_getElem?_getD, runAt_getElem? (hk.trans_le hrun)]
      rcases Nat.lt_or_ge k o with hko | hko
      · rw [Nat.mod_eq_of_lt hko, hbyte]
      · rw [Nat.mod_eq_sub_mod hko, ih (k - o) (by omega) (by omega), ← hbyte]
        congr 1
        omega
  refine List.ext_getElem (by simp; omega) fun k hk _ => ?_
  rw [cyclicCopy_length] at hk
  have hmod := Nat.mod_lt k ho
  have hget := hperiod k hk
  rw [List.getD_eq_getElem (n := pos + k) _ _ (by omega)] at hget
  have hin : pos - o + k % o < pos := by omega
  simpa [cyclicCopy, hlen, List.getElem?_take, hin] using hget

/-- The literal after the first `p` bytes is the next byte, or nothing at the end (R106, R116). -/
theorem take_append_literalOf {b : Bytes} (hnul : 0 ∉ b) (p : Nat) :
    b.take p ++ literalOf (b.getD p 0) = b.take (p + 1) := by
  rcases Nat.lt_or_ge p b.length with hp | hp
  · have hne : b[p] ≠ 0 := fun h0 => hnul (h0 ▸ List.getElem_mem hp)
    rw [List.getD_eq_getElem _ _ hp, literalOf_of_ne hne, List.take_append_getElem hp]
  · rw [List.getD_eq_default _ _ hp, literalOf_zero, List.append_nil, List.take_of_length_le hp,
      List.take_of_length_le (Nat.le_succ_of_le hp)]

section
variable {w : Nat} {b : Bytes} (hw : w ≤ 65535) (hnul : 0 ∉ b)
include hw hnul

/-- The token of the match selected at a position replays the run and the byte after it. -/
theorem replayOne_matchToken {pos : Nat} (hpos : pos < b.length) (hlen : (bestMatch w b pos).len ≤ 65535) :
    replayOne (b.take pos) (matchToken b (bestMatch w b pos)) = .ok (b.take (pos + (bestMatch w b pos).len + 1)) := by
  have hoffset := matchToken_bestMatch_offset hw b pos
  have hlength : (matchToken b (bestMatch w b pos)).length.toNat = (bestMatch w b pos).len := trunc16_toNat hlen
  have hnext : (matchToken b (bestMatch w b pos)).next = b.getD (pos + (bestMatch w b pos).len) 0 := by
    rw [matchToken, tokenOf, bestMatch_pos]
  have hinside := bestMatch_len_le w b pos
  rcases bestMatch_cases w b pos with ⟨hzero, -⟩ | ⟨-, hoff, -, hle, hrun, -⟩
  · have hl : (matchToken b (bestMatch w b pos)).length = 0 := BitVec.eq_of_toNat_eq (hlength.trans hzero)
    rw [replayOne_of_length_zero _ hl, hnext, hzero, Nat.add_zero, take_append_literalOf hnul]
  · have ho : (matchToken b (bestMatch w b pos)).offset ≠ 0 := fun h0 => by
      rw [h0] at hoffset
      exact hoff.ne hoffset
    have hsource : (matchToken b (bestMatch w b pos)).offset.toNat ≤ (b.take pos).length := by
      rw [hoffset, List.length_take_of_le hpos.le]
      exact hle
    rw [replayOne_of_source_inside ho hsource, hoffset, hlength, hnext,
      cyclicCopy_take hoff hle (by omega) hrun.ge, ← List.take_add, take_append_literalOf hnul]

/-- The tokens of the matches selected from a position on replay the rest of the input. -/
theorem replay_matchesFrom {F pos : Nat} (hF : b.length ≤ pos + F)
    (hlen : ∀ m ∈ matchesFrom w b F pos, m.len ≤ 65535) :
    ((matchesFrom w b F pos).map (matchToken b)).foldlM replayOne (b.take pos) = .ok b := by
  induction F generalizing pos with
  | zero =>
    rw [List.take_of_length_le (by omega)]
    rfl
  | succ F ih =>
    rcases Nat.lt_or_ge pos b.length with hpos | hpos
    · rw [matchesFrom_of_lt hpos] at hlen ⊢
      obtain ⟨hbest, hrest⟩ := List.forall_mem_cons.mp hlen
      rw [List.map_cons, List.foldlM_cons, replayOne_matchToken hw hnul hpos hbest]
      exact ih (by omega) hrest
    · rw [matchesFrom_of_le hpos, List.take_of_length_le hpos]
      rfl

end

/-- Settles O46: no run overflows its field, so every token is that of its match, and replays it. -/
theorem decompressUndoesCompress : Obligations.DecompressUndoesCompress := by
  intro s inp hp hw hnul hlen
  have hok : ¬ (s.cfg.lenOvf = .fault ∧ ∃ m ∈ selectedMatches s.cfg.window inp.bytes, 65535 < m.len) :=
    fun ⟨_, m, hm, hlong⟩ => (hlen m hm).not_gt hlong
  refine ⟨(selectedMatches s.cfg.window inp.bytes).map (matchToken inp.bytes), ?_, fun s' inp' hp' htok => ?_⟩
  · rw [exec_lzCompress hp, compressFn_of_not_overflow hok, ended_ok_random]
  · have hreplay : decompressFn inp'.tokens = .ok inp.bytes := by
      rw [htok]
      exact replay_matchesFrom hw hnul (Nat.zero_add _).ge hlen
    rw [exec_lzDecompress hp', hreplay, ended_ok_random]

end Sys2Proof.Machine

namespace Sys2Proof.Machine

/-! ## The two operations of TS undo each other -/

theorem fromBytesFn_recordBytes_append (t : Token) (b : Bytes) :
    fromBytesFn (recordBytes t ++ b) = t :: fromBytesFn b :=
  congrArg (· :: fromBytesFn b) (tokenOfRecord_recordBytes t)

/-- The tokens written are read back (R138). -/
theorem fromBytesFn_toBytesFn (ts : Tokens) : fromBytesFn (toBytesFn ts) = ts := by
  induction ts with
  | nil => rfl
  | cons t ts ih => rw [toBytesFn_cons, fromBytesFn_recordBytes_append, ih]

/-- The tokens read are written back as the whole records of the buffer: a partial one is dropped (R135, R138). -/
theorem toBytesFn_fromBytesFn (b : Bytes) : toBytesFn (fromBytesFn b) = b.take (5 * (b.length / 5)) := by
  fun_induction fromBytesFn b with
  | case1 r0 r1 r2 r3 r4 rest ih =>
    have hcount : 5 * ((r0 :: r1 :: r2 :: r3 :: r4 :: rest).length / 5) = 5 * (rest.length / 5) + 5 := by
      simp only [List.length_cons]; omega
    rw [toBytesFn_cons, recordBytes_tokenOfRecord, ih, hcount]
    rfl
  | case2 b hshort =>
    have hnone : fromBytesFn b = [] := by rwa [fromBytesFn]
    have hcount : b.length / 5 = 0 := by rw [← fromBytesFn_length, hnone, List.length_nil]
    rw [hcount]
    rfl

/-- Token `i` read is the one whose record is bytes `5i .. 5i+4` (R134): that record is what it is written back to. -/
theorem recordBytes_of_fromBytesFn {b : Bytes} {i : Nat} {t : Token} (h : (fromBytesFn b)[i]? = some t) :
    recordBytes t = (b.drop (5 * i)).take 5 := by
  have hi : i < b.length / 5 := fromBytesFn_length b ▸ (List.getElem?_eq_some_iff.mp h).1
  calc recordBytes t
      = ((b.take (5 * (b.length / 5))).drop (5 * i)).take 5 := by
        rw [← toBytesFn_fromBytesFn, toBytesFn_record h]
    _ = (b.drop (5 * i)).take 5 := by
        rw [List.drop_take, List.take_take, Nat.min_eq_left (by omega)]

section
variable {s : State} {inp : Inputs} (hp : s.phase = .started inp)
include hp

theorem exec_tsToBytes_endOk : exec .tsToBytes s = .next (endOk s (.bytes (toBytesFn inp.tokens))) := by
  rw [exec_tsToBytes hp, ended_ok_random]

theorem exec_tsFromBytes_endOk : exec .tsFromBytes s = .next (endOk s (.tokens (fromBytesFn inp.bytes))) := by
  rw [exec_tsFromBytes hp, ended_ok_random]

/-- TS.TOBYTES delivers no other bytes than those of its function. -/
theorem eq_toBytesFn_of_exec {b : Bytes} (h : exec .tsToBytes s = .next (endOk s (.bytes b))) :
    b = toBytesFn inp.tokens := by
  rw [exec_tsToBytes_endOk hp] at h
  have hout := congrArg State.output (Host.Outcome.next.inj h)
  exact (Output.bytes.inj (Option.some.inj hout)).symm

/-- TS.FROMBYTES delivers no other tokens than those of its function. -/
theorem eq_fromBytesFn_of_exec {ts : Tokens} (h : exec .tsFromBytes s = .next (endOk s (.tokens ts))) :
    ts = fromBytesFn inp.bytes := by
  rw [exec_tsFromBytes_endOk hp] at h
  have hout := congrArg State.output (Host.Outcome.next.inj h)
  exact (Output.tokens.inj (Option.some.inj hout)).symm

end

/-- Settles O7: the bytes are the records of the tokens one after another. -/
theorem tsToBytesWritesFiveBytesAToken : Obligations.TsToBytesWritesFiveBytesAToken :=
  fun _ inp hp => ⟨toBytesFn inp.tokens, exec_tsToBytes_endOk hp, toBytesFn_length inp.tokens,
    fun _ _ => toBytesFn_record⟩

/-- Settles O8: the tokens are those of the whole records, so each is written back to its own record. -/
theorem tsFromBytesReadsWholeRecords : Obligations.TsFromBytesReadsWholeRecords :=
  fun _ inp hp => ⟨fromBytesFn inp.bytes, exec_tsFromBytes_endOk hp, fromBytesFn_length inp.bytes,
    fun _ _ => recordBytes_of_fromBytesFn⟩

/-- Settles O48: the two functions undo each other, and each operation delivers its function's value only. -/
theorem serializerRoundTrips : Obligations.SerializerRoundTrips := by
  constructor
  · intro s s' inp inp' b hp hp' hwrite hb
    rw [exec_tsFromBytes_endOk hp', hb, eq_toBytesFn_of_exec hp hwrite, fromBytesFn_toBytesFn]
  · intro s s' inp inp' ts hp hp' hread hts
    rw [exec_tsToBytes_endOk hp', hts, eq_fromBytesFn_of_exec hp hread, toBytesFn_fromBytesFn]

end Sys2Proof.Machine

namespace Sys2Proof.Machine

/-! ## The digits of a number (R147) -/

/-- The base-5 digits of `n`, most significant first (R147). -/
def digitsOf (n : Nat) : List Digit := ((Nat.digits 5 n).map (Fin.ofNat 5)).reverse

@[simp] theorem digitsOf_zero : digitsOf 0 = [] := by simp [digitsOf]

/-- The numeral is written with the digits. -/
theorem numeral_eq_map (a : Alphabet) (n : Nat) : numeral a n = (digitsOf n).map (glyphOf a) := by
  rw [digitsOf, List.map_reverse, List.map_map]; rfl

/-- The last digit and what stands before it (R156). -/
theorem digitsOf_of_ne_zero {n : Nat} (h : n ≠ 0) : digitsOf n = digitsOf (n / 5) ++ [remainder n] := by
  have hmod : Fin.ofNat 5 (n % 5) = remainder n := Fin.ext (Nat.mod_mod n 5)
  rw [digitsOf, digits_cons h, List.map_cons, List.reverse_cons, hmod]; rfl

/-- A digit put behind a number that is not 0, or a digit that is not 0, is the last digit (R150). -/
theorem digitsOf_mul_add {n : Nat} {d : Digit} (h : n ≠ 0 ∨ d ≠ 0) :
    digitsOf (n * 5 + d.val) = digitsOf n ++ [d] := by
  have hd := d.isLt
  have hne : n * 5 + d.val ≠ 0 := by
    rw [ne_eq d, Fin.ext_iff, Fin.val_zero] at h
    omega
  have hlast : remainder (n * 5 + d.val) = d := Fin.ext (by show (n * 5 + d.val) % 5 = d.val; omega)
  rw [digitsOf_of_ne_zero hne, hlast, show (n * 5 + d.val) / 5 = n by omega]

/-- The digits of a number stand for it. -/
@[simp] theorem digitsValue_digitsOf (n : Nat) : digitsValue (digitsOf n) = n := by
  induction n using Nat.strong_induction_on with
  | _ n ih =>
    rcases eq_or_ne n 0 with rfl | hn
    · rw [digitsOf_zero, digitsValue_nil]
    · have hrem : (remainder n).val = n % 5 := rfl
      rw [digitsOf_of_ne_zero hn, digitsValue_concat, ih _ (by omega), hrem]
      omega

/-- The digits of what digits stand for are those digits without the leading zeros (R155). -/
theorem digitsOf_digitsValue (ds : List Digit) : digitsOf (digitsValue ds) = ds.dropWhile (· == 0) := by
  induction ds using List.reverseRecOn with
  | nil => rw [digitsValue_nil, digitsOf_zero, List.dropWhile_nil]
  | append_singleton ds d ih =>
    rw [digitsValue_concat, List.dropWhile_append, ← ih]
    rcases eq_or_ne (digitsValue ds) 0 with hv | hv
    · rcases eq_or_ne d 0 with rfl | hd
      · simp [hv]
      · rw [digitsOf_mul_add (.inr hd)]
        simp [hv, hd]
    · rw [digitsOf_mul_add (.inl hv), digitsOf_of_ne_zero hv]
      simp

/-- `floor(log_5 n) + 1` digits (R147). -/
theorem digitsOf_length {n : Nat} (h : n ≠ 0) : (digitsOf n).length = Nat.log 5 n + 1 := by
  rw [digitsOf, List.length_reverse, List.length_map, Nat.length_digits 5 n (by norm_num) h]

/-- The first digit is not 0: these are the digits of what they stand for, so there is no leading zero to drop
(R147). -/
theorem digitsOf_head? (n : Nat) : (digitsOf n).head? ≠ some 0 := by
  have hdrop : (digitsOf n).dropWhile (· == 0) = digitsOf n := by rw [← digitsOf_digitsValue, digitsValue_digitsOf]
  intro hzero
  have hfirst := List.head?_dropWhile_not (· == 0) (digitsOf n)
  rw [hdrop, hzero] at hfirst
  cases hfirst

/-! ## What Q5.DECODE reads -/

/-- A string of alphabet glyphs is read as its digits (R150). -/
theorem decodeFn_map_glyphOf (cfg : Config) (ds : List Digit) :
    decodeFn cfg (ds.map (glyphOf cfg.alphabet)) = .ok (minBE (digitsValue ds)) := by
  rw [decodeFn, mapM_indexOf_glyphs]

/-- Only strings of alphabet glyphs are read (R151). -/
theorem glyphs_of_decodeFn {cfg : Config} {g : Glyphs} {b : Bytes} (h : decodeFn cfg g = .ok b) :
    ∃ ds : List Digit, g = ds.map (glyphOf cfg.alphabet) ∧ b = minBE (digitsValue ds) := by
  unfold decodeFn at h
  split at h
  · rename_i ds hds
    cases h
    exact ⟨ds, glyphs_of_mapM_indexOf hds, rfl⟩
  · cases h

/-- One glyph outside the alphabet anywhere makes the string invalid (R151). -/
theorem decodeFn_of_invalid {cfg : Config} {g : Glyphs} (h : ∃ c ∈ g, indexOf cfg.alphabet c = none) :
    decodeFn cfg g = .error .invalidCharacter := by
  obtain ⟨c, hc, hnone⟩ := h
  cases hg : decodeFn cfg g with
  | error e => rw [decodeFn_error hg]
  | ok b =>
    obtain ⟨ds, rfl, -⟩ := glyphs_of_decodeFn hg
    obtain ⟨d, -, rfl⟩ := List.mem_map.mp hc
    rw [indexOf_glyphOf] at hnone
    cases hnone

/-- Zero glyphs in front add nothing to the value (R153). -/
theorem decodeFn_zeros_append (cfg : Config) (k : Nat) (g : Glyphs) :
    decodeFn cfg (List.replicate k cfg.alphabet.g0 ++ g) = decodeFn cfg g := by
  induction k with
  | zero => rfl
  | succ k ih =>
    have hzero : indexOf cfg.alphabet cfg.alphabet.g0 = some 0 := indexOf_glyphOf cfg.alphabet 0
    rw [List.replicate_succ, List.cons_append, decodeFn_eq, decodeRest_digit hzero]
    exact ih

/-! ## Q5.ENCODE and Q5.DECODE undo each other (R155) -/

theorem decodeFn_encodeFn (cfg : Config) (b : Bytes) : decodeFn cfg (encodeFn cfg b) = .ok (b.dropWhile (· == 0)) := by
  rw [encodeFn_eq, numeral_eq_map, decodeFn_map_glyphOf, digitsValue_digitsOf, minBE_beNat]

/-- The zero glyph is that of the digit 0 alone (R80). -/
theorem glyphOf_eq_g0_iff {a : Alphabet} {d : Digit} : glyphOf a d = a.g0 ↔ d = 0 := by
  constructor
  · intro h
    have hzero : indexOf a a.g0 = some 0 := indexOf_glyphOf a 0
    rw [← h, indexOf_glyphOf] at hzero
    exact Option.some.inj hzero
  · rintro rfl; rfl

theorem encodeFn_of_decodeFn {cfg : Config} {g : Glyphs} {b : Bytes} (h : decodeFn cfg g = .ok b) :
    encodeFn cfg b = g.dropWhile (· == cfg.alphabet.g0) := by
  obtain ⟨ds, rfl, rfl⟩ := glyphs_of_decodeFn h
  have hzero : ((· == cfg.alphabet.g0) ∘ glyphOf cfg.alphabet) = (· == (0 : Digit)) :=
    funext fun d => Bool.eq_iff_iff.mpr (by simp [glyphOf_eq_g0_iff])
  rw [encodeFn_eq, beNat_minBE, numeral_eq_map, digitsOf_digitsValue, List.dropWhile_map, hzero]

/-! ## The operations on their inputs -/

/-- An operation that is seen to end with `OK` has succeeded with what it delivers. -/
theorem eq_ok_of_ended_eq_endOk {ω : Type} {s : State} {out : ω → Output} {x : RandomSource} {e : Except Status ω}
    {o : ω} (hout : Function.Injective out)
    (h : (.next (ended s out x e) : Host.Outcome State Fault Refusal) = .next (endOk s (out o))) : e = .ok o := by
  obtain ⟨o', rfl, heq⟩ := ended_output_eq_some (congrArg State.output (Host.Outcome.next.inj h))
  rw [hout heq]

/-- STATUS and output do not depend on the random source left either (R66, R303). -/
theorem ended_result_of_any_random {ω : Type} (s s' : State) (out : ω → Output) (e : Except Status ω) :
    (ended s out s.random e).status = (ended s' out s'.random e).status ∧
      (ended s out s.random e).output = (ended s' out s'.random e).output := by
  cases e with
  | error _ => exact ⟨rfl, rfl⟩
  | ok _ => exact ⟨rfl, rfl⟩

section
variable {s : State} {inp : Inputs} (hp : s.phase = .started inp)
include hp

theorem exec_q5Encode_endOk : exec .q5Encode s = .next (endOk s (.glyphs (encodeFn s.cfg inp.bytes))) := by
  rw [exec_q5Encode hp, ended_ok_random]

/-- Q5.ENCODE delivers no other glyphs than those of its function. -/
theorem eq_encodeFn_of_exec {g : Glyphs} (h : exec .q5Encode s = .next (endOk s (.glyphs g))) :
    encodeFn s.cfg inp.bytes = g := by
  rw [exec_q5Encode hp] at h
  exact Except.ok.inj (eq_ok_of_ended_eq_endOk (fun _ _ => Output.glyphs.inj) h)

/-- Q5.DECODE delivers only what its function gives. -/
theorem decodeFn_of_exec {b : Bytes} (h : exec .q5Decode s = .next (endOk s (.bytes b))) :
    decodeFn s.cfg inp.glyphs = .ok b := by
  rw [exec_q5Decode hp] at h
  exact eq_ok_of_ended_eq_endOk (fun _ _ => Output.bytes.inj) h

/-- PIPE.DECRYPT gives its function on a string whose envelope, if it has one, is not over the limit (R200, R247). -/
theorem exec_pipeDecrypt_of_within
    (hlim : ∀ raw, decodeFn s.cfg inp.glyphs = .ok raw → openOverLimit s.cfg raw = false) :
    exec .pipeDecrypt s = .next (ended s .bytes s.random (decryptFn s.cfg inp.glyphs inp.key)) := by
  have hover : ¬ decryptOverLimit s.cfg s.random inp.glyphs = true := by
    rw [decryptOverLimit_iff]
    rintro ⟨raw, hraw, hover⟩
    rw [hlim raw hraw] at hover
    cases hover
  rw [exec_pipeDecrypt hp, if_neg hover]

end

/-- An envelope within the limit, or with a wrong magic, is not refused (R247). -/
theorem openOverLimit_eq_false {cfg : Config} {raw : Bytes}
    (h : raw.length ≤ Config.aeadLimit + 48 ∨ raw.take 4 ≠ magicBytes cfg.magic) : openOverLimit cfg raw = false := by
  rw [openOverLimit, Bool.and_eq_false_iff]
  rcases h with hlen | hmagic
  · exact .inl (decide_eq_false hlen.not_gt)
  · exact .inr (beq_eq_false_iff_ne.mpr hmagic)

/-- A string that does not decode ends the chain at its first step (R200, R201). -/
theorem decryptFn_of_decodeFn_error {cfg : Config} {g : Glyphs} {e : Status} (h : decodeFn cfg g = .error e)
    (key : Bytes) : decryptFn cfg g key = .error e := by
  rw [decryptFn_eq, h]

/-- PIPE.DECRYPT sees of a string only what it decodes to. -/
theorem decryptFn_congr {cfg : Config} {g g' : Glyphs} (h : decodeFn cfg g' = decodeFn cfg g) (key : Bytes) :
    decryptFn cfg g' key = decryptFn cfg g key := by
  rw [decryptFn_eq, decryptFn_eq, h]

/-- The empty string decodes to no bytes, which are too short for an envelope (R181, R203). -/
theorem decryptFn_nil (cfg : Config) (key : Bytes) : decryptFn cfg [] key = .error .formatError := by
  rw [decryptFn_eq]; rfl

/-- Settles O9: Q5.ENCODE computes its function. -/
theorem q5EncodeWritesTheNumeral : Obligations.Q5EncodeWritesTheNumeral :=
  fun _ _ => exec_q5Encode_endOk

/-- Settles O10: Q5.DECODE computes its function, which reads every string of alphabet glyphs. -/
theorem q5DecodeReadsTheNumeral : Obligations.Q5DecodeReadsTheNumeral := by
  intro s inp hp
  refine ⟨exec_q5Decode hp, fun ds hds => ?_⟩
  rw [exec_q5Decode hp, hds, decodeFn_map_glyphOf, ended_ok_random]

/-- Settles O49: the glyphs are those of the digits of the integer. -/
theorem numeralHasNoLeadingZeroGlyph : Obligations.NumeralHasNoLeadingZeroGlyph := by
  intro s inp hp
  refine ⟨digitsOf (beNat inp.bytes), ?_, digitsValue_digitsOf _, fun hzero => ?_,
    fun hne => ⟨digitsOf_length hne, digitsOf_head? _⟩⟩
  · rw [exec_q5Encode_endOk hp, encodeFn_eq, numeral_eq_map]
  · rw [hzero, digitsOf_zero]

/-- Settles O50: the two functions undo each other up to leading zeros, and each operation delivers its function's
value only. -/
theorem quinaryRoundTrips : Obligations.QuinaryRoundTrips := by
  constructor
  · intro s s' inp inp' g hp hp' hcfg hencode hg
    rw [exec_q5Decode hp', hcfg, hg, ← eq_encodeFn_of_exec hp hencode, decodeFn_encodeFn, ended_ok_random]
  · intro s s' inp inp' b hp hp' hcfg hdecode hb
    rw [exec_q5Encode_endOk hp', hcfg, hb, encodeFn_of_decodeFn (decodeFn_of_exec hp hdecode)]

/-- Settles O51: both strings decode to the same, so neither is refused and both operations have the same result. -/
theorem leadingZeroGlyphsChangeNothing : Obligations.LeadingZeroGlyphsChangeNothing := by
  intro s s' inp inp' k hp hp' hcfg hkey hglyphs hlim
  have hdecode : decodeFn s'.cfg inp'.glyphs = decodeFn s.cfg inp.glyphs := by
    rw [hcfg, hglyphs, decodeFn_zeros_append]
  have hdecrypt : decryptFn s'.cfg inp'.glyphs inp'.key = decryptFn s.cfg inp.glyphs inp.key := by
    rw [hcfg] at hdecode ⊢
    rw [hkey, decryptFn_congr hdecode]
  have hwithin : ∀ raw, decodeFn s.cfg inp.glyphs = .ok raw → openOverLimit s.cfg raw = false :=
    fun raw hraw => openOverLimit_eq_false (hlim raw hraw)
  have hq := exec_q5Decode hp'
  have hpipe := exec_pipeDecrypt_of_within hp' (by rw [hdecode, hcfg]; exact hwithin)
  rw [hdecode] at hq
  rw [hdecrypt] at hpipe
  obtain ⟨hqstatus, hqoutput⟩ := ended_result_of_any_random s' s .bytes (decodeFn s.cfg inp.glyphs)
  obtain ⟨hpstatus, hpoutput⟩ := ended_result_of_any_random s' s .bytes (decryptFn s.cfg inp.glyphs inp.key)
  exact ⟨_, _, _, _, exec_q5Decode hp, hq, hqstatus, hqoutput, exec_pipeDecrypt_of_within hp hwithin, hpipe, hpstatus,
    hpoutput⟩

/-- Settles O58: an invalid string fails in the first step of the chain; the empty string passes it and fails in the
length check. -/
theorem invalidGlyphComesFirst : Obligations.InvalidGlyphComesFirst := by
  intro s inp hp
  constructor
  · intro hinvalid
    have hdecode := decodeFn_of_invalid hinvalid
    have hwithin : ∀ raw, decodeFn s.cfg inp.glyphs = .ok raw → openOverLimit s.cfg raw = false := by
      intro raw hraw
      rw [hdecode] at hraw
      cases hraw
    constructor
    · rw [exec_q5Decode hp, hdecode]; rfl
    · rw [exec_pipeDecrypt_of_within hp hwithin, decryptFn_of_decodeFn_error hdecode]; rfl
  · intro hempty
    have hwithin : ∀ raw, decodeFn s.cfg inp.glyphs = .ok raw → openOverLimit s.cfg raw = false := by
      intro raw hraw
      rw [hempty] at hraw
      cases hraw
      rfl
    rw [exec_pipeDecrypt_of_within hp hwithin, hempty, decryptFn_nil]; rfl

end Sys2Proof.Machine

namespace Sys2Proof.Machine

/-! ## The AEAD on its own ciphertexts (R246) -/

/-- OPEN_SEAL (R168): the tag of a sealed payload verifies, and the same key stream gives the payload back. -/
theorem aeadOpen_aeadSeal (key nonce aad pt : Bytes) : aeadOpen key nonce aad (aeadSeal key nonce aad pt) = some pt := by
  have hlen : ¬ (aeadSeal key nonce aad pt).length < Config.tagLen := by
    rw [aeadSeal_length]
    exact Nat.not_lt.mpr (Nat.le_add_left _ _)
  rw [aeadOpen, if_neg hlen, ctBody_aeadSeal, ctTag_aeadSeal, if_pos rfl, chachaXor_twice]

/-- OPEN_SHORT (R168): a ciphertext shorter than a tag does not open. -/
theorem aeadOpen_of_short {ct : Bytes} (key nonce aad : Bytes) (h : ct.length < 16) :
    aeadOpen key nonce aad ct = none := if_pos h

/-! ## The parts of an envelope that was sealed (R61, R62) -/

section
variable (cfg : Config) (payload key : Bytes) {salt nonce : Bytes}

theorem take_four_seal4 : (seal4 cfg payload key salt nonce).take 4 = magicBytes cfg.magic := rfl

theorem envSalt_seal4 (hs : salt.length = 16) : envSalt (seal4 cfg payload key salt nonce) = salt := by
  simp [seal4, magicBytes, envSalt, slice, hs]

theorem envNonce_seal4 (hs : salt.length = 16) (hn : nonce.length = 12) :
    envNonce (seal4 cfg payload key salt nonce) = nonce := by
  simp [seal4, magicBytes, envNonce, slice, hs, hn]

theorem envCiphertext_seal4 (hs : salt.length = 16) (hn : nonce.length = 12) :
    envCiphertext (seal4 cfg payload key salt nonce) = aeadSeal (derivedKey key salt) nonce [] payload :=
  List.drop_left' (by simp [magicBytes, hs, hn])

/-- An envelope starts with the first byte of the magic, which is not zero (R9, R172). -/
theorem seal4_head? : (seal4 cfg payload key salt nonce).head? ≠ some 0 := by
  simpa [seal4, magicBytes] using cfg.magic.first_ne_zero

end

/-! ## The checks of ENV.OPEN in their order (R180, R275) -/

section
variable {cfg : Config} {raw : Bytes} (key : Bytes)

theorem openFn_of_short (h : raw.length < 32) : openFn cfg raw key = .error .formatError := if_pos h

theorem openFn_of_wrong_magic (hlen : 32 ≤ raw.length) (hmagic : raw.take 4 ≠ magicBytes cfg.magic) :
    openFn cfg raw key = .error .magicMismatch := by
  rw [openFn, if_neg hlen.not_gt, if_pos hmagic]

/-- Behind the first two checks the AEAD decides (R184). -/
theorem openFn_of_right_magic (hlen : 32 ≤ raw.length) (hmagic : raw.take 4 = magicBytes cfg.magic) :
    openFn cfg raw key = (aeadOpen (derivedKey key (envSalt raw)) (envNonce raw) [] (envCiphertext raw)).elim
      (.error .decryptionFailed) .ok := by
  rw [openFn, if_neg hlen.not_gt, if_neg (not_not.mpr hmagic)]
  cases aeadOpen (derivedKey key (envSalt raw)) (envNonce raw) [] (envCiphertext raw) with
  | none => rfl
  | some payload => rfl

/-- An envelope of at least a header but less than a tag does not authenticate (R183). -/
theorem openFn_of_no_tag (hlen : 32 ≤ raw.length) (hmagic : raw.take 4 = magicBytes cfg.magic)
    (htag : raw.length < 48) : openFn cfg raw key = .error .decryptionFailed := by
  have hct : (envCiphertext raw).length < 16 := by
    rw [envCiphertext, List.length_drop]
    omega
  rw [openFn_of_right_magic key hlen hmagic, aeadOpen_of_short _ _ _ hct]
  rfl

/-- `ENV.OPEN` undoes `SEAL4` (R186): the parts of the envelope are those it was made of. -/
theorem openFn_seal4 (cfg : Config) (payload : Bytes) {salt nonce : Bytes} (hs : salt.length = 16)
    (hn : nonce.length = 12) : openFn cfg (seal4 cfg payload key salt nonce) key = .ok payload := by
  have hlen : 32 ≤ (seal4 cfg payload key salt nonce).length := by
    rw [seal4_length _ _ _ hs hn]
    omega
  rw [openFn_of_right_magic key hlen (take_four_seal4 ..), envSalt_seal4 _ _ _ hs, envNonce_seal4 _ _ _ hs hn,
    envCiphertext_seal4 _ _ _ hs hn, aeadOpen_aeadSeal]
  rfl

end

/-! ## ENV.SEAL and ENV.OPEN within the limit (R247) -/

section
variable {s : State} {inp : Inputs} (hp : s.phase = .started inp)
include hp

theorem exec_envSeal_of_within (hlim : inp.bytes.length ≤ Config.aeadLimit) :
    exec .envSeal s = .next
      (ended s .bytes (sealFn s.cfg s.random inp.bytes inp.key).1 (sealFn s.cfg s.random inp.bytes inp.key).2) := by
  have hover : ¬ sealOverLimit inp.bytes = true := by simpa [sealOverLimit] using hlim
  rw [exec_envSeal hp, if_neg hover]

theorem exec_envOpen_of_within
    (hlim : inp.bytes.length ≤ Config.aeadLimit + 48 ∨ inp.bytes.take 4 ≠ magicBytes s.cfg.magic) :
    exec .envOpen s = .next (ended s .bytes s.random (openFn s.cfg inp.bytes inp.key)) := by
  rw [exec_envOpen hp, openOverLimit_eq_false hlim, if_neg Bool.false_ne_true]

end

/-- Settles O11: ENV.SEAL computes its function on every payload that is not refused. -/
theorem envSealFramesAndEncrypts : Obligations.EnvSealFramesAndEncrypts :=
  fun _ _ => exec_envSeal_of_within

/-- Settles O12: ENV.OPEN computes its function on every buffer that is not refused. -/
theorem envOpenChecksAndDecrypts : Obligations.EnvOpenChecksAndDecrypts :=
  fun _ _ => exec_envOpen_of_within

/-- Settles O53: whichever draw fails, the function ends there with the source that the draw leaves. -/
theorem failedDrawEndsTheSeal : Obligations.FailedDrawEndsTheSeal := by
  intro s inp x y salt hp hlim
  constructor
  · intro hsalt
    rw [exec_envSeal_of_within hp hlim, sealFn_no_salt _ _ _ hsalt]
    rfl
  · intro hsalt hnonce
    rw [exec_envSeal_of_within hp hlim, sealFn_no_nonce _ _ _ hsalt hnonce]
    rfl

/-- Settles O54: one case of the function per check; none of these buffers is refused. -/
theorem firstFailingCheckIsReported : Obligations.FirstFailingCheckIsReported := by
  intro s inp hp
  have hshort {n : Nat} (h : n < 48) : n ≤ Config.aeadLimit + 48 := h.le.trans (Nat.le_add_left _ _)
  refine ⟨fun hlen => ?_, fun hlen hmagic => ?_, fun hlen hmagic htag => ?_⟩
  · rw [exec_envOpen_of_within hp (.inl (hshort (by omega))), openFn_of_short _ hlen]
    rfl
  · rw [exec_envOpen_of_within hp (.inr hmagic), openFn_of_wrong_magic _ hlen hmagic]
    rfl
  · rw [exec_envOpen_of_within hp (.inl (hshort htag)), openFn_of_no_tag _ hlen hmagic htag]
    rfl

/-- Settles O55: what is sealed is `seal4`, which is within the limit of ENV.OPEN because its payload is within that of
ENV.SEAL. -/
theorem openUndoesSeal : Obligations.OpenUndoesSeal := by
  intro s s' inp inp' x y salt nonce hp hp' hcfg hlim hsalt hnonce
  have hs := draw_length hsalt
  have hn := draw_length hnonce
  refine ⟨seal4 s.cfg inp.bytes inp.key salt nonce, ?_, fun henv hkey => ?_⟩
  · rw [exec_envSeal_of_within hp hlim, sealFn_drawn _ _ _ hsalt hnonce]
    rfl
  · have hwithin : inp'.bytes.length ≤ Config.aeadLimit + 48 := by
      rw [henv, seal4_length _ _ _ hs hn]
      exact Nat.add_le_add_right hlim 48
    rw [exec_envOpen_of_within hp' (.inl hwithin), hcfg, henv, hkey, openFn_seal4 _ _ _ hs hn, ended_ok_random]

/-! ## Cipher strings of different envelopes (R291) -/

/-- A buffer that does not start with a zero byte survives Q5.ENCODE and Q5.DECODE (R155). -/
theorem decodeFn_encodeFn_of_head? (cfg : Config) {b : Bytes} (h : b.head? ≠ some 0) :
    decodeFn cfg (encodeFn cfg b) = .ok b := by
  rw [decodeFn_encodeFn]
  cases b with
  | nil => rfl
  | cons first rest =>
    have hfirst : ¬ (first == 0) = true := fun h0 => h (congrArg some (eq_of_beq h0))
    rw [List.dropWhile_cons_of_neg (p := (· == 0)) hfirst]

/-- So two such buffers have different cipher strings unless they are equal. -/
theorem encodeFn_injective (cfg : Config) {b b' : Bytes} (h : b.head? ≠ some 0) (h' : b'.head? ≠ some 0)
    (heq : encodeFn cfg b = encodeFn cfg b') : b = b' := by
  have hdecode := congrArg (decodeFn cfg) heq
  rw [decodeFn_encodeFn_of_head? cfg h, decodeFn_encodeFn_of_head? cfg h'] at hdecode
  exact Except.ok.inj hdecode

/-- The salt and the nonce can be read off an envelope (R62). -/
theorem seal4_draws_injective {cfg : Config} {payload payload' key key' salt salt' nonce nonce' : Bytes}
    (hs : salt.length = 16) (hs' : salt'.length = 16) (hn : nonce.length = 12) (hn' : nonce'.length = 12)
    (h : seal4 cfg payload key salt nonce = seal4 cfg payload' key' salt' nonce') : salt = salt' ∧ nonce = nonce' := by
  have hsalts := congrArg envSalt h
  have hnonces := congrArg envNonce h
  rw [envSalt_seal4 _ _ _ hs, envSalt_seal4 _ _ _ hs'] at hsalts
  rw [envNonce_seal4 _ _ _ hs hn, envNonce_seal4 _ _ _ hs' hn'] at hnonces
  exact ⟨hsalts, hnonces⟩

/-- With both draws a successful `PIPE.ENCRYPT` is the cipher string of the envelope of its tokens (R195). -/
theorem encryptFn_ok_drawn {cfg : Config} {x x1 x2 : RandomSource} {b key salt nonce : Bytes} {g : Glyphs}
    (hsalt : draw 16 x = (x1, some salt)) (hnonce : draw 12 x1 = (x2, some nonce))
    (h : (encryptFn cfg x b key).2 = .ok g) :
    ∃ ts, compressFn cfg b = .ok ts ∧ g = encodeFn cfg (seal4 cfg (toBytesFn ts) key salt nonce) := by
  unfold encryptFn at h
  split at h
  · cases h
  · rename_i ts hts
    rw [sealFn_drawn _ _ _ hsalt hnonce] at h
    cases h
    exact ⟨ts, hts, rfl⟩

/-- PIPE.ENCRYPT delivers only what its function gives. -/
theorem encryptFn_of_exec {s t : State} {inp : Inputs} {g : Glyphs} (hp : s.phase = .started inp)
    (h : exec .pipeEncrypt s = .next t) (hg : t.output = some (.glyphs g)) :
    (encryptFn s.cfg s.random inp.bytes inp.key).2 = .ok g := by
  rw [exec_pipeEncrypt hp] at h
  split at h
  · cases h
  · cases h
    obtain ⟨g', hok, heq⟩ := ended_output_eq_some hg
    rwa [← Output.glyphs.inj heq]

/-- Settles O60: both strings encode an envelope, whose first byte is not zero, so equal strings come of equal
envelopes and these of equal draws. -/
theorem differentDrawsGiveDifferentStrings : Obligations.DifferentDrawsGiveDifferentStrings := by
  intro s s' inp inp' x y x' y' salt nonce salt' nonce' g g' hp hp' hcfg hsalt hnonce hsalt' hnonce' hrun hrun' hne heq
  obtain ⟨ts, -, hg⟩ := encryptFn_ok_drawn hsalt hnonce (encryptFn_of_exec hp hrun rfl)
  obtain ⟨ts', -, hg'⟩ := encryptFn_ok_drawn hsalt' hnonce' (encryptFn_of_exec hp' hrun' rfl)
  rw [hg, hg', hcfg] at heq
  have henv := encodeFn_injective _ (seal4_head? _ _ _) (seal4_head? _ _ _) heq
  obtain ⟨hsalts, hnonces⟩ := seal4_draws_injective (draw_length hsalt) (draw_length hsalt') (draw_length hnonce)
    (draw_length hnonce') henv
  exact hne.elim (· hsalts) (· hnonces)

end Sys2Proof.Machine

namespace Sys2Proof.Machine

/-! ## The pipeline within the limit (R195, R200, R247) -/

/-- PIPE.ENCRYPT gives its function on a plaintext whose payload, if it compresses, is within the limit. -/
theorem exec_pipeEncrypt_of_within {s : State} {inp : Inputs} (hp : s.phase = .started inp)
    (hlim : ∀ ts, compressFn s.cfg inp.bytes = .ok ts → 5 * ts.length ≤ Config.aeadLimit) :
    exec .pipeEncrypt s = .next
      (ended s .glyphs (encryptFn s.cfg s.random inp.bytes inp.key).1
        (encryptFn s.cfg s.random inp.bytes inp.key).2) := by
  have hover : ¬ encryptOverLimit s.cfg s.random inp.bytes = true := by
    rw [encryptOverLimit_iff]
    rintro ⟨ts, hts, hgt⟩
    exact (hlim ts hts).not_gt hgt
  rw [exec_pipeEncrypt hp, if_neg hover]

/-- Settles O13: a plaintext is refused only when its tokens take more bytes than the limit. -/
theorem pipeEncryptChainsTheUnits : Obligations.PipeEncryptChainsTheUnits :=
  fun _ _ => exec_pipeEncrypt_of_within

/-- Settles O14: a string is refused only for the envelope it decodes to. -/
theorem pipeDecryptChainsTheUnits : Obligations.PipeDecryptChainsTheUnits :=
  fun _ _ hp hlim => exec_pipeDecrypt_of_within hp fun raw hraw => openOverLimit_eq_false (hlim raw hraw)

/-! ## The round trip of the pipeline (R205) -/

/-- With both draws PIPE.ENCRYPT of a plaintext that compresses is the cipher string of its envelope (R195). -/
theorem encryptFn_drawn {cfg : Config} {x x1 x2 : RandomSource} {b salt nonce : Bytes} {ts : Tokens} (key : Bytes)
    (hts : compressFn cfg b = .ok ts) (hsalt : draw 16 x = (x1, some salt)) (hnonce : draw 12 x1 = (x2, some nonce)) :
    encryptFn cfg x b key = (x2, .ok (encodeFn cfg (seal4 cfg (toBytesFn ts) key salt nonce))) := by
  simp only [encryptFn, hts, sealFn_drawn _ _ _ hsalt hnonce]

/-- Without a run too long for its field the tokens of the selected matches replay to the input (R119). -/
theorem decompressFn_matchTokens {w : Nat} {b : Bytes} (hw : w ≤ 65535) (hnul : 0 ∉ b)
    (hlen : ∀ m ∈ selectedMatches w b, m.len ≤ 65535) :
    decompressFn ((selectedMatches w b).map (matchToken b)) = .ok b :=
  replay_matchesFrom hw hnul (Nat.zero_add _).ge hlen

/-- An envelope does not start with a zero byte, so its cipher string decodes to the whole of it (R155, R172). -/
theorem decodeFn_encodeFn_seal4 (cfg : Config) (payload key salt nonce : Bytes) :
    decodeFn cfg (encodeFn cfg (seal4 cfg payload key salt nonce)) = .ok (seal4 cfg payload key salt nonce) :=
  decodeFn_encodeFn_of_head? cfg (seal4_head? _ _ _)

/-- On the cipher string of sealed tokens each of the first three units of PIPE.DECRYPT undoes its counterpart, and
LZ.DECOMPRESS is left (R155, R186, R138). -/
theorem decryptFn_encodeFn_seal4 (cfg : Config) (ts : Tokens) (key : Bytes) {salt nonce : Bytes}
    (hs : salt.length = 16) (hn : nonce.length = 12) :
    decryptFn cfg (encodeFn cfg (seal4 cfg (toBytesFn ts) key salt nonce)) key = decompressFn ts := by
  simp only [decryptFn_eq, decodeFn_encodeFn_seal4, openFn_seal4 key cfg (toBytesFn ts) hs hn, fromBytesFn_toBytesFn]

/-- The envelope of tokens within the limit of ENV.SEAL is within that of ENV.OPEN (R172, R247). -/
theorem openOverLimit_seal4 (cfg : Config) {ts : Tokens} (key : Bytes) {salt nonce : Bytes} (hs : salt.length = 16)
    (hn : nonce.length = 12) (hlim : 5 * ts.length ≤ Config.aeadLimit) :
    openOverLimit cfg (seal4 cfg (toBytesFn ts) key salt nonce) = false := by
  refine openOverLimit_eq_false (.inl ?_)
  rw [seal4_length _ _ _ hs hn, toBytesFn_length]
  exact Nat.add_le_add_right hlim 48

/-- Settles O59: the plaintext compresses to the tokens of its matches; PIPE.DECRYPT gets these tokens back and replays
them. -/
theorem decryptUndoesEncrypt : Obligations.DecryptUndoesEncrypt := by
  intro s s' inp inp' x y salt nonce hp hp' hcfg hw hlim hnul hlen hsalt hnonce
  have hs := draw_length hsalt
  have hn := draw_length hnonce
  have hcompress := compressFn_of_not_overflow (cfg := s.cfg) (b := inp.bytes)
    fun ⟨_, m, hm, hlong⟩ => (hlen m hm).not_gt hlong
  have hreplay := decompressFn_matchTokens hw hnul hlen
  have hpayload := hlim _ hcompress
  generalize (selectedMatches s.cfg.window inp.bytes).map (matchToken inp.bytes) = ts at hcompress hreplay hpayload
  refine ⟨encodeFn s.cfg (seal4 s.cfg (toBytesFn ts) inp.key salt nonce), ?_, fun hg hkey => ?_⟩
  · rw [exec_pipeEncrypt_of_within hp hlim, encryptFn_drawn _ hcompress hsalt hnonce]
    rfl
  · have hwithin : ∀ raw, decodeFn s'.cfg inp'.glyphs = .ok raw → openOverLimit s'.cfg raw = false := by
      rw [hcfg, hg, decodeFn_encodeFn_seal4]
      rintro _ ⟨⟩
      exact openOverLimit_seal4 _ _ hs hn hpayload
    rw [exec_pipeDecrypt_of_within hp' hwithin, hcfg, hg, hkey, decryptFn_encodeFn_seal4 _ _ _ hs hn, hreplay,
      ended_ok_random]

end Sys2Proof.Machine

namespace Sys2Proof.Machine

/-! ## Key derivation for every salt (R235, R236) -/

/-- Thirty-two bytes are one block of the expand step, whatever the extract step was given. -/
theorem kdf_one_block (key salt : Bytes) :
    kdf key salt = some (hmac (hkdfExtract key salt) (Config.info ++ [0x01])) := by
  have hlim : Config.dkLen ≤ Config.hkdfLimit := by decide
  have hlen : (hmac (hkdfExtract key salt) (Config.info ++ [0x01])).length ≤ Config.dkLen := (hmac_length _ _).le
  rw [kdf, hkdf, if_pos hlim, show (Config.dkLen + 31) / 32 = 1 from rfl, hkdfExpand_one, List.take_of_length_le hlen]

/-- Settles O57: the key that the envelope derives from a salt of its length is, by definition, the two HMACs. -/
theorem keyDerivationIsTwoHmacs : Obligations.KeyDerivationIsTwoHmacs := by
  intro key salt hlen
  rw [kdf_eq key hlen, derivedKey]

/-! ## What the AEAD opens (R246) -/

/-- The two checks of `AEAD_OPEN` and what it releases behind them. -/
theorem aeadOpen_eq_some_iff {key nonce aad ct pt : Bytes} : aeadOpen key nonce aad ct = some pt ↔
    16 ≤ ct.length ∧ aeadTag key nonce aad (ctBody ct) = ctTag ct ∧ chachaXor key 1 nonce (ctBody ct) = pt := by
  by_cases hshort : ct.length < 16
  · simp [aeadOpen_of_short key nonce aad hshort, hshort.not_ge]
  · have htag : ¬ ct.length < Config.tagLen := hshort
    rw [aeadOpen, if_neg htag]
    simp [Nat.le_of_not_lt hshort]

theorem ctBody_length (ct : Bytes) : (ctBody ct).length = ct.length - 16 :=
  List.length_take_of_le (Nat.sub_le _ _)

/-- OPEN_LEN (R168): the body is what a tag leaves of the ciphertext, and the key stream keeps its length. -/
theorem length_of_aeadOpen {key nonce aad ct pt : Bytes} (h : aeadOpen key nonce aad ct = some pt) :
    pt.length + 16 = ct.length := by
  obtain ⟨hlen, -, rfl⟩ := aeadOpen_eq_some_iff.mp h
  rw [chachaXor_length, ctBody_length, Nat.sub_add_cancel hlen]

/-- Settles O56: the length of the one HMAC, then a law of the AEAD for each of the other four properties. -/
theorem primitivesHaveTheNamedProperties : Obligations.PrimitivesHaveTheNamedProperties :=
  ⟨fun key salt => ⟨_, kdf_one_block key salt, hmac_length _ _⟩, aeadSeal_length, aeadOpen_aeadSeal,
    fun dk nonce aad _ => aeadOpen_of_short dk nonce aad, fun _ _ _ _ _ => length_of_aeadOpen⟩

/-! ## The refusal over the limit of the AEAD (R247) -/

theorem sealOverLimit_iff {payload : Bytes} : sealOverLimit payload = true ↔ Config.aeadLimit < payload.length :=
  decide_eq_true_iff

theorem openOverLimit_iff {cfg : Config} {raw : Bytes} : openOverLimit cfg raw = true ↔
    Config.aeadLimit + 48 < raw.length ∧ raw.take 4 = magicBytes cfg.magic := by
  rw [openOverLimit, Bool.and_eq_true, decide_eq_true_iff, beq_iff_eq]
  rfl

/-- A started operation over the limit is refused, whatever its function would give. -/
theorem exec_of_over_limit {i : Instr} {s : State} {inp : Inputs} {p : RandomSource × Except Status Output}
    (hp : s.phase = .started inp) (hfn : operationFn i s.cfg s.random inp = some p)
    (hover : operationOverLimit i s.cfg s.random inp = true) : exec i s = .refused .aeadLimitExceeded := by
  rw [exec_of_operationFn hp hfn, if_pos hover]

/-- Settles O28: each premise is what the guard of its operation tests, the guards of the pipeline on what their first
unit delivers. -/
theorem overlongPayloadIsRefused : Obligations.OverlongPayloadIsRefused := by
  intro s inp hp
  refine ⟨fun hlen => ?sealing, fun hlen hmagic => ?opening, fun ts hts hlen => ?encrypt,
    fun raw hraw hlen hmagic => ?decrypt⟩
  case sealing => exact exec_of_over_limit hp rfl (sealOverLimit_iff.mpr hlen)
  case opening => exact exec_of_over_limit hp rfl (openOverLimit_iff.mpr ⟨hlen, hmagic⟩)
  case encrypt => exact exec_of_over_limit hp rfl ((encryptOverLimit_iff _ _ _).mpr ⟨ts, hts, hlen⟩)
  case decrypt =>
    have hover : openOverLimit s.cfg raw = true := openOverLimit_iff.mpr ⟨hlen, hmagic⟩
    exact exec_of_over_limit hp rfl ((decryptOverLimit_iff _ _ _).mpr ⟨raw, hraw, hover⟩)

end Sys2Proof.Machine

namespace Sys2Proof.Machine

/-! ## Faults outside the phase (assumption 13) -/

/-- Without a start there are no inputs to run on, whatever the operation would do with them. -/
theorem operate_not_started {s : State} (hp : ∀ inp, s.phase ≠ .started inp)
    (go : Inputs → Host.Outcome State Fault Refusal) : operate s go = .fault .notStarted := by
  unfold operate
  split
  next inp hstarted => exact absurd hstarted (hp inp)
  next => rfl
  next => rfl

/-- Outside a replay there is no OUT, whatever the token form would do with it. -/
theorem withReplay_outside {s : State} (hp : ∀ r, s.phase ≠ .running (.lzDecompress r))
    (go : ReplayRegs → Tick ReplayRegs Bytes) : withReplay s go = .fault .noReplay := by
  unfold withReplay
  split
  next r hrunning => exact absurd hrunning (hp r)
  next => rfl

/-- The meaning of every operation runs on the inputs handed over, and on nothing without them (R71, R86). -/
theorem exec_eq_operate {i : Instr} (hi : isOperation i = true) (s : State) : ∃ go, exec i s = operate s go := by
  cases i
  case tNull | tLit | tCopy | tCopyLit => cases hi
  all_goals exact ⟨_, rfl⟩

/-- Settles O26: the meaning of an operation needs inputs, that of a token form a replay. -/
theorem execFaultsOutsideItsPhase : Obligations.ExecFaultsOutsideItsPhase := by
  intro i s
  constructor
  · intro hi hp
    obtain ⟨go, hexec⟩ := exec_eq_operate hi s
    rw [hexec, operate_not_started hp]
  · intro hi hp
    obtain ⟨k, hk⟩ := isOperation_eq_false.mp hi
    rw [exec_tokenForm hk, withReplay_outside hp]

/-! ## No fault inside a step (R260, R270) -/

/-- A code of the table names an operation (R85). -/
theorem isOperation_of_decode_code {code : Byte} {i : Instr} (h : decode [code] = .ok i) : isOperation i = true := by
  have hrows : ∀ row ∈ opCodes, isOperation row.2 = true := by decide
  exact hrows (code, i) (decodeOp_eq_ok_iff.mp h)

/-- Every operation has a function. -/
theorem exists_operationFn {i : Instr} (hi : isOperation i = true) (cfg : Config) (x : RandomSource) (inp : Inputs) :
    ∃ p, operationFn i cfg x inp = some p := by
  cases i
  case tNull | tLit | tCopy | tCopyLit => cases hi
  all_goals exact ⟨_, rfl⟩

section
variable {s : State} {f : Fault}

/-- A started operation is refused or ends: its errors are statuses. -/
theorem exec_started_ne_fault {i : Instr} {inp : Inputs} (hi : isOperation i = true) (hp : s.phase = .started inp) :
    exec i s ≠ .fault f := by
  obtain ⟨p, hfn⟩ := exists_operationFn hi s.cfg s.random inp
  rw [exec_of_operationFn hp hfn]
  split
  next => nofun
  next => nofun

/-- What a step fetches and decodes stands in its phase: OP holds an operation that is started, and a record is fetched
only where a replay stands before its token. -/
theorem exec_fetched_ne_fault {bytes : Bytes} {i : Instr} (hf : fetch s = some bytes) (hd : decode bytes = .ok i) :
    exec i s ≠ .fault f := by
  rcases fetch_cases hf with ⟨inp, code, hp, -, rfl⟩ | ⟨r, k, hp, hst, -, rfl⟩
  · exact exec_started_ne_fault (isOperation_of_decode_code hd) hp
  · cases (decode_recordBytes k).symm.trans hd
    rw [exec_decodeToken, withReplay_at hp hst]
    nofun

/-- A reset that comes next is all that a step does, whatever was running (R301). -/
theorem step_reset {rest : List HostCommand} (hr : pendingReset s = some rest) :
    step s = .next (resetBlock s rest) := by
  simp only [step, hr]

/-- Before no instruction the machine goes on, or meets a payload over the limit of R247. -/
theorem advance_ne_fault : advance s ≠ .fault f := by
  intro h
  unfold advance at h
  split at h
  next => split at h <;> cases h
  next => split at h <;> cases h
  next => cases h
end

/-- Settles O27: an instruction that a step runs stands in its phase, and no other thing a step can do faults. -/
theorem stepNeverFaults : Obligations.StepNeverFaults := by
  intro s f h
  cases hr : pendingReset s with
  | some rest => cases (step_reset hr).symm.trans h
  | none =>
    cases hf : fetch s with
    | none => exact advance_ne_fault (step_advance hr hf ▸ h)
    | some bytes =>
      cases hd : decode bytes with
      | ok i => exact exec_fetched_ne_fault hf hd (step_exec hr hf hd ▸ h)
      | error e => cases (step_unknown hr hf hd).symm.trans h

end Sys2Proof.Machine

namespace Sys2Proof.Machine

/-! ## Reset next in the host's list (R301) -/

theorem pendingReset_reset {s : State} {rest : List HostCommand} (hh : s.host = .reset :: rest) :
    pendingReset s = some rest := by
  simp only [pendingReset, hh]

/-- Settles O22: the phase is not looked at, since a step asks for the host's reset before it fetches. -/
theorem resetAbandonsWhateverRuns : Obligations.ResetAbandonsWhateverRuns :=
  fun _ _ hh => step_reset (pendingReset_reset hh)

end Sys2Proof.Machine
